-- ==== Sys2Proof/Word.lean ====
section
/-! DEFINITION. The widths of the block's words (00_scope.md R7, R8; 30_encoding.md R76). -/

namespace Sys2Proof

/-- A 32-bit command, response or STATUS word (30_encoding.md R76, R79; 10_state.md R32). -/
abbrev Word := BitVec 32

/-- A signed 16-bit value, two's complement: a sample, a coefficient, a history slot, the last output (00_scope.md R7). -/
abbrev SInt16 := BitVec 16

/-- An unsigned 24-bit configuration operand or register (00_scope.md R7, 10_state.md R23). -/
abbrev UInt24 := BitVec 24

end Sys2Proof
end

