-- ==== Sys2Proof/Syntax.lean ====
section
/-! DEFINITION. The commands of the FIRE command set, version 1 (30_encoding.md R76 to R86). -/

namespace Sys2Proof

/-- The selector operand of RDCFG, in the order 0 to 7 (42_status_readback.md R173; names of 30_encoding.md R85). -/
inductive Selector where
  | n | fc | fs | ptr | nreq | fcreq | fsreq | nmax
  deriving DecidableEq, Repr

/-- One command with its operand, one constructor per row of the opcode map (30_encoding.md R81). -/
inductive Instr where
  | nop
  | setn   (u : UInt24)
  | setfc  (u : UInt24)
  | setfs  (u : UInt24)
  | synth
  | push   (x : SInt16)
  | last
  | rdstat
  | rdcfg  (sel : Selector)
  | rdcoef (i : BitVec 16)
  | rdhist (i : BitVec 16)
  | clrstat
  deriving DecidableEq, Repr

/-- The twelve assigned operations, without operands (30_encoding.md R81). -/
inductive Op where
  | nop | setn | setfc | setfs | synth | push | last | rdstat | rdcfg | rdcoef | rdhist | clrstat
  deriving DecidableEq, Repr

/-- The operand forms (30_encoding.md R77). -/
inductive Form where
  | none | u24 | s16 | idx16 | sel3
  deriving DecidableEq, Repr

/-- A line of the textual form (30_encoding.md R85) or a pseudo-instruction (R86), its numbers as they are written. -/
inductive Source where
  | nop
  | setn      (u : Nat)
  | setfc     (u : Nat)
  | setfs     (u : Nat)
  | synth
  | pushDec   (x : Int)
  | pushHex   (p : Nat)
  | last
  | rdstat
  | rdcfgNum  (k : Nat)
  | rdcfgName (sel : Selector)
  | rdcoef    (i : Nat)
  | rdhist    (i : Nat)
  | clrstat
  | word      (w : Nat)
  | config    (n fc fs : Nat)
  | flush
  deriving DecidableEq, Repr

end Sys2Proof
end

