-- ==== Sys2Proof/WellFormed.lean ====
section
/-! DEFINITION. Well-formedness. An Instr is well formed by the types of its operands (24, 16 or 3 bits); what can be ill
formed is a command word (30_encoding.md R81) and a line of the textual form (30_encoding.md R85). The word check is
written from the match and mask columns of the opcode map; the decoder (Decode.lean) is written from the operand forms
and the decode order of R77 and R82, so that the two readings of the spec can be held against each other. -/

namespace Sys2Proof

/-- The rows of the opcode map, in its order (30_encoding.md R81). -/
def Op.all : List Op :=
  [.nop, .setn, .setfc, .setfs, .synth, .push, .last, .rdstat, .rdcfg, .rdcoef, .rdhist, .clrstat]

/-- The match column of the opcode map (30_encoding.md R81). -/
def Op.matchBits : Op → Word
  | .nop     => 0x00000000#32
  | .setn    => 0x01000000#32
  | .setfc   => 0x02000000#32
  | .setfs   => 0x03000000#32
  | .synth   => 0x04000000#32
  | .push    => 0x10000000#32
  | .last    => 0x11000000#32
  | .rdstat  => 0x20000000#32
  | .rdcfg   => 0x21000000#32
  | .rdcoef  => 0x22000000#32
  | .rdhist  => 0x23000000#32
  | .clrstat => 0x24000000#32

/-- The mask column of the opcode map (30_encoding.md R81). -/
def Op.maskBits : Op → Word
  | .nop     => 0xFFFFFFFF#32
  | .setn    => 0xFF000000#32
  | .setfc   => 0xFF000000#32
  | .setfs   => 0xFF000000#32
  | .synth   => 0xFFFFFFFF#32
  | .push    => 0xFFFF0000#32
  | .last    => 0xFFFFFFFF#32
  | .rdstat  => 0xFFFFFFFF#32
  | .rdcfg   => 0xFFFFFFF8#32
  | .rdcoef  => 0xFFFF0000#32
  | .rdhist  => 0xFFFF0000#32
  | .clrstat => 0xFFFFFFFF#32

/-- A word spells an operation exactly when its masked bits are the row's match (30_encoding.md R81). -/
abbrev Op.Spells (o : Op) (w : Word) : Prop := w &&& o.maskBits = o.matchBits

/-- A well-formed command word: it spells some row of the opcode map (30_encoding.md R81, R82). -/
def wellFormedWord (w : Word) : Bool := Op.all.any (fun o => decide (o.Spells w))

/-- The operand ranges of the textual form (30_encoding.md R85). -/
def Source.wellFormed : Source → Bool
  | .setn u | .setfc u | .setfs u => decide (u ≤ 16777215)
  | .pushDec x                    => decide (-32768 ≤ x ∧ x ≤ 32767)
  | .pushHex p                    => decide (p ≤ 0xFFFF)
  | .rdcfgNum k                   => decide (k ≤ 7)
  | .rdcoef i | .rdhist i         => decide (i ≤ 65535)
  | .word w                       => decide (w ≤ 0xFFFFFFFF)
  | .config n fc fs               => decide (n ≤ 16777215 ∧ fc ≤ 16777215 ∧ fs ≤ 16777215)
  | .nop | .synth | .last | .rdstat | .rdcfgName _ | .clrstat | .flush => true

end Sys2Proof
end

