-- ==== Sys2Proof/Decode.lean ====
section
/-! DEFINITION. The decoder, total on every 32-bit word and rejecting by name (30_encoding.md R76 to R78, R82), and the
encoder written from the same tables (30_encoding.md R77, R81). A command is one word (R84); no byte order arises
(20_memory.md R53). -/

namespace Sys2Proof

/-- The opcode field, bits 31:24 (30_encoding.md R76). -/
def opcodeField (w : Word) : BitVec 8 := w.extractLsb' 24 8

/-- The operand field, bits 23:0 (30_encoding.md R76). -/
def operandField (w : Word) : BitVec 24 := w.extractLsb' 0 24

/-- The opcode values (30_encoding.md R81, first column). -/
def Op.opcode : Op → BitVec 8
  | .nop     => 0x00#8
  | .setn    => 0x01#8
  | .setfc   => 0x02#8
  | .setfs   => 0x03#8
  | .synth   => 0x04#8
  | .push    => 0x10#8
  | .last    => 0x11#8
  | .rdstat  => 0x20#8
  | .rdcfg   => 0x21#8
  | .rdcoef  => 0x22#8
  | .rdhist  => 0x23#8
  | .clrstat => 0x24#8

/-- The operand form each operation uses (30_encoding.md R77, R81). -/
def Op.form : Op → Form
  | .nop     => .none
  | .setn    => .u24
  | .setfc   => .u24
  | .setfs   => .u24
  | .synth   => .none
  | .push    => .s16
  | .last    => .none
  | .rdstat  => .none
  | .rdcfg   => .sel3
  | .rdcoef  => .idx16
  | .rdhist  => .idx16
  | .clrstat => .none

/-- The operation an opcode value stands for; none for the 244 unassigned values (30_encoding.md R82). -/
def opOfOpcode (b : BitVec 8) : Option Op := Op.all.find? (fun o => o.opcode == b)

/-- The reserved operand bits of a form are all 0 (30_encoding.md R77, last column). -/
def Form.reservedClear (f : Form) (w : Word) : Bool :=
  match f with
  | .none  => w.extractLsb' 0 24 == 0#24
  | .u24   => true
  | .s16   => w.extractLsb' 16 8 == 0#8
  | .idx16 => w.extractLsb' 16 8 == 0#8
  | .sel3  => w.extractLsb' 3 21 == 0#21

/-- The 24-bit value of form U24, bits 23:0 (30_encoding.md R77). -/
def u24Operand (w : Word) : UInt24 := w.extractLsb' 0 24

/-- The 16-bit value of forms S16 and IDX16, bits 15:0 (30_encoding.md R77). -/
def low16Operand (w : Word) : BitVec 16 := w.extractLsb' 0 16

/-- The 3-bit value of form SEL3, bits 2:0 (30_encoding.md R77). -/
def selOperand (w : Word) : BitVec 3 := w.extractLsb' 0 3

/-- The selector a 3-bit value names (42_status_readback.md R173). -/
def Selector.ofBits (b : BitVec 3) : Selector :=
  if b = 0#3 then .n
  else if b = 1#3 then .fc
  else if b = 2#3 then .fs
  else if b = 3#3 then .ptr
  else if b = 4#3 then .nreq
  else if b = 5#3 then .fcreq
  else if b = 6#3 then .fsreq
  else .nmax

/-- The 3-bit value of a selector (42_status_readback.md R173). -/
def Selector.toBits : Selector → BitVec 3
  | .n     => 0#3
  | .fc    => 1#3
  | .fs    => 2#3
  | .ptr   => 3#3
  | .nreq  => 4#3
  | .fcreq => 5#3
  | .fsreq => 6#3
  | .nmax  => 7#3

/-- The instruction an operation makes of a word whose reserved bits are clear (30_encoding.md R77, R78, R81). -/
def Op.build (o : Op) (w : Word) : Instr :=
  match o with
  | .nop     => .nop
  | .setn    => .setn (u24Operand w)
  | .setfc   => .setfc (u24Operand w)
  | .setfs   => .setfs (u24Operand w)
  | .synth   => .synth
  | .push    => .push (low16Operand w)
  | .last    => .last
  | .rdstat  => .rdstat
  | .rdcfg   => .rdcfg (Selector.ofBits (selOperand w))
  | .rdcoef  => .rdcoef (low16Operand w)
  | .rdhist  => .rdhist (low16Operand w)
  | .clrstat => .clrstat

/-- What the decoder answers: an instruction, or one of the two rejections of 30_encoding.md R82. -/
inductive Decoded where
  | ok (i : Instr)
  /-- Step 1 of R82: the opcode is unassigned. -/
  | illegalOpcode
  /-- Step 2 of R82: a reserved bit of the opcode's form is 1. -/
  | reservedBits
  deriving DecidableEq, Repr

/-- The decode order of 30_encoding.md R82. -/
def decode (w : Word) : Decoded :=
  match opOfOpcode (opcodeField w) with
  | none   => .illegalOpcode
  | some o => if o.form.reservedClear w then .ok (o.build w) else .reservedBits

/-- The operation of an instruction. -/
def Instr.op : Instr → Op
  | .nop      => .nop
  | .setn _   => .setn
  | .setfc _  => .setfc
  | .setfs _  => .setfs
  | .synth    => .synth
  | .push _   => .push
  | .last     => .last
  | .rdstat   => .rdstat
  | .rdcfg _  => .rdcfg
  | .rdcoef _ => .rdcoef
  | .rdhist _ => .rdhist
  | .clrstat  => .clrstat

/-- The 24 operand bits of an instruction, reserved bits 0 (30_encoding.md R77). -/
def Instr.operand : Instr → BitVec 24
  | .setn u | .setfc u | .setfs u => u
  | .push x                       => 0#8 ++ x
  | .rdcoef i | .rdhist i         => 0#8 ++ i
  | .rdcfg sel                    => 0#21 ++ sel.toBits
  | .nop | .synth | .last | .rdstat | .clrstat => 0#24

/-- The command word of an instruction: opcode above operand (30_encoding.md R76). -/
def encode (i : Instr) : Word := i.op.opcode ++ i.operand

/-- The instruction the decoder reads from the low `nbits` bits of `w`, the bits above 0 (the host's question). -/
def decodeTableWord (nbits w : Nat) : Option Instr :=
  match decode (BitVec.ofNat 32 (w % 2 ^ nbits)) with
  | .ok i          => some i
  | .illegalOpcode => none
  | .reservedBits  => none

end Sys2Proof
end

