-- ==== Sys2Proof/Config.lean ====
section
/-! DEFINITION. What an implementation of the block fixes (00_scope.md R6) and the model's one free value. -/

namespace Sys2Proof

/-- The legal values of the build parameter N_MAX (00_scope.md R6): odd, 3 to 65535. -/
def Config.LegalNMax (nMax : Nat) : Prop := nMax % 2 = 1 ∧ 3 ≤ nMax ∧ nMax ≤ 65535

/-- The reference value of N_MAX (00_scope.md R6). -/
def Config.referenceNMax : Nat := 255

/-- The parameters N_MAX and coefGen (00_scope.md R6), arguments of the engine's step and no state (R13). coefGen is a total
function from (N, FC, FS) to N signed 16-bit values, here with the tap index as its last argument. -/
structure Params where
  nMax    : Nat
  coefGen : (n fce fs k : Nat) → SInt16

/-- The latency parameters LAT_PUSH, LAT_SYNTH and LAT_OTHER (00_scope.md R6, 70_reset_and_hazards.md R243), in cycles.
No command's effect depends on them; the clocked port takes them as an argument. -/
structure Timing where
  /-- LAT_PUSH, a function of the effective window size. -/
  push  : Nat → Nat
  /-- LAT_SYNTH, a function of the window size asked for, after odd-forcing. -/
  synth : Nat → Nat
  /-- LAT_OTHER. -/
  other : Nat

/-- Every latency is at least one cycle (00_scope.md R6). -/
def Timing.Legal (T : Timing) : Prop := (∀ n, 1 ≤ T.push n) ∧ (∀ n, 1 ≤ T.synth n) ∧ 1 ≤ T.other

/-- The reference latencies of 70_reset_and_hazards.md R243. DESIGN CHOICE (log 10): the spec leaves LAT_SYNTH open but
for "at least N"; this record takes N itself. -/
def Timing.reference : Timing := { push := fun n => n + 2, synth := fun n => max n 1, other := 1 }

/-- FREE VALUE (log 6, safe). Where the coefficient generator's enclosure of the exact real r(k) leaves two neighbouring
integers as its truncation, this says whether the larger is meant. Nothing can evaluate it. Its arguments are the centre
index, the distance of the tap from the centre, the effective cutoff and the sample frequency. -/
opaque Config.coefTie : (centre offset fce fs : Nat) → Bool

end Sys2Proof
end

