-- ==== Sys2Proof/Machine/State.lean ====
section
/-! DEFINITION. The state of one engine instance (10_state.md R22), its host's moves and responses, and its reset value. -/

namespace Sys2Proof.Machine

/-- One of the two storage spaces, COEF or HIST (20_memory.md R50): (slot index, value) pairs, indices strictly rising,
no value 0. A slot that is not listed holds 0 (DESIGN CHOICE, log 5). -/
abbrev Memory := List (Nat × SInt16)

/-- What the host can do at a command boundary (00_scope.md R12, R16; 70_reset_and_hazards.md R230, R232). A host that
breaks a duty of R241 has no move. -/
inductive HostMove where
  /-- The host offers this command word and takes its response (30_encoding.md R71). -/
  | command (w : Word)
  /-- The host holds rst_n at 0 for a clock edge while no command is outstanding (R230). -/
  | reset
  /-- The host asserts rst_n while this accepted command is in flight (R232). -/
  | resetInFlight (w : Word)
  deriving DecidableEq, Repr

/-- The machine's state: the registers and storage of 10_state.md R22, the position in the sequence of accepted commands
(R21), and the host's side of the port (log 1). The parameters N_MAX and coefGen are no state (00_scope.md R13). -/
structure State where
  /-- N_REQ, staged window size (10_state.md R23). -/
  nReq      : UInt24
  /-- FC_REQ, staged cutoff frequency (R23). -/
  fcReq     : UInt24
  /-- FS_REQ, staged sample frequency (R23). -/
  fsReq     : UInt24
  /-- N, effective window size (R24). -/
  n         : Nat
  /-- FC, effective cutoff (R24). -/
  fc        : UInt24
  /-- FS, effective sample frequency (R24). -/
  fs        : UInt24
  /-- COEF, the coefficient memory (R26). -/
  coef      : Memory
  /-- HIST, the history buffer (R27). -/
  hist      : Memory
  /-- PTR, the oldest-pointer (R28). -/
  ptr       : Nat
  /-- LAST_OUT, the last output (R30). -/
  lastOut   : SInt16
  /-- STATUS (R32). -/
  status    : Word
  /-- How many commands the engine has accepted: the position in the accepted-command sequence, which stands in for a
  program counter (R21). No command reads or changes it, and no reset (log 19). -/
  accepted  : Nat
  /-- The host's moves the engine has not taken yet, oldest first (00_scope.md R12, 30_encoding.md R73). -/
  inbox     : List HostMove
  /-- The response words the host has received, oldest first (00_scope.md R15, 30_encoding.md R74). -/
  responses : List Word
  deriving DecidableEq, Repr

/-- The block has no faults: every command has a defined outcome (00_scope.md R17, 60_exceptions.md R200), so no
constructor exists. -/
inductive Fault where
  deriving DecidableEq, Repr

/-- Reasons the model may refuse a command. -/
inductive Refusal where
  /-- Raised by exec's arm for an instruction without a meaning; no arm does. Safe. -/
  | notModelled (mnemonic : String)
  deriving DecidableEq, Repr

/-- The machine right after reset (10_state.md R42, 70_reset_and_hazards.md R231): STATUS and the staging registers are 0.
DESIGN CHOICE (log 3): N, FC, FS, COEF, HIST, PTR and LAST_OUT, which the spec leaves unspecified, are 0. -/
def State.reset : State :=
  { nReq := 0#24, fcReq := 0#24, fsReq := 0#24
    n := 0, fc := 0#24, fs := 0#24
    coef := [], hist := []
    ptr := 0, lastOut := 0#16
    status := 0#32
    accepted := 0, inbox := [], responses := [] }

end Sys2Proof.Machine
end

