-- ==== Sys2Proof/Machine/Operands.lean ====
section
/-! DEFINITION. The arithmetic primitives of 00_scope.md R8 and R9, the readings of operands (30_encoding.md R77, R78) and
the forms of the response word (30_encoding.md R79). -/

namespace Sys2Proof.Machine

/-- `wrap32`: the 32-bit value congruent to an integer modulo 2^32 (00_scope.md R9). -/
def wrap32 (v : Int) : BitVec 32 := BitVec.ofInt 32 v

/-- `wrap16`: the 16-bit value congruent to an integer modulo 2^16 (00_scope.md R9). -/
def wrap16 (v : Int) : SInt16 := BitVec.ofInt 16 v

/-- `asInt16` as an integer: the two's-complement value of a 16-bit field (00_scope.md R9, 30_encoding.md R78). -/
def int16Value (v : SInt16) : Int := v.toInt

/-- The unsigned value of an IDX16 index (30_encoding.md R77, R78). -/
def indexValue (i : BitVec 16) : Nat := i.toNat

/-- The unsigned value of a staged or effective 24-bit register (30_encoding.md R78, 10_state.md R23). -/
def uint24Value (u : UInt24) : Nat := u.toNat

/-- Response form ZERO (30_encoding.md R79). -/
def zeroResponse : Word := 0x00000000#32

/-- Response form S16: `sext_32(v)` (30_encoding.md R79). -/
def sampleResponse (v : SInt16) : Word := v.signExtend 32

/-- Response form U: `zext_32(v)` (30_encoding.md R79). -/
def unsignedResponse (v : Nat) : Word := BitVec.ofNat 32 v

/-- Response form ERR_RSP (30_encoding.md R79, R80). -/
def errorResponse : Word := 0x80000000#32

end Sys2Proof.Machine
end

