-- ==== Sys2Proof/Machine/Flags.lean ====
section
/-! DEFINITION. The fields of STATUS (10_state.md R32) and the error codes (60_exceptions.md R201). -/

namespace Sys2Proof.Machine

/-- The errors a command can raise (60_exceptions.md R201, codes 1 to 11). -/
inductive ErrorCode where
  | illegalOpcode | reservedBits | notConfigured | noOutput | indexRange
  | cfgNZero | cfgFsZero | cfgFcZero | cfgNOne | cfgNMax | cfgFsLow
  deriving DecidableEq, Repr

/-- The value of an error code in STATUS.ERRCODE (60_exceptions.md R201). -/
def ErrorCode.bits : ErrorCode → BitVec 4
  | .illegalOpcode => 1#4
  | .reservedBits  => 2#4
  | .notConfigured => 3#4
  | .noOutput      => 4#4
  | .indexRange    => 5#4
  | .cfgNZero      => 6#4
  | .cfgFsZero     => 7#4
  | .cfgFcZero     => 8#4
  | .cfgNOne       => 9#4
  | .cfgNMax       => 10#4
  | .cfgFsLow      => 11#4

/-- Read one bit of a status word. -/
def getBit (w : Word) (k : Nat) : Bool := w.getLsbD k

/-- Write one bit of a status word, the others kept. -/
def setBit (w : Word) (k : Nat) (b : Bool) : Word :=
  (w &&& ~~~(1#32 <<< k)) ||| (if b then 1#32 <<< k else 0#32)

/-- Write the field ERRCODE, bits 11:8, of a status word, the others kept. -/
def setCode (w : Word) (c : BitVec 4) : Word := (w &&& ~~~(0xF00#32)) ||| (c.setWidth 32 <<< 8)

/-- STATUS.CFG, bit 0 (10_state.md R32, R33). -/
def State.cfg (s : State) : Bool := getBit s.status 0

/-- STATUS.OUTV, bit 1 (10_state.md R32, R34). -/
def State.outv (s : State) : Bool := getBit s.status 1

/-- STATUS.ERR, bit 2 (10_state.md R32, R35). -/
def State.err (s : State) : Bool := getBit s.status 2

/-- STATUS.OVF, bit 3 (10_state.md R32, R36). -/
def State.ovf (s : State) : Bool := getBit s.status 3

/-- STATUS.ERRCODE, bits 11:8 (10_state.md R32, R39). -/
def State.errCode (s : State) : BitVec 4 := s.status.extractLsb' 8 4

/-- STATUS bits 7:4 and 31:12, which always read 0 (10_state.md R40), as one word with every other bit cleared. -/
def State.reservedStatus (s : State) : Word := s.status &&& 0xFFFFF0F0#32

/-- Write STATUS.CFG. -/
def State.setCfg (s : State) (b : Bool) : State := { s with status := setBit s.status 0 b }

/-- Write STATUS.OUTV. -/
def State.setOutv (s : State) (b : Bool) : State := { s with status := setBit s.status 1 b }

/-- Write STATUS.ERR. -/
def State.setErr (s : State) (b : Bool) : State := { s with status := setBit s.status 2 b }

/-- Write STATUS.OVF. -/
def State.setOvf (s : State) (b : Bool) : State := { s with status := setBit s.status 3 b }

/-- Write STATUS.ERRCODE. -/
def State.setErrCode (s : State) (c : BitVec 4) : State := { s with status := setCode s.status c }

/-- The level of the err output: STATUS.ERR (30_encoding.md R72, 60_exceptions.md R208). -/
def State.errPin (s : State) : Bool := s.err

/-- A sum is out of the range in which PUSH's output is floor(S / 2^15) (41_convolution.md R147). -/
def outOfRange (sum : Int) : Bool := decide (sum < -2 ^ 30 ∨ 2 ^ 30 ≤ sum)

end Sys2Proof.Machine
end

