-- ==== Sys2Proof/Machine/Ops.lean ====
section
/-! DEFINITION. The named operations over storage and registers: MemRead and MemWrite (00_scope.md R10), the response, the
error action (60_exceptions.md R202), reset (70_reset_and_hazards.md R230, R231) and taking the host's next move. -/

namespace Sys2Proof.Machine

/-- The canonical form of a storage space: slot indices strictly rising, no listed value 0. -/
def Memory.wf : Memory → Bool
  | []           => true
  | (a, v) :: m  => v != 0#16 && m.all (fun c => decide (a < c.1)) && Memory.wf m

/-- MemRead: the value of slot `i` (00_scope.md R10); 0 where it is not listed (log 5). -/
def Memory.read : Memory → Nat → SInt16
  | [], _          => 0#16
  | (a, v) :: m, i => if a = i then v else Memory.read m i

/-- MemWrite: slot `i` takes the value `v` (00_scope.md R10), the canonical form kept. -/
def Memory.write : Memory → Nat → SInt16 → Memory
  | [], i, v => if v = 0#16 then [] else [(i, v)]
  | (a, u) :: m, i, v =>
    if i < a then (if v = 0#16 then (a, u) :: m else (i, v) :: (a, u) :: m)
    else if i = a then (if v = 0#16 then m else (i, v) :: m)
    else (a, u) :: Memory.write m i v

/-- `for k in 0 .. n-1: MemWrite(M, k, f k)` (40_synthesis.md R112). The slots are distinct, so the order is free; the
highest is written first. -/
def Memory.fill (f : Nat → SInt16) : Nat → Memory → Memory
  | 0, m     => m
  | k + 1, m => Memory.fill f k (Memory.write m k (f k))

/-- `respond(w)`: the response word of the command (00_scope.md R10), received by the host in order (30_encoding.md R74). -/
def State.respond (s : State) (w : Word) : State := { s with responses := s.responses ++ [w] }

/-- The error action `raise Error(code)` (60_exceptions.md R202): the block's whole exception entry. -/
def State.raise (s : State) (e : ErrorCode) : State :=
  ((s.setErr true).setErrCode e.bits).respond errorResponse

/-- What CLRSTAT clears (42_status_readback.md R176). There is no return from an error (60_exceptions.md R209); this is
how its record goes. -/
def State.clearErrors (s : State) : State := ((s.setErr false).setErrCode 0#4).setOvf false

/-- Reset (70_reset_and_hazards.md R230, R231): STATUS and the staging registers are 0. The registers the spec leaves
unspecified take the values of State.reset (DESIGN CHOICE, log 4). The position stays (log 19), and the host keeps what it
has received and what it has still to do (log 15). -/
def State.applyReset (s : State) : State :=
  { State.reset with accepted := s.accepted, inbox := s.inbox, responses := s.responses }

/-- The engine accepts a command (30_encoding.md R71): the position in the accepted sequence moves on by one
(10_state.md R21). -/
def State.countAccepted (s : State) : State := { s with accepted := s.accepted + 1 }

/-- Reset while an accepted command is in flight (70_reset_and_hazards.md R232): the command is abandoned, its response is
never offered, and the state is the reset state. -/
def State.abandon (s : State) (_w : Word) : State := s.applyReset

/-- The host's next move and the state with that move taken from the inbox; none when the host offers nothing. -/
def State.nextMove (s : State) : Option (HostMove × State) :=
  match s.inbox with
  | []        => none
  | m :: rest => some (m, { s with inbox := rest })

/-- The position of the next command in the sequence of accepted commands, which stands in for a program counter
(10_state.md R21). A command that a reset abandons was accepted and counts (70_reset_and_hazards.md R232). -/
def State.position (s : State) : Nat := s.accepted

end Sys2Proof.Machine
end

