-- ==== Sys2Proof/Machine/Convolution.lean ====
section
/-! DEFINITION. The convolution family: PUSH and LAST (41_convolution.md R141 to R151). -/

namespace Sys2Proof.Machine

/-- The transient values of one PUSH (10_state.md R31, R41): the accumulator ACC, the exact sum S and the traversal index q. -/
structure Mac where
  acc : BitVec 32
  sum : Int
  q   : Nat
  deriving DecidableEq, Repr

/-- The tap product, exact (41_convolution.md R143). -/
def tapProduct (x c : SInt16) : Int := int16Value x * int16Value c

/-- One tap: the slot `m.q` of the history with coefficient `i`, added to ACC with wrap32 and to S exactly
(41_convolution.md R143, R144). -/
def tap (coef hist : Memory) (i : Nat) (m : Mac) : Mac :=
  let prod := tapProduct (hist.read m.q) (coef.read i)
  { acc := wrap32 (m.acc.toInt + prod), sum := m.sum + prod, q := m.q }

/-- Advance the traversal index one slot, wrapping to 0 at the window size (41_convolution.md R145). -/
def advance (n : Nat) (m : Mac) : Mac := { m with q := (m.q + 1) % n }

/-- `count` further taps from tap index `i` on: advance, then tap (41_convolution.md R145). -/
def traverse (coef hist : Memory) (n : Nat) : (count i : Nat) → Mac → Mac
  | 0, _, m         => m
  | count + 1, i, m => traverse coef hist n count (i + 1) (tap coef hist i (advance n m))

/-- The multiply-accumulate pass of one PUSH, after the history write, starting at slot `p` (41_convolution.md R141). -/
def macPass (coef hist : Memory) (n p : Nat) : Mac :=
  traverse coef hist n (n - 1) 1 (tap coef hist 0 { acc := 0#32, sum := 0, q := p })

/-- Steps 4 and 5: shift ACC left by one within 32 bits and take the high half (41_convolution.md R148). -/
def extractOutput (acc : BitVec 32) : SInt16 := (wrap32 (2 * acc.toInt)).extractLsb' 16 16

/-- What a PUSH of `x` makes of a configured state, before it responds (41_convolution.md R141). -/
def pushSample (x : SInt16) (s : State) : State :=
  let hist := s.hist.write s.ptr x
  let m := macPass s.coef hist s.n s.ptr
  let s := { s with hist := hist, ptr := m.q, lastOut := extractOutput m.acc }
  let s := s.setOutv true
  if outOfRange m.sum then s.setOvf true else s

/-- The effect of PUSH (41_convolution.md R141). -/
def pushEffect (x : SInt16) (s : State) : State :=
  if s.cfg then (pushSample x s).respond (sampleResponse (pushSample x s).lastOut) else s.raise .notConfigured

/-- The effect of LAST (41_convolution.md R151). -/
def lastEffect (s : State) : State :=
  if s.cfg then
    if s.outv then s.respond (sampleResponse s.lastOut) else s.raise .noOutput
  else s.raise .notConfigured

/-- PUSH (41_convolution.md R141). -/
def execPush (x : SInt16) (s : State) : Host.Outcome State Fault Refusal := .next (pushEffect x s)

/-- LAST (41_convolution.md R151). -/
def execLast (s : State) : Host.Outcome State Fault Refusal := .next (lastEffect s)

end Sys2Proof.Machine
end

