-- ==== Sys2Proof/Machine/CoefGen.lean ====
section
/-! DEFINITION. The coefficient generator (40_synthesis.md R104 to R110), in integers. The spec defines a coefficient as
the truncation of an exact real r(k); here r(k) is enclosed between two integers over 2^160 and truncated, and
Laws/CoefGen.lean proves the result against the spec's real formula. -/

namespace Sys2Proof.Machine

/-- Window-length normalization: an even request is made odd (40_synthesis.md R105). -/
def normalizeWindow (nreq : Nat) : Nat := if nreq % 2 = 0 then nreq + 1 else nreq

/-- The clamp limit `(fs div 2) - 1`, an integer that may be 0 or less (40_synthesis.md R104). -/
def clampLimit (fs : Nat) : Int := ((fs / 2 : Nat) : Int) - 1

/-- The effective cutoff (40_synthesis.md R104). -/
def clampCutoff (fc fs : Nat) : Int := if (fc : Int) > clampLimit fs then clampLimit fs else (fc : Int)

/-- The fixed-point unit of the enclosures. -/
def fixOne : Nat := 2 ^ 160

/-- The integer part of π times the unit. -/
def fixPi : Nat := 4591442807048218921384805199743311128454155024418

/-- How far, in units of 2^-160, a value of `fixSinPi` may lie from the exact sine. -/
def fixError : Nat := 64

/-- The nested form of sin(x)/x = 1 - x²/(2·3)·(1 - x²/(4·5)·(…)), `y` standing for x² in fixed point. -/
def nestedSin (y : Nat) : Nat → Nat → Nat
  | 0, _     => fixOne
  | m + 1, j => fixOne - (y * nestedSin y m (j + 1)) / (fixOne * ((2 * j) * (2 * j + 1)))

/-- sin(π·p/q) in fixed point, for 2·p ≤ q. -/
def fixSinPi (p q : Nat) : Nat :=
  let x := fixPi * p / q
  x * nestedSin (x * x / fixOne) 24 1 / fixOne

/-- 100 times the Hamming window at distance `o` from the centre `c`, in fixed point: 54 + 46·cos(π·o/c)
(40_synthesis.md R107 with k = c ± o, so that cos(2π·k/(n-1)) = -cos(π·o/c)). -/
def fixWindow (c o : Nat) : Nat :=
  if 2 * o ≤ c then 54 * fixOne + 46 * fixSinPi (c - 2 * o) (2 * c)
  else 54 * fixOne - 46 * fixSinPi (2 * o - c) (2 * c)

/-- The angle 2π·fce·o/fs is at or past a half turn: the sine of R106 is not positive. -/
def sineNegative (o fce fs : Nat) : Bool := decide (fs ≤ (2 * fce * o) % (2 * fs))

/-- The angle of R106 reduced modulo a half turn, in units of π/fs. -/
def sinePhase (o fce fs : Nat) : Nat := ((2 * fce * o) % (2 * fs)) % fs

/-- The magnitude of the sine of R106 in fixed point. -/
def fixSine (o fce fs : Nat) : Nat :=
  let b := sinePhase o fce fs
  if 2 * b ≤ fs then fixSinPi b fs else fixSinPi (fs - b) fs

/-- A lower bound of floor |r(k)| at distance `o` ≥ 1 from the centre (40_synthesis.md R106 to R108). -/
def coefLow (c o fce fs : Nat) : Nat :=
  32767 * (fixSine o fce fs - fixError) * (fixWindow c o - 46 * fixError) / (100 * fixOne * (fixPi + 1) * o)

/-- An upper bound of floor |r(k)| at distance `o` ≥ 1 from the centre. -/
def coefHigh (c o fce fs : Nat) : Nat :=
  32767 * (fixSine o fce fs + fixError) * (fixWindow c o + 46 * fixError) / (100 * fixOne * fixPi * o)

/-- The bound of every coefficient's magnitude, and the centre coefficient itself: trunc(65534·fce/fs)
(40_synthesis.md R109). -/
def coefBound (fce fs : Nat) : Nat := 65534 * fce / fs

/-- The enclosure decides the coefficient at distance `o` from the centre. -/
def coefDecided (c o fce fs : Nat) : Bool :=
  decide (o = 0 ∨ sinePhase o fce fs = 0 ∨ coefLow c o fce fs = coefHigh c o fce fs)

/-- |coefGen(n, fce, fs)[k]| at distance `o` = |k - c| from the centre (40_synthesis.md R106 to R109). A tap whose sine is
exactly 0 has the coefficient 0. Where the enclosure leaves two integers, the free value of Config.coefTie chooses, within
the bound of R109 (log 6). -/
def coefMagnitude (c o fce fs : Nat) : Nat :=
  if o = 0 then coefBound fce fs
  else if sinePhase o fce fs = 0 then 0
  else if coefLow c o fce fs = coefHigh c o fce fs then coefLow c o fce fs
  else if Config.coefTie c o fce fs then min (coefHigh c o fce fs) (coefBound fce fs)
  else min (coefLow c o fce fs) (coefBound fce fs)

/-- The distance of tap `k` from the centre tap of a window of `n`, |k - (n-1)/2| (40_synthesis.md R106). -/
def centreDistance (n k : Nat) : Nat := if k ≤ (n - 1) / 2 then (n - 1) / 2 - k else k - (n - 1) / 2

/-- `coefGen(n, fce, fs)[k]` (40_synthesis.md R108). -/
def coefGen (n fce fs k : Nat) : Int :=
  let o := centreDistance n k
  let mag : Int := coefMagnitude ((n - 1) / 2) o fce fs
  if o ≠ 0 ∧ sineNegative o fce fs then -mag else mag

/-- The coefficient as it is stored, an int16 (10_state.md R26; 40_synthesis.md R109: it fits). -/
def coefWord (n fce fs k : Nat) : SInt16 := wrap16 (coefGen n fce fs k)

/-- The parameters of the block that the host's interface runs, whose step takes no argument (log 2): the reference N_MAX
and the coefficient generator above (00_scope.md R6). -/
def referenceParams : Params := { nMax := Config.referenceNMax, coefGen := coefWord }

end Sys2Proof.Machine
end

