-- ==== Sys2Proof/Machine/Readback.lean ====
section
/-! DEFINITION. Status, readback and housekeeping: NOP, RDSTAT, RDCFG, RDCOEF, RDHIST, CLRSTAT (42_status_readback.md). -/

namespace Sys2Proof.Machine

/-- The effect of NOP (42_status_readback.md R171). -/
def nopEffect (s : State) : State := s.respond zeroResponse

/-- The effect of RDSTAT (42_status_readback.md R172): the response shows STATUS from before this command. -/
def rdstatEffect (s : State) : State := s.respond s.status

/-- Selectors 0 to 3 need a configured block (42_status_readback.md R173). -/
def Selector.needsConfig : Selector → Bool
  | .n     => true
  | .fc    => true
  | .fs    => true
  | .ptr   => true
  | .nreq  => false
  | .fcreq => false
  | .fsreq => false
  | .nmax  => false

/-- The value a selector reads (42_status_readback.md R173). -/
def configValue (P : Params) (sel : Selector) (s : State) : Nat :=
  match sel with
  | .n     => s.n
  | .fc    => uint24Value s.fc
  | .fs    => uint24Value s.fs
  | .ptr   => s.ptr
  | .nreq  => uint24Value s.nReq
  | .fcreq => uint24Value s.fcReq
  | .fsreq => uint24Value s.fsReq
  | .nmax  => P.nMax

/-- The effect of RDCFG on a block with the parameters `P` (42_status_readback.md R173). -/
def rdcfgEffect (P : Params) (sel : Selector) (s : State) : State :=
  if Selector.needsConfig sel && !s.cfg then s.raise .notConfigured
  else s.respond (unsignedResponse (configValue P sel s))

/-- The shared readback of one slot: NOT_CONFIGURED, then INDEX_RANGE, then the slot (42_status_readback.md R174, R175;
60_exceptions.md R203). -/
def readSlot (m : Memory) (i : Nat) (s : State) : State :=
  if s.cfg then
    if s.n ≤ i then s.raise .indexRange else s.respond (sampleResponse (m.read i))
  else s.raise .notConfigured

/-- The effect of RDCOEF (42_status_readback.md R174). -/
def rdcoefEffect (i : BitVec 16) (s : State) : State := readSlot s.coef (indexValue i) s

/-- The effect of RDHIST (42_status_readback.md R175). -/
def rdhistEffect (i : BitVec 16) (s : State) : State := readSlot s.hist (indexValue i) s

/-- The effect of CLRSTAT (42_status_readback.md R176). -/
def clrstatEffect (s : State) : State := s.clearErrors.respond zeroResponse

/-- NOP (42_status_readback.md R171). -/
def execNop (s : State) : Host.Outcome State Fault Refusal := .next (nopEffect s)

/-- RDSTAT (42_status_readback.md R172). -/
def execRdstat (s : State) : Host.Outcome State Fault Refusal := .next (rdstatEffect s)

/-- RDCFG (42_status_readback.md R173). -/
def execRdcfg (sel : Selector) (s : State) : Host.Outcome State Fault Refusal := .next (rdcfgEffect referenceParams sel s)

/-- RDCOEF (42_status_readback.md R174). -/
def execRdcoef (i : BitVec 16) (s : State) : Host.Outcome State Fault Refusal := .next (rdcoefEffect i s)

/-- RDHIST (42_status_readback.md R175). -/
def execRdhist (i : BitVec 16) (s : State) : Host.Outcome State Fault Refusal := .next (rdhistEffect i s)

/-- CLRSTAT (42_status_readback.md R176). -/
def execClrstat (s : State) : Host.Outcome State Fault Refusal := .next (clrstatEffect s)

end Sys2Proof.Machine
end

