-- ==== Sys2Proof/Machine/Synthesis.lean ====
section
/-! DEFINITION. The configuration family: SETN, SETFC, SETFS and SYNTH (40_synthesis.md R101 to R103, R111 to R115). -/

namespace Sys2Proof.Machine

/-- The effect of SETN (40_synthesis.md R101). -/
def setnEffect (u : UInt24) (s : State) : State := State.respond { s with nReq := u } zeroResponse

/-- The effect of SETFC (40_synthesis.md R102). -/
def setfcEffect (u : UInt24) (s : State) : State := State.respond { s with fcReq := u } zeroResponse

/-- The effect of SETFS (40_synthesis.md R103). -/
def setfsEffect (u : UInt24) (s : State) : State := State.respond { s with fsReq := u } zeroResponse

/-- The validation of the staged values, in the order of 40_synthesis.md R111; none when they are a legal configuration. -/
def validate (nMax nreq fc fs : Nat) : Option ErrorCode :=
  if nreq = 0 then some .cfgNZero
  else if fs = 0 then some .cfgFsZero
  else if fc = 0 then some .cfgFcZero
  else if normalizeWindow nreq = 1 then some .cfgNOne
  else if nMax < normalizeWindow nreq then some .cfgNMax
  else if clampCutoff fc fs ≤ 0 then some .cfgFsLow
  else none

/-- What a successful SYNTH writes (40_synthesis.md R112), for an effective window size and cutoff. -/
def construct (P : Params) (n fce fs : Nat) (s : State) : State :=
  let s := { s with
    coef := Memory.fill (P.coefGen n fce fs) n s.coef
    hist := Memory.fill (fun _ => 0#16) n s.hist
    n := n
    fc := BitVec.ofNat 24 fce
    fs := BitVec.ofNat 24 fs
    ptr := 0
    lastOut := 0#16 }
  ((s.setCfg true).setOutv false).setOvf false

/-- The effect of SYNTH on a block with the parameters `P` (40_synthesis.md R112, R113). -/
def synthEffect (P : Params) (s : State) : State :=
  let nreq := uint24Value s.nReq
  let fc := uint24Value s.fcReq
  let fs := uint24Value s.fsReq
  match validate P.nMax nreq fc fs with
  | some e => s.raise e
  | none   => (construct P (normalizeWindow nreq) (clampCutoff fc fs).toNat fs s).respond zeroResponse

/-- SETN (40_synthesis.md R101). -/
def execSetn (u : UInt24) (s : State) : Host.Outcome State Fault Refusal := .next (setnEffect u s)

/-- SETFC (40_synthesis.md R102). -/
def execSetfc (u : UInt24) (s : State) : Host.Outcome State Fault Refusal := .next (setfcEffect u s)

/-- SETFS (40_synthesis.md R103). -/
def execSetfs (u : UInt24) (s : State) : Host.Outcome State Fault Refusal := .next (setfsEffect u s)

/-- SYNTH (40_synthesis.md R112, R113). -/
def execSynth (s : State) : Host.Outcome State Fault Refusal := .next (synthEffect referenceParams s)

end Sys2Proof.Machine
end

