-- ==== Sys2Proof/Machine/Dispatch.lean ====
section
/-! DEFINITION. One arm per command (30_encoding.md R81). -/

namespace Sys2Proof.Machine

def exec (i : Instr) (s : State) : Host.Outcome State Fault Refusal :=
  match i with
  | .nop => Sys2Proof.Machine.execNop s
  | .setn u => Sys2Proof.Machine.execSetn u s
  | .setfc u => Sys2Proof.Machine.execSetfc u s
  | .setfs u => Sys2Proof.Machine.execSetfs u s
  | .synth => Sys2Proof.Machine.execSynth s
  | .push x => Sys2Proof.Machine.execPush x s
  | .last => Sys2Proof.Machine.execLast s
  | .rdstat => Sys2Proof.Machine.execRdstat s
  | .rdcfg sel => Sys2Proof.Machine.execRdcfg sel s
  | .rdcoef k => Sys2Proof.Machine.execRdcoef k s
  | .rdhist k => Sys2Proof.Machine.execRdhist k s
  | .clrstat => Sys2Proof.Machine.execClrstat s

end Sys2Proof.Machine
end

