-- ==== Sys2Proof/Machine/Accept.lean ====
section
/-! DEFINITION. One accepted command word: decode, then execute or raise (00_scope.md R13, 30_encoding.md R82). -/

namespace Sys2Proof.Machine

/-- One accepted command word (00_scope.md R13): an ill-formed word is answered by the error action
(30_encoding.md R82, 60_exceptions.md R204), every other by its instruction. -/
def acceptCommand (w : Word) (s : State) : Host.Outcome State Fault Refusal :=
  match decode w with
  | .ok i          => exec i s
  | .illegalOpcode => .next (s.raise .illegalOpcode)
  | .reservedBits  => .next (s.raise .reservedBits)

/-- The effect of one move of the host (70_reset_and_hazards.md R230, R232; 30_encoding.md R71). -/
def applyMove (m : HostMove) (s : State) : Host.Outcome State Fault Refusal :=
  match m with
  | .command w       => acceptCommand w s.countAccepted
  | .reset           => .next s.applyReset
  | .resetInFlight w => .next (s.countAccepted.abandon w)

/-- The word of `nbits` bits, the bits above 0, put first in the host's stream. -/
def State.offer (s : State) (nbits w : Nat) : State :=
  { s with inbox := .command (BitVec.ofNat 32 (w % 2 ^ nbits)) :: s.inbox }

end Sys2Proof.Machine
end

