-- ==== Sys2Proof/Machine/Step.lean ====
section
/-! DEFINITION. One step: the engine takes the host's next move (00_scope.md R12, R13). -/

namespace Sys2Proof.Machine

/-- One step. With no move offered the engine is idle and holds its state (60_exceptions.md R219). -/
def step (s : State) : Host.Outcome State Fault Refusal :=
  match s.nextMove with
  | none        => .next s
  | some (m, t) => applyMove m t

/-- The state whose very next step runs the command word `w` (log 1). -/
def State.withFetchWord (s : State) (nbits w : Nat) : State := s.offer nbits w

end Sys2Proof.Machine
end

