-- ==== Sys2Proof/Machine/Assembler.lean ====
section
/-! DEFINITION. The textual form of command sequences and its pseudo-instructions (30_encoding.md R85, R86). Lexical points
the spec leaves open are log 16. -/

namespace Sys2Proof.Machine

/-- The pseudo-instruction CONFIG (30_encoding.md R86). -/
def configCommands (n fc fs : UInt24) : List Instr := [.setn n, .setfc fc, .setfs fs, .synth]

/-- The pseudo-instruction FLUSH for an effective window size (30_encoding.md R86). -/
def flushCommands (n : Nat) : List Instr := List.replicate n (.push 0#16)

/-- The words of one line. `known` is the effective window size where it is known at assembly time; FLUSH has no words
without it (30_encoding.md R86), and a line with an operand out of range has none (R85). -/
def assemble (known : Option Nat) (l : Source) : Option (List Word) :=
  if l.wellFormed then
    match l with
    | .nop           => some [encode .nop]
    | .setn u        => some [encode (.setn (BitVec.ofNat 24 u))]
    | .setfc u       => some [encode (.setfc (BitVec.ofNat 24 u))]
    | .setfs u       => some [encode (.setfs (BitVec.ofNat 24 u))]
    | .synth         => some [encode .synth]
    | .pushDec x     => some [encode (.push (wrap16 x))]
    | .pushHex p     => some [encode (.push (BitVec.ofNat 16 p))]
    | .last          => some [encode .last]
    | .rdstat        => some [encode .rdstat]
    | .rdcfgNum k    => some [encode (.rdcfg (Selector.ofBits (BitVec.ofNat 3 k)))]
    | .rdcfgName sel => some [encode (.rdcfg sel)]
    | .rdcoef i      => some [encode (.rdcoef (BitVec.ofNat 16 i))]
    | .rdhist i      => some [encode (.rdhist (BitVec.ofNat 16 i))]
    | .clrstat       => some [encode .clrstat]
    | .word w        => some [BitVec.ofNat 32 w]
    | .config n fc fs =>
      some ((configCommands (BitVec.ofNat 24 n) (BitVec.ofNat 24 fc) (BitVec.ofNat 24 fs)).map encode)
    | .flush         => known.map (fun n => (flushCommands n).map encode)
  else none

/-- What the decoder reads from the words of a line. -/
def assembledCommands (known : Option Nat) (l : Source) : Option (List Decoded) := (assemble known l).map (List.map decode)

/-- What is known of the effective window size after a line. DESIGN CHOICE (log 16): 30_encoding.md R86 does not say when N is
known at assembly time; CONFIG makes it known (40_synthesis.md R105), and a SYNTH, or a raw word, makes it unknown. -/
def knownAfter (known : Option Nat) (l : Source) : Option Nat :=
  match l with
  | .config n _ _ => some (normalizeWindow n)
  | .synth        => none
  | .word _       => none
  | _             => known

/-- The words of a command sequence, line after line. -/
def assembleAll (known : Option Nat) : List Source → Option (List Word)
  | []      => some []
  | l :: ls =>
    match assemble known l, assembleAll (knownAfter known l) ls with
    | some ws, some rest => some (ws ++ rest)
    | _, _               => none

/-- The value of a decimal digit. -/
def decDigit (c : Char) : Option Nat := if '0' ≤ c ∧ c ≤ '9' then some (c.toNat - '0'.toNat) else none

/-- The value of a hexadecimal digit, of either case (DESIGN CHOICE, log 16). -/
def hexDigit (c : Char) : Option Nat :=
  if '0' ≤ c ∧ c ≤ '9' then some (c.toNat - '0'.toNat)
  else if 'a' ≤ c ∧ c ≤ 'f' then some (c.toNat - 'a'.toNat + 10)
  else if 'A' ≤ c ∧ c ≤ 'F' then some (c.toNat - 'A'.toNat + 10)
  else none

/-- Read digits of a base, most significant first, onto a value read so far. -/
def readDigits (digit : Char → Option Nat) (base : Nat) : List Char → Nat → Option Nat
  | [], v      => some v
  | c :: cs, v => (digit c).bind (fun d => readDigits digit base cs (v * base + d))

/-- A non-empty number of a base. -/
def readBase (digit : Char → Option Nat) (base : Nat) (cs : List Char) : Option Nat :=
  match cs with
  | []     => none
  | _ :: _ => readDigits digit base cs 0

/-- The digits after 0x. DESIGN CHOICE (log 16): 30_encoding.md R85 does not say whether `_` may group hex digits, and
95_test_vectors.md and 60_exceptions.md R204 spell `.word 0x1001_0005`; a `_` after the 0x is skipped. -/
def readHex (cs : List Char) : Option Nat := readBase hexDigit 16 (cs.filter (fun c => c != '_'))

/-- An unsigned number, decimal or 0x hex: both forms are R85's for the operands of SETN, SETFC and SETFS (30_encoding.md).
That the other unsigned operands take both forms too is the choice of readOne, readSelector and readThree (log 16). -/
def readUnsigned (cs : List Char) : Option Nat :=
  match cs with
  | '0' :: 'x' :: hs => readHex hs
  | _                => readBase decDigit 10 cs

/-- The operand of PUSH: a signed decimal integer or a 0x hex 16-bit pattern (30_encoding.md R85). -/
def readSample (cs : List Char) : Option Source :=
  match cs with
  | '0' :: 'x' :: hs => (readHex hs).map .pushHex
  | '-' :: ds        => (readBase decDigit 10 ds).map (fun v => .pushDec (-(v : Int)))
  | _                => (readBase decDigit 10 cs).map (fun v => .pushDec (v : Int))

/-- The selector names of RDCFG (30_encoding.md R85). -/
def readSelectorName (cs : List Char) : Option Selector :=
  if cs = ['N'] then some .n
  else if cs = ['F', 'C'] then some .fc
  else if cs = ['F', 'S'] then some .fs
  else if cs = ['P', 'T', 'R'] then some .ptr
  else if cs = ['N', 'R', 'E', 'Q'] then some .nreq
  else if cs = ['F', 'C', 'R', 'E', 'Q'] then some .fcreq
  else if cs = ['F', 'S', 'R', 'E', 'Q'] then some .fsreq
  else if cs = ['N', 'M', 'A', 'X'] then some .nmax
  else none

/-- The operand of RDCFG: a selector name or a number (30_encoding.md R85). DESIGN CHOICE (log 16): R85 does not say how the
selector number is written; decimal and 0x hex are read. -/
def readSelector (cs : List Char) : Option Source :=
  match readSelectorName cs with
  | some sel => some (.rdcfgName sel)
  | none     => (readUnsigned cs).map .rdcfgNum

/-- The operand of .word: hex (30_encoding.md R85), written with 0x, its digits with or without `_` between them, as readHex
reads them (DESIGN CHOICE, log 16). -/
def readRawWord (cs : List Char) : Option Source :=
  match cs with
  | '0' :: 'x' :: hs => (readHex hs).map .word
  | _                => none

/-- Characters that separate the tokens of a line: blanks and the commas between CONFIG's operands (30_encoding.md R86), which
are not told apart (DESIGN CHOICE, log 16). -/
def isSeparator (c : Char) : Bool := c = ' ' || c = '\t' || c = ','

/-- The tokens of a line up to its comment, which starts with `;` (30_encoding.md R85). `cur` is the token being read,
reversed. -/
def tokens : List Char → (cur : List Char) → List (List Char)
  | [], cur      => if cur = [] then [] else [cur.reverse]
  | c :: cs, cur =>
    if c = ';' then (if cur = [] then [] else [cur.reverse])
    else if isSeparator c then (if cur = [] then tokens cs [] else cur.reverse :: tokens cs [])
    else tokens cs (c :: cur)

/-- A mnemonic with no operand (30_encoding.md R85, R86). -/
def readBare (m : List Char) : Option Source :=
  if m = "NOP".toList then some .nop
  else if m = "SYNTH".toList then some .synth
  else if m = "LAST".toList then some .last
  else if m = "RDSTAT".toList then some .rdstat
  else if m = "CLRSTAT".toList then some .clrstat
  else if m = "FLUSH".toList then some .flush
  else none

/-- A mnemonic with one operand (30_encoding.md R85). DESIGN CHOICE (log 16): R85 does not say how the index of RDCOEF and
RDHIST is written; decimal and 0x hex are read, as R85 has it for SETN, SETFC and SETFS. -/
def readOne (m a : List Char) : Option Source :=
  if m = "SETN".toList then (readUnsigned a).map .setn
  else if m = "SETFC".toList then (readUnsigned a).map .setfc
  else if m = "SETFS".toList then (readUnsigned a).map .setfs
  else if m = "PUSH".toList then readSample a
  else if m = "RDCFG".toList then readSelector a
  else if m = "RDCOEF".toList then (readUnsigned a).map .rdcoef
  else if m = "RDHIST".toList then (readUnsigned a).map .rdhist
  else if m = ".word".toList then readRawWord a
  else none

/-- CONFIG with its three operands (30_encoding.md R86). DESIGN CHOICE (log 16): R86 does not say how they are written;
decimal and 0x hex are read, as in the SETN, SETFC and SETFS it stands for. -/
def readThree (m a b c : List Char) : Option Source :=
  if m = "CONFIG".toList then
    match readUnsigned a, readUnsigned b, readUnsigned c with
    | some n, some fc, some fs => some (.config n fc fs)
    | _, _, _                  => none
  else none

/-- One line of text: no command for a blank or comment line (DESIGN CHOICE, log 16), `none` for a line that is no command
(30_encoding.md R85). -/
def readLine (line : List Char) : Option (List Source) :=
  match tokens line [] with
  | []           => some []
  | [m]          => (readBare m).map (fun l => [l])
  | [m, a]       => (readOne m a).map (fun l => [l])
  | [m, a, b, c] => (readThree m a b c).map (fun l => [l])
  | _            => none

end Sys2Proof.Machine
end

