-- ==== Sys2Proof/Machine/Engine.lean ====
section
/-! DEFINITION. The engine of a block with any parameters: the step relation of 00_scope.md R13 with N_MAX and coefGen as its
arguments. exec and step (Dispatch.lean, Step.lean) are this engine with the parameters referenceParams, since the host's
interface has a step without arguments (log 2). -/

namespace Sys2Proof.Machine

/-- The effect of one command. It is a total function: no command stops the engine (00_scope.md R17). -/
def runCommand (P : Params) (i : Instr) (s : State) : State :=
  match i with
  | .nop      => nopEffect s
  | .setn u   => setnEffect u s
  | .setfc u  => setfcEffect u s
  | .setfs u  => setfsEffect u s
  | .synth    => synthEffect P s
  | .push x   => pushEffect x s
  | .last     => lastEffect s
  | .rdstat   => rdstatEffect s
  | .rdcfg c  => rdcfgEffect P c s
  | .rdcoef k => rdcoefEffect k s
  | .rdhist k => rdhistEffect k s
  | .clrstat  => clrstatEffect s

/-- One accepted command word: an ill-formed word is answered by the error action (30_encoding.md R82, 60_exceptions.md
R204), every other by its command. -/
def acceptWord (P : Params) (w : Word) (s : State) : State :=
  match decode w with
  | .ok i          => runCommand P i s
  | .illegalOpcode => s.raise .illegalOpcode
  | .reservedBits  => s.raise .reservedBits

/-- `Step(s, cmd) = (s', rsp)` of 00_scope.md R13: the next state and the response word. -/
def commandStep (P : Params) (s : State) (cmd : Word) : State × Word :=
  (acceptWord P cmd s, (acceptWord P cmd s).responses.getLastD zeroResponse)

/-- The effect of one move of the host (70_reset_and_hazards.md R230, R232; 30_encoding.md R71). -/
def takeMove (P : Params) (m : HostMove) (s : State) : State :=
  match m with
  | .command w       => acceptWord P w s.countAccepted
  | .reset           => s.applyReset
  | .resetInFlight w => s.countAccepted.abandon w

/-- One step: the engine takes the host's next move; with none offered it is idle and holds its state
(60_exceptions.md R219). -/
def engineStep (P : Params) (s : State) : State :=
  match s.nextMove with
  | none        => s
  | some (m, t) => takeMove P m t

/-- `k` steps. -/
def engineRun (P : Params) : Nat → State → State
  | 0, s     => s
  | k + 1, s => engineRun P k (engineStep P s)

end Sys2Proof.Machine
end

