-- ==== Sys2Proof/Machine/Instances.lean ====
section
/-! DEFINITION. Several instances of the block (10_state.md R43, 60_exceptions.md R217): each has its own state, and a step
of one leaves every other as it is. -/

namespace Sys2Proof.Machine

/-- One step of instance `k` among several, each with its own parameters; an instance that does not exist takes no step. -/
def stepInstance : List (Params × State) → Nat → List (Params × State)
  | [], _               => []
  | (P, s) :: ss, 0     => (P, engineStep P s) :: ss
  | first :: ss, k + 1  => first :: stepInstance ss k

end Sys2Proof.Machine
end

