-- ==== Sys2Proof/Machine/Port.lean ====
section
/-! DEFINITION. The clocked port around the step: handshake, single outstanding command, reset gating and latencies
(30_encoding.md R70 to R75; 70_reset_and_hazards.md R230 to R233, R240, R242, R243). The step itself models no time (R244);
this layer says which pin levels go with it. Its latencies are an argument (log 10), its edge conventions are log 11. A host
that breaks a duty of R241 has no edge here (00_scope.md R16, 93_implementation_defined.md K11, log 12). -/

namespace Sys2Proof.Machine

/-- The port's own registers (10_state.md R41 (c), (d)). -/
inductive PortPhase where
  /-- Reset was taken at the last edge; cmd_ready is still 0 (70_reset_and_hazards.md R233). -/
  | inReset
  /-- No command is outstanding. -/
  | idle
  /-- The in-flight command, with `left` more edges before the one at which it completes. -/
  | busy (w : Word) (left : Nat)
  /-- The one-word response buffer holds a response that the host has not taken. -/
  | responding (rsp : Word)
  deriving DecidableEq, Repr

/-- The engine with its port. -/
structure Port where
  engine : State
  phase  : PortPhase
  /-- The word the host has offered and the engine has not accepted yet; the host's side of R241, duty 1. -/
  offer  : Option Word
  deriving DecidableEq, Repr

/-- The input pins sampled at a rising edge of clk (30_encoding.md R70). `rstN` is the level of rst_n. -/
structure PinsIn where
  rstN     : Bool
  cmdValid : Bool
  cmdData  : Word
  rspReady : Bool
  deriving DecidableEq, Repr

/-- The output pins in a cycle (30_encoding.md R70). rsp_data is meaningless, here none, while rsp_valid = 0
(70_reset_and_hazards.md R240). -/
structure PinsOut where
  cmdReady : Bool
  rspValid : Bool
  rspData  : Option Word
  err      : Bool
  deriving DecidableEq, Repr

/-- The output levels (30_encoding.md R72, R75; while rst_n = 0: 70_reset_and_hazards.md R230). -/
def Port.outputs (rstN : Bool) (p : Port) : PinsOut :=
  if rstN then
    match p.phase with
    | .inReset        => { cmdReady := false, rspValid := false, rspData := none, err := p.engine.errPin }
    | .idle           => { cmdReady := true, rspValid := false, rspData := none, err := p.engine.errPin }
    | .busy _ _       => { cmdReady := false, rspValid := false, rspData := none, err := p.engine.errPin }
    | .responding rsp => { cmdReady := false, rspValid := true, rspData := some rsp, err := p.engine.errPin }
  else { cmdReady := false, rspValid := false, rspData := none, err := false }

/-- The latency of a command word in a state (70_reset_and_hazards.md R243): LAT_PUSH of the effective window size,
LAT_SYNTH of the window size asked for, LAT_OTHER otherwise. DESIGN CHOICE (log 10): R243 gives no latency of its own to a
command that fails; a PUSH or SYNTH that raises an error takes its own latency, and an ill-formed word, also one whose opcode
is that of PUSH or SYNTH, takes LAT_OTHER. -/
def commandLatency (T : Timing) (s : State) (w : Word) : Nat :=
  match decode w with
  | .ok (.push _) => T.push s.n
  | .ok .synth    => T.synth (normalizeWindow (uint24Value s.nReq))
  | _             => T.other

/-- A command is outstanding: accepted, and its response not taken (30_encoding.md R75). -/
def Port.outstanding (p : Port) : Bool :=
  match p.phase with
  | .inReset      => false
  | .idle         => false
  | .busy _ _     => true
  | .responding _ => true

/-- The transfer rule: the command offered at this edge is accepted (30_encoding.md R71). -/
def Port.accepts (p : Port) (i : PinsIn) : Bool := i.rstN && i.cmdValid && decide (p.phase = .idle)

/-- A word spells a PUSH. -/
def isPush (w : Word) : Bool :=
  match decode w with
  | .ok (.push _) => true
  | _             => false

/-- The host keeps its duties at this edge (70_reset_and_hazards.md R241): a word offered and not yet accepted stays on
cmd_data with cmd_valid = 1 (duty 1), and no PUSH is begun before the previous response is taken (duty 5). Duty 2 and duty 6
show on no pin, duty 3 is about an unbounded wait, and duty 4 is about levels between edges, which PinsIn does not have
(log 12). -/
def Port.dutiesKept (p : Port) (i : PinsIn) : Bool :=
  match p.offer with
  | some w => i.cmdValid && decide (i.cmdData = w)
  | none   => !(i.rstN && i.cmdValid && isPush i.cmdData && p.outstanding)

/-- The word that stays offered after this edge. -/
def Port.offerAfter (p : Port) (i : PinsIn) : Option Word :=
  if i.cmdValid && !p.accepts i then some i.cmdData else none

/-- The in-flight command takes its whole effect and its response becomes valid (30_encoding.md R74). The host has not
received the response yet. -/
def Port.complete (P : Params) (w : Word) (p : Port) : Port :=
  let (t, rsp) := commandStep P p.engine w
  { p with engine := { t with responses := p.engine.responses }, phase := .responding rsp }

/-- A command is accepted (30_encoding.md R71): with latency 1 its response is valid at the next edge. -/
def Port.accept (T : Timing) (P : Params) (w : Word) (p : Port) : Port :=
  let p := { p with engine := p.engine.countAccepted }
  match commandLatency T p.engine w with
  | 0     => p.complete P w
  | 1     => p.complete P w
  | k + 2 => { p with phase := .busy w k }

/-- What a rising edge of clk does to the engine and the phase. -/
def Port.clock (T : Timing) (P : Params) (p : Port) (i : PinsIn) : Port :=
  if i.rstN then
    match p.phase with
    | .inReset          => { p with phase := .idle }
    | .idle             => if i.cmdValid then p.accept T P i.cmdData else p
    | .busy w 0         => p.complete P w
    | .busy w (k + 1)   => { p with phase := .busy w k }
    | .responding rsp   => if i.rspReady then { p with engine := p.engine.respond rsp, phase := .idle } else p
  else { p with engine := p.engine.applyReset, phase := .inReset }

/-- One rising edge of clk under a host that keeps its duties; there is none under a host that breaks one
(00_scope.md R16). -/
def Port.edge (T : Timing) (P : Params) (p : Port) (i : PinsIn) : Option Port :=
  if p.dutiesKept i then some { p.clock T P i with offer := p.offerAfter i } else none

/-- Successive edges; none when the host breaks a duty at one of them. -/
def Port.run (T : Timing) (P : Params) : Port → List PinsIn → Option Port
  | p, []      => some p
  | p, i :: is => (p.edge T P i).bind (fun q => Port.run T P q is)

/-- The port right after a reset edge, nothing offered. -/
def Port.reset : Port := { engine := State.reset, phase := .inReset, offer := none }

end Sys2Proof.Machine
end

