-- ==== Sys2Proof/Safety.lean ====
section
/-! DEFINITION. The terms claims use: the exact real coefficients of 40_synthesis.md R106 to R108, the machine's invariant
(10_state.md R25 to R40), what a host can observe (10_state.md R42), and what a configured block's history means
(41_convolution.md R150). -/

namespace Sys2Proof

/-- `trunc(r)`: the integer part of `r`, rounded toward zero (00_scope.md R9). -/
def IsTruncation (r : ℝ) (c : Int) : Prop :=
  (0 ≤ r → (c : ℝ) ≤ r ∧ r < (c : ℝ) + 1) ∧ (r < 0 → (c : ℝ) - 1 < r ∧ r ≤ (c : ℝ))

/-- `h` is the ideal low-pass weight of tap `k` (40_synthesis.md R106). -/
def IsIdealWeight (n fce fs k : Nat) (h : ℝ) : Prop :=
  ∀ f o : ℝ, f = (fce : ℝ) / fs → o = (k : ℝ) - ((n : ℝ) - 1) / 2 →
    (o = 0 → h = 2 * f) ∧ (o ≠ 0 → h = Real.sin (2 * Real.pi * f * o) / (Real.pi * o))

/-- `w` is the Hamming window at tap `k` (40_synthesis.md R107). -/
def IsHammingWeight (n k : Nat) (w : ℝ) : Prop :=
  w = 0.54 - 0.46 * Real.cos (2 * Real.pi * k / ((n : ℝ) - 1))

/-- `c` is trunc(32767·h(k)·w(k)), the coefficient of tap `k` (40_synthesis.md R108). -/
def IsExactCoef (n fce fs k : Nat) (c : Int) : Prop :=
  ∃ h w : ℝ, IsIdealWeight n fce fs k h ∧ IsHammingWeight n k w ∧ IsTruncation (32767 * h * w) c

/-- An effective configuration a successful SYNTH can leave (10_state.md R25), for a given N_MAX. -/
structure LegalConfig (nMax n fce fs : Nat) : Prop where
  odd      : n % 2 = 1
  atLeast3 : 3 ≤ n
  fits     : n ≤ nMax
  fsLow    : 4 ≤ fs
  fceLow   : 1 ≤ fce
  fceHigh  : fce ≤ fs / 2 - 1

/-- The property CoefExact of the parameter coefGen (00_scope.md R6, 40_synthesis.md R108). R108 reads 'truncate' as rounding
toward zero from general knowledge (PRESUMED, log 7). -/
def CoefExact (P : Params) : Prop :=
  ∀ n fce fs k, LegalConfig P.nMax n fce fs → k < n → IsExactCoef n fce fs k (P.coefGen n fce fs k).toInt

/-- The legal values of the parameters (00_scope.md R6). Claims that need an exact generator assume CoefExact through this,
by name (93_implementation_defined.md K1). -/
structure Params.Legal (P : Params) : Prop where
  nMax      : Config.LegalNMax P.nMax
  coefExact : CoefExact P

namespace Machine

/-- What holds of the effective configuration, COEF and PTR while STATUS.CFG = 1 (10_state.md R25, R26, R28). -/
structure Configured (P : Params) (s : State) : Prop where
  legal : LegalConfig P.nMax s.n (uint24Value s.fc) (uint24Value s.fs)
  ptr   : s.ptr < s.n
  coef  : ∀ k, k < s.n → s.coef.read k = P.coefGen s.n (uint24Value s.fc) (uint24Value s.fs) k

/-- The invariant of a block with the parameters `P`: N_MAX is legal (00_scope.md R6), the storage spaces keep their canonical form within N_MAX
slots (20_memory.md R50), STATUS reads as 10_state.md R33, R34, R39 and R40 say, and a configured block meets R25, R26
and R28. -/
structure EngineInv (P : Params) (s : State) : Prop where
  nMax       : Config.LegalNMax P.nMax
  coefWf     : s.coef.wf = true
  histWf     : s.hist.wf = true
  coefSlots  : ∀ c ∈ s.coef, c.1 < P.nMax
  histSlots  : ∀ c ∈ s.hist, c.1 < P.nMax
  reserved   : s.reservedStatus = 0#32
  errIff     : s.errCode = 0#4 ↔ s.err = false
  errCodes   : s.errCode ≤ 11#4
  outvCfg    : s.outv = true → s.cfg = true
  ovfOutv    : s.ovf = true → s.outv = true
  configured : s.cfg = true → Configured P s

/-- A run ends cleanly: STATUS.ERR = 0 (60_exceptions.md R200). -/
def RunsCleanly (s : State) : Prop := s.err = false

/-- Two states no host can tell apart: they agree on everything a command can observe, and may differ in what
10_state.md R42, R26, R27 and R30 leave unspecified. -/
structure SameToHost (s t : State) : Prop where
  nReq      : s.nReq = t.nReq
  fcReq     : s.fcReq = t.fcReq
  fsReq     : s.fsReq = t.fsReq
  status    : s.status = t.status
  inbox     : s.inbox = t.inbox
  responses : s.responses = t.responses
  n         : s.cfg = true → s.n = t.n
  fc        : s.cfg = true → s.fc = t.fc
  fs        : s.cfg = true → s.fs = t.fs
  ptr       : s.cfg = true → s.ptr = t.ptr
  coef      : s.cfg = true → ∀ k, k < s.n → s.coef.read k = t.coef.read k
  hist      : s.cfg = true → ∀ k, k < s.n → s.hist.read k = t.hist.read k
  lastOut   : s.outv = true → s.lastOut = t.lastOut

/-- The history holds the samples `xs`, newest first, and zeros before them: slot (PTR + 1 + j) mod N holds the sample of
age j (41_convolution.md R150, 42_status_readback.md R175). -/
def HoldsSamples (s : State) (xs : List SInt16) : Prop :=
  ∀ j, j < s.n → s.hist.read ((s.ptr + 1 + j) % s.n) = xs.getD j 0#16

/-- The exact FIR sum of samples, newest first: Σ COEF[i]·x_{t-i} (41_convolution.md R150). -/
def firSum (s : State) (xs : List SInt16) : Int :=
  ((List.range s.n).map (fun i => int16Value (s.coef.read i) * int16Value (xs.getD i 0#16))).sum

/-- The exact sum S of a PUSH of `x`, from the state before it: the sample itself is the first multiplicand, since it is
written first (41_convolution.md R142, R146). -/
def pushSum (x : SInt16) (s : State) : Int :=
  ((List.range s.n).map (fun i => int16Value (s.coef.read i) *
    int16Value (if i = 0 then x else s.hist.read ((s.ptr + i) % s.n)))).sum

/-- The exact sum S of a PUSH, over the history after its write, from slot `p` on (41_convolution.md R146). -/
def slotSum (coef hist : Memory) (n p : Nat) : Int :=
  ((List.range n).map (fun i => int16Value (coef.read i) * int16Value (hist.read ((p + i) % n)))).sum

/-- The output for an exact sum: wrap16(floor(S / 2^15)) (41_convolution.md R146). -/
def firOutput (sum : Int) : SInt16 := wrap16 (sum / 2 ^ 15)

end Machine
end Sys2Proof
end

