-- ==== Sys2Proof/Certificates/Slice0/Obligations.lean ====
section
/-! DEFINITION. The statements of this model for the provers. Each docstring names the rule of spec/ it formalises. Where a
command's effect depends on the parameters N_MAX and coefGen (00_scope.md R6), or a statement takes the invariant, the
statement is about runCommand, commandStep, engineStep or engineRun for every value of the parameters; exec, step and the
host's run are these with referenceParams (MachineIsTheReferenceBlock). -/

open Sys2Proof Sys2Proof.Machine

/-! ### Encoding (30_encoding.md) -/

/-- Decoding the word of any instruction gives that instruction back, every operand at every value (R76 to R78, R81). -/
def Obligations.DecodeInvertsEncode : Prop := ∀ i : Instr, decode (encode i) = .ok i

/-- A word that decodes is the word its instruction encodes to: no bit of it is ignored (R83). -/
def Obligations.EncodeInvertsDecode : Prop := ∀ (w : Word) (i : Instr), decode w = .ok i → encode i = w

/-- The decoder agrees with the match and mask columns of the opcode map, and no two rows match one word (R81). -/
def Obligations.DecodeMatchesOpcodeMap : Prop :=
  (∀ (w : Word) (o : Op), o.Spells w ↔ ∃ i, decode w = .ok i ∧ i.op = o) ∧
  (∀ (w : Word) (o o' : Op), o.Spells w → o'.Spells w → o = o')

/-- R82: the unassigned opcodes are exactly the three ranges and raise ILLEGAL_OPCODE whatever the operand; an assigned
opcode with a reserved bit set raises RESERVED_BITS; every other word runs an instruction of its opcode. -/
def Obligations.DecodeOrderOfEveryWord : Prop :=
  (∀ b : BitVec 8, (∀ o : Op, o.opcode ≠ b) ↔
    ((0x05#8 ≤ b ∧ b ≤ 0x0F#8) ∨ (0x12#8 ≤ b ∧ b ≤ 0x1F#8) ∨ (0x25#8 ≤ b ∧ b ≤ 0xFF#8))) ∧
  (∀ (w : Word) (s : State), (∀ o : Op, o.opcode ≠ opcodeField w) → acceptCommand w s = .next (s.raise .illegalOpcode)) ∧
  (∀ (w : Word) (s : State) (o : Op), o.opcode = opcodeField w → o.form.reservedClear w = false →
    acceptCommand w s = .next (s.raise .reservedBits)) ∧
  (∀ (w : Word) (s : State) (o : Op), o.opcode = opcodeField w → o.form.reservedClear w = true →
    ∃ i, i.op = o ∧ acceptCommand w s = exec i s)

/-- Sample words of 95_test_vectors.md V-D1 decode to what they stand for. -/
def Obligations.SampleWordsDecode : Prop :=
  decode 0x00000000#32 = .ok .nop ∧ decode 0x00000001#32 = .reservedBits ∧
  decode 0x01FFFFFF#32 = .ok (.setn 16777215#24) ∧ decode 0x020003E8#32 = .ok (.setfc 1000#24) ∧
  decode 0x03001F40#32 = .ok (.setfs 8000#24) ∧ decode 0x04000000#32 = .ok .synth ∧
  decode 0x04800000#32 = .reservedBits ∧ decode 0x10008000#32 = .ok (.push (wrap16 (-32768))) ∧
  decode 0x10FF0000#32 = .reservedBits ∧ decode 0x11000000#32 = .ok .last ∧ decode 0x12000000#32 = .illegalOpcode ∧
  decode 0x20000000#32 = .ok .rdstat ∧ decode 0x21000007#32 = .ok (.rdcfg .nmax) ∧
  decode 0x21000008#32 = .reservedBits ∧ decode 0x2200FFFF#32 = .ok (.rdcoef 65535#16) ∧
  decode 0x23000000#32 = .ok (.rdhist 0#16) ∧ decode 0x24000000#32 = .ok .clrstat ∧
  decode 0xFFFFFFFF#32 = .illegalOpcode

/-! ### The step (00_scope.md R13, R17; 30_encoding.md R74) -/

/-- A step runs the decoded command: the engine takes the word from the host's stream, counts it as accepted (10_state.md
R21), and is `exec` of its instruction. -/
def Obligations.StepRunsDecodedCommand : Prop :=
  ∀ (s : State) (w : Word) (rest : List HostMove) (i : Instr), s.inbox = .command w :: rest → decode w = .ok i →
    step s = exec i { s with inbox := rest, accepted := s.accepted + 1 }

/-- A step on an ill-formed word takes the error action of its check, code 1 or 2 (R13, R82, R202): ERR and ERRCODE are
written, the response is 0x80000000, and everything else stands. -/
def Obligations.StepAnswersIllFormedWord : Prop :=
  ∀ (s : State) (w : Word) (rest : List HostMove), s.inbox = .command w :: rest → (∀ i, decode w ≠ .ok i) →
    ∃ t, step s = .next t ∧ t.err = true ∧
      ((∀ o : Op, o.opcode ≠ opcodeField w) → t.errCode = 1#4) ∧
      ((∃ o : Op, o.opcode = opcodeField w) → t.errCode = 2#4) ∧
      t.cfg = s.cfg ∧ t.outv = s.outv ∧ t.ovf = s.ovf ∧ t.reservedStatus = s.reservedStatus ∧
      t = { s with inbox := rest, accepted := s.accepted + 1, status := t.status,
                   responses := s.responses ++ [0x80000000#32] }

/-- With no move of the host the engine is idle and holds its state (60_exceptions.md R219). -/
def Obligations.IdleStepHoldsState : Prop := ∀ s : State, s.inbox = [] → step s = .next s

/-- The engine never hangs and never faults: every step of every state answers a next state (R17). -/
def Obligations.EveryStepAnswersNext : Prop := ∀ s : State, ∃ t, step s = .next t

/-- The step and the run of the host's interface are those of the engine with the parameters referenceParams, and accepting a
word is its Step(s, cmd) (00_scope.md R6, R13; which parameters these are is log 2). -/
def Obligations.MachineIsTheReferenceBlock : Prop :=
  ∀ s : State,
    step s = .next (engineStep referenceParams s) ∧
    (∀ k, Sys2Proof.core.run k s = .next (engineRun referenceParams k s)) ∧
    (∀ w, acceptCommand w s = .next (commandStep referenceParams s w).1)

/-- Step(s, cmd) = (s', rsp): every command word gives exactly one next state and exactly one response word, which the host
receives after those before it, and takes nothing from the host's stream (00_scope.md R13, 30_encoding.md R74). -/
def Obligations.EveryCommandGivesOneResponse : Prop :=
  ∀ (P : Params) (w : Word) (s : State),
    (commandStep P s w).1.responses = s.responses ++ [(commandStep P s w).2] ∧
    (commandStep P s w).1.inbox = s.inbox ∧ (commandStep P s w).1.position = s.position

/-- R21, R232: each move of the host is taken in order, and the position in the accepted sequence counts the commands
accepted, those a reset abandons among them; nothing a command does changes which word comes next. -/
def Obligations.PositionCountsAcceptedCommands : Prop :=
  ∀ (P : Params) (s : State) (m : HostMove) (rest : List HostMove), s.inbox = m :: rest →
    (engineStep P s).inbox = rest ∧
    (m = .reset → (engineStep P s).position = s.position) ∧
    (∀ w, m = .command w ∨ m = .resetInFlight w → (engineStep P s).position = s.position + 1)

/-! ### Errors (60_exceptions.md) -/

/-- R202, R201: the error action sets ERR and ERRCODE, responds ERR_RSP and writes no other state; a command word answered with
ERR_RSP, whatever it checks, leaves the state before it but for ERR and ERRCODE; and the numbers of the error codes. A state
in which STATUS itself reads 0x80000000 is ruled out by the invariant. -/
def Obligations.ErrorActionWritesOnlyTheRecord : Prop :=
  (∀ (s : State) (e : ErrorCode),
    (s.raise e).err = true ∧ (s.raise e).errCode = e.bits ∧
    (s.raise e).cfg = s.cfg ∧ (s.raise e).outv = s.outv ∧ (s.raise e).ovf = s.ovf ∧
    (s.raise e).reservedStatus = s.reservedStatus ∧
    s.raise e = { s with status := (s.raise e).status, responses := s.responses ++ [0x80000000#32] }) ∧
  (∀ (P : Params) (w : Word) (s t : State), EngineInv P s → commandStep P s w = (t, 0x80000000#32) →
    t.err = true ∧ (∃ e : ErrorCode, t.errCode = e.bits) ∧
    t.cfg = s.cfg ∧ t.outv = s.outv ∧ t.ovf = s.ovf ∧ t.reservedStatus = s.reservedStatus ∧
    t = { s with status := t.status, responses := s.responses ++ [0x80000000#32] }) ∧
  ErrorCode.illegalOpcode.bits = 1#4 ∧ ErrorCode.reservedBits.bits = 2#4 ∧ ErrorCode.notConfigured.bits = 3#4 ∧
  ErrorCode.noOutput.bits = 4#4 ∧ ErrorCode.indexRange.bits = 5#4 ∧ ErrorCode.cfgNZero.bits = 6#4 ∧
  ErrorCode.cfgFsZero.bits = 7#4 ∧ ErrorCode.cfgFcZero.bits = 8#4 ∧ ErrorCode.cfgNOne.bits = 9#4 ∧
  ErrorCode.cfgNMax.bits = 10#4 ∧ ErrorCode.cfgFsLow.bits = 11#4

/-- R80: a host tells an error from any success by the response word alone: the response is 0x80000000 exactly when the
command took the error action. -/
def Obligations.ErrorResponseMarksErrorsOnly : Prop :=
  ∀ (P : Params) (w : Word) (s : State), EngineInv P s →
    ((commandStep P s w).2 = 0x80000000#32 ↔ ∃ e, (commandStep P s w).1 = s.raise e)

/-- R209: commands after an error execute normally whether or not the record is cleared: with any error recorded, a command
other than RDSTAT gives the same response and the same state but for the record. -/
def Obligations.RecordedErrorBlocksNothing : Prop :=
  ∀ (P : Params) (i : Instr) (s t u : State) (e : ErrorCode), i ≠ .rdstat → t = runCommand P i s →
    u = runCommand P i ((s.setErr true).setErrCode e.bits) →
    u.responses = t.responses ∧ u.cfg = t.cfg ∧ u.outv = t.outv ∧ u.ovf = t.ovf ∧ u = { t with status := u.status }

/-- R35, R39: ERR is sticky: no command but CLRSTAT clears it, a later error overwrites ERRCODE, and a command that raises
no error leaves ERR and ERRCODE as they are. -/
def Obligations.ErrorRecordIsSticky : Prop :=
  ∀ (P : Params) (i : Instr) (s t : State), i ≠ .clrstat → t = runCommand P i s →
    (t.err = s.err ∧ t.errCode = s.errCode) ∨ (∃ e, t = s.raise e ∧ t.err = true ∧ t.errCode = e.bits)

/-- R33, R34, R36: who sets and clears CFG, OUTV and OVF: CFG is set by a successful SYNTH and cleared by no command; OUTV
is set by a PUSH and cleared by SYNTH alone; OVF is set by a PUSH and cleared by SYNTH or CLRSTAT alone. -/
def Obligations.FlagsChangeOnlyAsListed : Prop :=
  ∀ (P : Params) (i : Instr) (s t : State), t = runCommand P i s →
    (s.cfg = true → t.cfg = true) ∧ (s.cfg = false → t.cfg = true → i = .synth) ∧
    (s.outv = false → t.outv = true → ∃ x, i = .push x) ∧ (s.outv = true → t.outv = false → i = .synth) ∧
    (s.ovf = false → t.ovf = true → ∃ x, i = .push x) ∧ (s.ovf = true → t.ovf = false → i = .synth ∨ i = .clrstat)

/-! ### Configuration (40_synthesis.md) -/

/-- R101, R102, R103: SETN, SETFC and SETFS accept every 24-bit value, change only their staging register, and respond 0. -/
def Obligations.StagingWritesOneRegister : Prop :=
  ∀ (u : UInt24) (s : State),
    decode (0x01#8 ++ u) = .ok (.setn u) ∧ decode (0x02#8 ++ u) = .ok (.setfc u) ∧ decode (0x03#8 ++ u) = .ok (.setfs u) ∧
    exec (.setn u) s = .next { s with nReq := u, responses := s.responses ++ [0x00000000#32] } ∧
    exec (.setfc u) s = .next { s with fcReq := u, responses := s.responses ++ [0x00000000#32] } ∧
    exec (.setfs u) s = .next { s with fsReq := u, responses := s.responses ++ [0x00000000#32] }

/-- R111 and R113: SYNTH checks the staged values in the order of the table, the first failing check decides the code, and
the command then takes the error action, which keeps the previous filter. -/
def Obligations.SynthValidatesInOrder : Prop :=
  ∀ (P : Params) (s : State),
    let nreq := s.nReq.toNat
    let fc := s.fcReq.toNat
    let fs := s.fsReq.toNat
    let n := if nreq % 2 = 0 then nreq + 1 else nreq
    (nreq = 0 → runCommand P .synth s = s.raise .cfgNZero) ∧
    (nreq ≠ 0 → fs = 0 → runCommand P .synth s = s.raise .cfgFsZero) ∧
    (nreq ≠ 0 → fs ≠ 0 → fc = 0 → runCommand P .synth s = s.raise .cfgFcZero) ∧
    (nreq ≠ 0 → fs ≠ 0 → fc ≠ 0 → n = 1 → runCommand P .synth s = s.raise .cfgNOne) ∧
    (nreq ≠ 0 → fs ≠ 0 → fc ≠ 0 → n ≠ 1 → P.nMax < n → runCommand P .synth s = s.raise .cfgNMax) ∧
    (nreq ≠ 0 → fs ≠ 0 → fc ≠ 0 → n ≠ 1 → n ≤ P.nMax → fs ≤ 3 → runCommand P .synth s = s.raise .cfgFsLow)

/-- R104, R105, R112: on a legal staged configuration SYNTH leaves the odd-forced window size, the clamped cutoff, the
generator's coefficients, a zero history, PTR and LAST_OUT 0, CFG set, OUTV and OVF clear, ERR and ERRCODE as they were,
the staging registers as they were, and responds 0. Slots from N on are not written. Any other word of opcode 0x04 raises
RESERVED_BITS. exec is this with referenceParams (log 2), whose coefficients are free where log 6 says. -/
def Obligations.SynthConstructsTheFilter : Prop :=
  (∀ (P : Params) (s t : State), s.coef.wf = true → s.hist.wf = true →
    let nreq := s.nReq.toNat
    let fc := s.fcReq.toNat
    let fs := s.fsReq.toNat
    let n := if nreq % 2 = 0 then nreq + 1 else nreq
    let fce := if fs / 2 - 1 < fc then fs / 2 - 1 else fc
    2 ≤ nreq → n ≤ P.nMax → 4 ≤ fs → 1 ≤ fc → t = runCommand P .synth s →
      (P = referenceParams → exec .synth s = .next t) ∧
      t.n = n ∧ t.fc.toNat = fce ∧ t.fs = s.fsReq ∧ t.ptr = 0 ∧ t.lastOut = 0#16 ∧
      (∀ k, t.coef.read k = if k < n then P.coefGen n fce fs k else s.coef.read k) ∧
      (∀ k, t.hist.read k = if k < n then 0#16 else s.hist.read k) ∧
      t.cfg = true ∧ t.outv = false ∧ t.ovf = false ∧ t.err = s.err ∧ t.errCode = s.errCode ∧
      t.reservedStatus = s.reservedStatus ∧
      t = { s with
        n := t.n, fc := t.fc, fs := t.fs, coef := t.coef, hist := t.hist, ptr := t.ptr, lastOut := t.lastOut
        status := t.status, responses := s.responses ++ [0x00000000#32] }) ∧
  (∀ (w : Word) (s : State), opcodeField w = 0x04#8 →
    acceptCommand w s = if w = 0x04000000#32 then exec .synth s else .next (s.raise .reservedBits))

/-- R113: a SYNTH that raises an error changes no state but ERR and ERRCODE, and PUSH continues to filter with what was in
force: it gives the same response, history, pointer and last output as without the failed SYNTH. -/
def Obligations.FailedSynthKeepsTheFilter : Prop :=
  ∀ (P : Params) (s t : State), t = runCommand P .synth s → t.responses = s.responses ++ [0x80000000#32] →
    t = { s with status := t.status, responses := t.responses } ∧
    t.cfg = s.cfg ∧ t.outv = s.outv ∧ t.ovf = s.ovf ∧ t.reservedStatus = s.reservedStatus ∧ t.err = true ∧
    (∀ x, ∃ u v r, exec (.push x) s = .next u ∧ exec (.push x) t = .next v ∧
      u.responses = s.responses ++ [r] ∧ v.responses = t.responses ++ [r] ∧
      v.hist = u.hist ∧ v.ptr = u.ptr ∧ v.lastOut = u.lastOut)

/-- R106 to R108: after a successful SYNTH of a block whose parameters are legal, every coefficient slot holds
trunc(32767·h(k)·w(k)) of the exact real response; CoefExact is assumed by name, in Params.Legal (93_implementation_defined.md
K1). The block of the host's interface needs no such assumption wherever its generator's enclosure decides; where it does not,
the value is free (DESIGN CHOICE, log 6) and nothing is claimed. That truncation is toward zero is PRESUMED, log 7. -/
def Obligations.SynthesizedCoefficientsAreExact : Prop :=
  ∀ (P : Params) (s t : State), s.coef.wf = true → t = runCommand P .synth s →
    t.responses = s.responses ++ [0x00000000#32] → ∀ k, k < t.n →
    (P.Legal → IsExactCoef t.n t.fc.toNat t.fs.toNat k (t.coef.read k).toInt) ∧
    (P = referenceParams → coefDecided ((t.n - 1) / 2) (centreDistance t.n k) t.fc.toNat t.fs.toNat = true →
      IsExactCoef t.n t.fc.toNat t.fs.toNat k (t.coef.read k).toInt)

/-- R109: while a block is configured, every stored coefficient is at most trunc(65534·FC/FS) in magnitude, hence at most
32766, and the centre coefficient is trunc(65534·FC/FS): for legal parameters, CoefExact assumed by name, and for the
parameters of the host's interface without it, whatever the free value of log 6. -/
def Obligations.CoefficientsAreBounded : Prop :=
  ∀ (P : Params) (s : State), P.Legal ∨ P = referenceParams → EngineInv P s → s.cfg = true →
    (∀ k, k < s.n → |(s.coef.read k).toInt| ≤ ((65534 * s.fc.toNat / s.fs.toNat : Nat) : Int) ∧
      |(s.coef.read k).toInt| ≤ 32766) ∧
    (s.coef.read ((s.n - 1) / 2)).toInt = ((65534 * s.fc.toNat / s.fs.toNat : Nat) : Int)

/-- R110: while a block is configured, the stored coefficients are exactly symmetric about the centre: for legal parameters,
CoefExact assumed by name, and for the parameters of the host's interface without it, whatever the free value of log 6. -/
def Obligations.CoefficientsAreSymmetric : Prop :=
  ∀ (P : Params) (s : State), P.Legal ∨ P = referenceParams → EngineInv P s → s.cfg = true →
    ∀ k, k < s.n → s.coef.read k = s.coef.read (s.n - 1 - k)

/-- R117: an even request m and the odd m + 1, and a cutoff equal to the sample frequency and one at the clamp limit, give
the same SYNTH but for the staged register itself. -/
def Obligations.BoundaryRequestsBehaveAlike : Prop :=
  (∀ (P : Params) (s : State) (m : UInt24), m.toNat % 2 = 0 → m.toNat ≠ 0 →
    runCommand P .synth { s with nReq := m + 1#24 } =
      { runCommand P .synth { s with nReq := m } with nReq := m + 1#24 }) ∧
  (∀ (P : Params) (s : State) (lim : UInt24), 4 ≤ s.fsReq.toNat → lim.toNat = s.fsReq.toNat / 2 - 1 →
    runCommand P .synth { s with fcReq := lim } =
      { runCommand P .synth { s with fcReq := s.fsReq } with fcReq := lim })

/-- R57: SYNTH is idempotent when it succeeds: a second one leaves the same state, but for its own response. -/
def Obligations.SuccessfulSynthIsIdempotent : Prop :=
  ∀ (P : Params) (s t : State), EngineInv P s → t = runCommand P .synth s →
    t.responses = s.responses ++ [0x00000000#32] →
    runCommand P .synth t = { t with responses := t.responses ++ [0x00000000#32] }

/-! ### Convolution (41_convolution.md) -/

/-- R141 to R149, R154: a PUSH on a configured block writes the sample at PTR, moves PTR back one slot modulo N, outputs
wrap16(floor(S / 2^15)) of the exact sum S, keeps it in LAST_OUT, sets OUTV, sets OVF when S leaves [-2^30, 2^30), responds
with the output sign-extended, and changes nothing else. -/
def Obligations.PushFiltersOneSample : Prop :=
  ∀ (x : SInt16) (s : State), s.cfg = true → s.ptr < s.n → s.hist.wf = true →
    ∃ t, exec (.push x) s = .next t ∧
      (∀ k, t.hist.read k = if k = s.ptr then x else s.hist.read k) ∧
      t.ptr = (s.ptr + s.n - 1) % s.n ∧
      t.lastOut = firOutput (pushSum x s) ∧
      (t.ovf = true ↔ s.ovf = true ∨ pushSum x s < -2 ^ 30 ∨ 2 ^ 30 ≤ pushSum x s) ∧
      t.outv = true ∧ t.cfg = s.cfg ∧ t.err = s.err ∧ t.errCode = s.errCode ∧ t.reservedStatus = s.reservedStatus ∧
      t = { s with hist := t.hist, ptr := t.ptr, lastOut := t.lastOut, status := t.status,
                   responses := s.responses ++ [t.lastOut.signExtend 32] }

/-- R141, R203: a PUSH on an unconfigured block raises NOT_CONFIGURED; a word of opcode 0x10 runs PUSH of its bits 15:0, and
raises RESERVED_BITS, configured or not, if a bit of 23:16 is set. -/
def Obligations.PushNeedsConfiguration : Prop :=
  (∀ (x : SInt16) (s : State), s.cfg = false → exec (.push x) s = .next (s.raise .notConfigured)) ∧
  (∀ (w : Word) (s : State), opcodeField w = 0x10#8 →
    acceptCommand w s =
      if w.extractLsb' 16 8 = 0#8 then exec (.push (w.extractLsb' 0 16)) s else .next (s.raise .reservedBits))

/-- R147: OVF is set by a PUSH exactly in the case in which its output differs from floor(S / 2^15). -/
def Obligations.OverflowFlagMarksWrongOutputs : Prop :=
  ∀ (x : SInt16) (s t : State), s.cfg = true → s.ptr < s.n → s.hist.wf = true → s.ovf = false →
    exec (.push x) s = .next t →
    (t.ovf = true ↔ t.lastOut.toInt ≠ pushSum x s / 2 ^ 15)

/-- R153: ACC does not depend on the order the tap products are added in: adding them one by one with wrap32 in any order
gives the accumulator of the pass. -/
def Obligations.AccumulationOrderIsFree : Prop :=
  ∀ (coef hist : Memory) (n p : Nat) (l : List Int), p < n →
    l.Perm ((List.range n).map (fun i => tapProduct (hist.read ((p + i) % n)) (coef.read i))) →
    (macPass coef hist n p).acc = l.foldl (fun acc prod => wrap32 (acc.toInt + prod)) 0#32

/-- R150, one step: if the history holds the samples xs, a PUSH of x leaves it holding x and then xs, and its output is
wrap16(floor(Σ COEF[i]·x_{t-i} / 2^15)). -/
def Obligations.PushExtendsTheHistory : Prop :=
  ∀ (P : Params) (x : SInt16) (xs : List SInt16) (s : State), EngineInv P s → s.cfg = true → HoldsSamples s xs →
    ∃ t, exec (.push x) s = .next t ∧ HoldsSamples t (x :: xs) ∧ t.lastOut = firOutput (firSum s (x :: xs))

/-- R150, R235: after a successful SYNTH, every sequence of PUSH commands is the FIR convolution of the samples with the
coefficients, COEF[0] on the newest, zeros before the first; and PTR is (-t) mod N after t of them. The coefficients are those
of the parameter coefGen; those of the host's interface are free where log 6 says. -/
def Obligations.SynthThenPushesConvolve : Prop :=
  ∀ (P : Params) (s t : State) (xs : List SInt16), EngineInv P s →
    let nreq := s.nReq.toNat
    let fc := s.fcReq.toNat
    let fs := s.fsReq.toNat
    let n := if nreq % 2 = 0 then nreq + 1 else nreq
    let fce := if fs / 2 - 1 < fc then fs / 2 - 1 else fc
    2 ≤ nreq → n ≤ P.nMax → 4 ≤ fs → 1 ≤ fc →
    t = engineRun P (xs.length + 1)
      { s with inbox := .command (encode .synth) :: xs.map (fun x => .command (encode (.push x))) } →
    t.responses = s.responses ++ 0x00000000#32 :: (List.range xs.length).map (fun k =>
      (wrap16 (((List.range n).map (fun i => (P.coefGen n fce fs i).toInt *
        (if i ≤ k then (xs.getD (k - i) 0#16).toInt else 0))).sum / 2 ^ 15)).signExtend 32) ∧
    t.ptr = (n - xs.length % n) % n

/-- R155: after N consecutive PUSH 0 commands the history holds only zeros, and the N-th and every further one returns 0. -/
def Obligations.ZerosFlushTheHistory : Prop :=
  ∀ (P : Params) (s t : State) (m : Nat), EngineInv P s → s.cfg = true → s.n ≤ m →
    t = engineRun P m { s with inbox := List.replicate m (.command (encode (.push 0#16))) } →
    (∀ k, k < t.n → t.hist.read k = 0#16) ∧ t.lastOut = 0#16 ∧ t.responses.getLast? = some 0x00000000#32

/-- R157: when the last N PUSH commands all had sample v, the output is wrap16(floor(v·ΣCOEF / 2^15)). -/
def Obligations.ConstantInputReachesDcGain : Prop :=
  ∀ (P : Params) (s t : State) (v : SInt16) (m : Nat), EngineInv P s → s.cfg = true → s.n ≤ m →
    t = engineRun P m { s with inbox := List.replicate m (.command (encode (.push v))) } →
    t.lastOut = wrap16 (v.toInt * ((List.range s.n).map (fun k => (s.coef.read k).toInt)).sum / 2 ^ 15)

/-- R158: an impulse of amplitude a on a cleared history returns floor(a·COEF[t] / 2^15) exactly; -32768 returns the
coefficients negated. The bound of the coefficients is that of R109: CoefExact is assumed by name, in Params.Legal, but for the
parameters of the host's interface. -/
def Obligations.ImpulseReturnsCoefficients : Prop :=
  ∀ (P : Params) (s t : State) (a : SInt16) (k : Nat), P.Legal ∨ P = referenceParams → EngineInv P s → s.cfg = true →
    HoldsSamples s [] → k < s.n →
    t = engineRun P (k + 1)
      { s with inbox := .command (encode (.push a)) :: List.replicate k (.command (encode (.push 0#16))) } →
    t.lastOut.toInt = a.toInt * (s.coef.read k).toInt / 2 ^ 15 ∧
    (a.toInt = -32768 → t.lastOut.toInt = -(s.coef.read k).toInt)

/-- R151: LAST responds with LAST_OUT and changes nothing; unconfigured it raises NOT_CONFIGURED, before a PUSH NO_OUTPUT,
and any other word of opcode 0x11 raises RESERVED_BITS. A PUSH that fails, its response 0x80000000, does not change LAST_OUT. -/
def Obligations.LastReturnsTheLastOutput : Prop :=
  (∀ s : State,
    (s.cfg = true → s.outv = true →
      exec .last s = .next { s with responses := s.responses ++ [s.lastOut.signExtend 32] }) ∧
    (s.cfg = true → s.outv = false → exec .last s = .next (s.raise .noOutput)) ∧
    (s.cfg = false → exec .last s = .next (s.raise .notConfigured))) ∧
  (∀ (w : Word) (s : State), opcodeField w = 0x11#8 →
    acceptCommand w s = if w = 0x11000000#32 then exec .last s else .next (s.raise .reservedBits)) ∧
  (∀ (P : Params) (w : Word) (s t : State), opcodeField w = 0x10#8 → commandStep P s w = (t, 0x80000000#32) →
    t.lastOut = s.lastOut)

/-- R152: no command other than PUSH and SYNTH writes LAST_OUT, OUTV, HIST or PTR. -/
def Obligations.OnlyPushAndSynthWriteTheOutput : Prop :=
  ∀ (P : Params) (i : Instr) (s t : State), t = runCommand P i s → (∀ x, i ≠ .push x) → i ≠ .synth →
    t.lastOut = s.lastOut ∧ t.outv = s.outv ∧ t.hist = s.hist ∧ t.ptr = s.ptr

/-- R24, R26, R115: nothing but a SYNTH changes N, FC, FS or COEF. (N_MAX is a parameter, which no command can change.) -/
def Obligations.OnlySynthChangesTheConfiguration : Prop :=
  ∀ (P : Params) (i : Instr) (s t : State), t = runCommand P i s → i ≠ .synth →
    t.n = s.n ∧ t.fc = s.fc ∧ t.fs = s.fs ∧ t.coef = s.coef

/-- 70_reset_and_hazards.md R237: staging new values changes no output: with any staged values a PUSH gives the same
response and the same state but for them. -/
def Obligations.StagingDoesNotDisturbFiltering : Prop :=
  ∀ (x : SInt16) (s : State) (a b c : UInt24), ∃ t,
    exec (.push x) s = .next t ∧
    exec (.push x) { s with nReq := a, fcReq := b, fsReq := c } = .next { t with nReq := a, fcReq := b, fsReq := c }

/-! ### Status and readback (42_status_readback.md) -/

/-- R171: NOP responds 0 and changes nothing; any other word of opcode 0x00 raises RESERVED_BITS. -/
def Obligations.NopDoesNothing : Prop :=
  (∀ s : State, exec .nop s = .next { s with responses := s.responses ++ [0x00000000#32] }) ∧
  (∀ (w : Word) (s : State), opcodeField w = 0x00#8 →
    acceptCommand w s = if w = 0x00000000#32 then exec .nop s else .next (s.raise .reservedBits))

/-- R172: RDSTAT responds with STATUS from before it, configured or not, and changes nothing; any other word of opcode 0x20
raises RESERVED_BITS. -/
def Obligations.RdstatReturnsStatus : Prop :=
  (∀ s : State, exec .rdstat s = .next { s with responses := s.responses ++ [s.status] }) ∧
  (∀ (w : Word) (s : State), opcodeField w = 0x20#8 →
    acceptCommand w s = if w = 0x20000000#32 then exec .rdstat s else .next (s.raise .reservedBits))

/-- R173: RDCFG responds with the value its selector names; selectors 0 to 3 raise NOT_CONFIGURED while unconfigured; the words
0x21000000 to 0x21000007 are the selectors N, FC, FS, PTR, NREQ, FCREQ, FSREQ and NMAX in this order, and any other word of
opcode 0x21 raises RESERVED_BITS. exec is this with referenceParams (log 2). -/
def Obligations.RdcfgReturnsTheSelectedValue : Prop :=
  (∀ (P : Params) (s : State),
    (s.cfg = true →
      runCommand P (.rdcfg .n) s = { s with responses := s.responses ++ [BitVec.ofNat 32 s.n] } ∧
      runCommand P (.rdcfg .fc) s = { s with responses := s.responses ++ [s.fc.setWidth 32] } ∧
      runCommand P (.rdcfg .fs) s = { s with responses := s.responses ++ [s.fs.setWidth 32] } ∧
      runCommand P (.rdcfg .ptr) s = { s with responses := s.responses ++ [BitVec.ofNat 32 s.ptr] }) ∧
    (s.cfg = false →
      runCommand P (.rdcfg .n) s = s.raise .notConfigured ∧ runCommand P (.rdcfg .fc) s = s.raise .notConfigured ∧
      runCommand P (.rdcfg .fs) s = s.raise .notConfigured ∧ runCommand P (.rdcfg .ptr) s = s.raise .notConfigured) ∧
    runCommand P (.rdcfg .nreq) s = { s with responses := s.responses ++ [s.nReq.setWidth 32] } ∧
    runCommand P (.rdcfg .fcreq) s = { s with responses := s.responses ++ [s.fcReq.setWidth 32] } ∧
    runCommand P (.rdcfg .fsreq) s = { s with responses := s.responses ++ [s.fsReq.setWidth 32] } ∧
    runCommand P (.rdcfg .nmax) s = { s with responses := s.responses ++ [BitVec.ofNat 32 P.nMax] }) ∧
  (∀ (sel : Selector) (s : State), exec (.rdcfg sel) s = .next (runCommand referenceParams (.rdcfg sel) s)) ∧
  [0x21000000#32, 0x21000001#32, 0x21000002#32, 0x21000003#32, 0x21000004#32, 0x21000005#32, 0x21000006#32,
      0x21000007#32].map decode =
    [.ok (.rdcfg .n), .ok (.rdcfg .fc), .ok (.rdcfg .fs), .ok (.rdcfg .ptr), .ok (.rdcfg .nreq), .ok (.rdcfg .fcreq),
      .ok (.rdcfg .fsreq), .ok (.rdcfg .nmax)] ∧
  (∀ (P : Params) (w : Word) (s : State), opcodeField w = 0x21#8 → w.extractLsb' 3 21 ≠ 0#21 →
    acceptWord P w s = s.raise .reservedBits)

/-- R174, R175: RDCOEF and RDHIST respond with the slot, sign-extended, for an index below N, raise NOT_CONFIGURED while
unconfigured and INDEX_RANGE for an index of N or more, in that order; a word with a bit of 23:16 set raises RESERVED_BITS
before either. -/
def Obligations.ReadbackReturnsTheSlot : Prop :=
  (∀ (i : BitVec 16) (s : State),
    (s.cfg = true → i.toNat < s.n →
      exec (.rdcoef i) s = .next { s with responses := s.responses ++ [(s.coef.read i.toNat).signExtend 32] } ∧
      exec (.rdhist i) s = .next { s with responses := s.responses ++ [(s.hist.read i.toNat).signExtend 32] }) ∧
    (s.cfg = true → s.n ≤ i.toNat →
      exec (.rdcoef i) s = .next (s.raise .indexRange) ∧ exec (.rdhist i) s = .next (s.raise .indexRange)) ∧
    (s.cfg = false →
      exec (.rdcoef i) s = .next (s.raise .notConfigured) ∧ exec (.rdhist i) s = .next (s.raise .notConfigured))) ∧
  (∀ (w : Word) (s : State), opcodeField w = 0x22#8 →
    acceptCommand w s =
      if w.extractLsb' 16 8 = 0#8 then exec (.rdcoef (w.extractLsb' 0 16)) s else .next (s.raise .reservedBits)) ∧
  (∀ (w : Word) (s : State), opcodeField w = 0x23#8 →
    acceptCommand w s =
      if w.extractLsb' 16 8 = 0#8 then exec (.rdhist (w.extractLsb' 0 16)) s else .next (s.raise .reservedBits))

/-- R175: after a PUSH, slot (PTR + 1) mod N holds the newest sample and slot PTR the oldest. -/
def Obligations.ReadbackIndexIsPhysical : Prop :=
  ∀ (P : Params) (x : SInt16) (xs : List SInt16) (s : State) (j : Nat), EngineInv P s → s.cfg = true → HoldsSamples s xs → j < s.n →
    ∃ t u, exec (.push x) s = .next t ∧
      exec (.rdhist (BitVec.ofNat 16 ((t.ptr + 1 + j) % t.n))) t = .next u ∧
      u.responses = t.responses ++ [((x :: xs).getD j 0#16).signExtend 32]

/-- R176: CLRSTAT clears ERR, ERRCODE and OVF, lowers the err output, keeps CFG and OUTV, responds 0 and changes nothing else; any other word of
opcode 0x24 raises RESERVED_BITS. -/
def Obligations.ClrstatClearsTheRecord : Prop :=
  (∀ s : State, ∃ t, exec .clrstat s = .next t ∧ t.err = false ∧ t.errCode = 0#4 ∧ t.ovf = false ∧
    t.errPin = false ∧ t.cfg = s.cfg ∧ t.outv = s.outv ∧ t.reservedStatus = s.reservedStatus ∧
    t = { s with status := t.status, responses := s.responses ++ [0x00000000#32] }) ∧
  (∀ (w : Word) (s : State), opcodeField w = 0x24#8 →
    acceptCommand w s = if w = 0x24000000#32 then exec .clrstat s else .next (s.raise .reservedBits))

/-- 20_memory.md R57: NOP, LAST, RDSTAT, RDCFG, RDCOEF and RDHIST change no state when they succeed; an error changes only
the record. -/
def Obligations.ReadbacksChangeNoState : Prop :=
  ∀ (P : Params) (i : Instr) (s t : State),
    (i = .nop ∨ i = .last ∨ i = .rdstat ∨ (∃ sel, i = .rdcfg sel) ∨ (∃ k, i = .rdcoef k) ∨ (∃ k, i = .rdhist k)) →
    t = runCommand P i s →
    (∃ r, t = { s with responses := s.responses ++ [r] }) ∨ (∃ e, t = s.raise e)

/-! ### Reset and the whole machine (10_state.md, 70_reset_and_hazards.md) -/

/-- R42, R231: after reset STATUS and the staging registers are 0. (The values of the registers the spec leaves unspecified
are the model's choice, log 3, and are not stated here.) -/
def Obligations.ResetClearsStatusAndStaging : Prop :=
  State.reset.status = 0#32 ∧ State.reset.nReq = 0#24 ∧ State.reset.fcReq = 0#24 ∧ State.reset.fsReq = 0#24 ∧
  (∀ s : State, s.applyReset.status = 0#32 ∧ s.applyReset.nReq = 0#24 ∧ s.applyReset.fcReq = 0#24 ∧
    s.applyReset.fsReq = 0#24)

/-- R230, R232: a reset move, and a reset that hits an in-flight command, leave the reset state and deliver no response. -/
def Obligations.ResetAbandonsTheCommand : Prop :=
  ∀ (s : State) (m : HostMove) (rest : List HostMove), s.inbox = m :: rest → (m = .reset ∨ ∃ w, m = .resetInFlight w) →
    ∃ t, step s = .next t ∧ t.status = 0#32 ∧ t.nReq = 0#24 ∧ t.fcReq = 0#24 ∧ t.fsReq = 0#24 ∧
      t.responses = s.responses ∧ t.inbox = rest

/-- R233: while unconfigured, PUSH, LAST, RDCOEF, RDHIST and RDCFG with selectors 0 to 3 raise NOT_CONFIGURED; NOP, SETN,
SETFC, SETFS, RDSTAT, CLRSTAT and RDCFG with selectors 4 to 7 raise nothing; SYNTH never raises NOT_CONFIGURED. -/
def Obligations.CommandsLegalWhileUnconfigured : Prop :=
  ∀ (P : Params) (s : State), EngineInv P s → s.cfg = false →
    (∀ i, ((∃ x, i = .push x) ∨ i = .last ∨ (∃ k, i = .rdcoef k) ∨ (∃ k, i = .rdhist k) ∨
        (∃ sel, i = .rdcfg sel ∧ sel.toBits ≤ 3#3)) → runCommand P i s = s.raise .notConfigured) ∧
    (∀ i, (i = .nop ∨ (∃ u, i = .setn u) ∨ (∃ u, i = .setfc u) ∨ (∃ u, i = .setfs u) ∨ i = .rdstat ∨ i = .clrstat ∨
        (∃ sel, i = .rdcfg sel ∧ 4#3 ≤ sel.toBits)) →
      ∃ r, (runCommand P i s).responses = s.responses ++ [r] ∧ r ≠ 0x80000000#32) ∧
    runCommand P .synth s ≠ s.raise .notConfigured

/-- The machine after reset meets the invariant, for every legal N_MAX (10_state.md R25, R32 to R40). -/
def Obligations.ResetMeetsInvariant : Prop := ∀ P : Params, Config.LegalNMax P.nMax → EngineInv P State.reset

/-- The invariant is kept by every step from every state that meets it: the canonical form and bounds of COEF and HIST, the
reserved bits of STATUS, ERRCODE = 0 exactly when ERR = 0, OUTV only with CFG, and, while configured, R25, R26 and R28; for
every value of the parameters, and for the host's step. -/
def Obligations.StepKeepsInvariant : Prop :=
  (∀ (P : Params) (s : State), EngineInv P s → EngineInv P (engineStep P s)) ∧
  (∀ s t : State, EngineInv referenceParams s → step s = .next t → EngineInv referenceParams t)

/-- R42: nothing the spec leaves unspecified is observable: two states that a host cannot tell apart stay so after a step,
their responses equal; for every value of the parameters, and for the host's step. -/
def Obligations.UnspecifiedStateIsUnobservable : Prop :=
  (∀ (P : Params) (s s' : State), EngineInv P s → EngineInv P s' → SameToHost s s' →
    SameToHost (engineStep P s) (engineStep P s')) ∧
  (∀ s s' : State, EngineInv referenceParams s → EngineInv referenceParams s' → SameToHost s s' →
    ∃ t t', step s = .next t ∧ step s' = .next t' ∧ SameToHost t t')

/-! ### The clocked port (30_encoding.md, 70_reset_and_hazards.md) -/

/-- R71, R74, R75, R243: from idle, a command word offered at an edge is accepted, its response is valid after its latency,
and when the host takes it the engine is exactly where one step of the machine leaves it; what the host offers on the way is
not accepted. It is about hosts that keep their duties (R16, R241, log 12): a host that offers nothing more does. Which latency
a failing or ill-formed command takes is the model's choice (log 10), and at which edge a command's effect lands is its reading
of R74 (DEDUCED, log 11). -/
def Obligations.PortTransactionIsOneStep : Prop :=
  ∀ (T : Timing) (P : Params) (p : Port) (w : Word) (first : PinsIn) (pins : List PinsIn) (t : State), T.Legal →
    p.phase = .idle → p.offer = none ∨ p.offer = some w →
    first.rstN = true → first.cmdValid = true → first.cmdData = w →
    pins.length = commandLatency T p.engine w → (∀ i ∈ pins, i.rstN = true ∧ i.rspReady = true) →
    t = engineStep P { p.engine with inbox := .command w :: p.engine.inbox } →
    (∀ q, Port.run T P p (first :: pins) = some q → q.engine = t ∧ q.phase = .idle) ∧
    (∀ k q, k + 1 < pins.length → Port.run T P p (first :: pins.take k) = some q → (q.outputs true).rspValid = false) ∧
    (∀ q, Port.run T P p (first :: pins.take (pins.length - 1)) = some q →
      (q.outputs true).rspData = t.responses.getLast?) ∧
    ((∀ i ∈ pins, i.cmdValid = false) → (Port.run T P p (first :: pins)).isSome = true)

/-- R16, R241, K11: the port has no edge for a host that takes back or changes a word it has offered before it is accepted
(duty 1), or begins a PUSH before the previous response is taken (duty 5), and an edge for every other; and the word a port
remembers as offered is the one on the pins that it did not accept. That these are the duties pins can show is log 12. -/
def Obligations.PortHasNoEdgeForABreach : Prop :=
  ∀ (T : Timing) (P : Params) (p : Port) (i : PinsIn),
    (∀ w, p.offer = some w → (p.edge T P i = none ↔ i.cmdValid = false ∨ i.cmdData ≠ w)) ∧
    (p.offer = none → (p.edge T P i = none ↔
      i.rstN = true ∧ i.cmdValid = true ∧ (∃ x, decode i.cmdData = .ok (.push x)) ∧ p.phase ≠ .idle ∧
      p.phase ≠ .inReset)) ∧
    (∀ q, p.edge T P i = some q →
      (q.offer = some i.cmdData ↔ i.cmdValid = true ∧ ¬(i.rstN = true ∧ (p.outputs true).cmdReady = true)) ∧
      (q.offer = none ↔ ¬(i.cmdValid = true ∧ ¬(i.rstN = true ∧ (p.outputs true).cmdReady = true))))

/-- R74, R75: a response stays valid until the host takes it, and no command is accepted meanwhile. -/
def Obligations.PortHoldsTheResponse : Prop :=
  ∀ (T : Timing) (P : Params) (p q : Port) (r : Word) (i : PinsIn), p.phase = .responding r → i.rstN = true →
    i.rspReady = false → p.edge T P i = some q →
    q.engine = p.engine ∧ q.phase = p.phase ∧ (p.outputs true).rspValid = true ∧ (p.outputs true).rspData = some r ∧
    (p.outputs true).cmdReady = false

/-- R72, R75: with rst_n = 1, cmd_ready is 1 exactly when the port is idle; it and rsp_valid are never 1 together; err is
STATUS.ERR. That cmd_ready is still 0 in the cycle between the last edge in reset and the first edge with rst_n = 1 is the
model's reading of R233 against R75 (DEDUCED, log 11). -/
def Obligations.PortReadyExactlyWhenIdle : Prop :=
  ∀ p : Port, ((p.outputs true).cmdReady = true ↔ p.phase = .idle) ∧
    ¬((p.outputs true).cmdReady = true ∧ (p.outputs true).rspValid = true) ∧
    (p.outputs true).err = p.engine.err

/-- R230, R232, R233: while rst_n = 0 the outputs are 0; one edge with rst_n = 0 resets the engine whatever was in flight;
the first edge with rst_n = 1 raises cmd_ready. The edge conventions are log 11. -/
def Obligations.PortResetGatesTheOutputs : Prop :=
  ∀ (T : Timing) (P : Params) (p q r : Port) (i j : PinsIn), i.rstN = false → j.rstN = true →
    p.edge T P i = some q → q.edge T P j = some r →
    p.outputs false = { cmdReady := false, rspValid := false, rspData := none, err := false } ∧
    q.engine = p.engine.applyReset ∧ q.phase = .inReset ∧
    r.outputs true = { cmdReady := true, rspValid := false, rspData := none, err := false }

/-! ### Instances and the textual form -/

/-- 10_state.md R43: no step of one instance reads or writes another's state. -/
def Obligations.InstancesDoNotInteract : Prop :=
  ∀ (ss : List (Params × State)) (k j : Nat),
    (j ≠ k → (stepInstance ss k)[j]? = ss[j]?) ∧
    (∀ P s, ss[k]? = some (P, s) → (stepInstance ss k)[k]? = some (P, engineStep P s))

/-- 30_encoding.md R85, R86: every well-formed line assembles, and the decoder reads from its words the command it names with
its operand's value; a raw word is emitted as it is; CONFIG is SETN, SETFC, SETFS, SYNTH, and FLUSH is N times PUSH 0; a line
with an operand out of range, and FLUSH without a known N, assemble to nothing. -/
def Obligations.AssembledLinesDecode : Prop :=
  (∀ (known : Option Nat) (l : Source), l.wellFormed = false → assemble known l = none) ∧
  (∀ known : Option Nat,
    assembledCommands known .nop = some [.ok .nop] ∧ assembledCommands known .synth = some [.ok .synth] ∧
    assembledCommands known .last = some [.ok .last] ∧ assembledCommands known .rdstat = some [.ok .rdstat] ∧
    assembledCommands known .clrstat = some [.ok .clrstat] ∧
    (∀ sel, assembledCommands known (.rdcfgName sel) = some [.ok (.rdcfg sel)])) ∧
  (∀ (known : Option Nat) (u : UInt24),
    assembledCommands known (.setn u.toNat) = some [.ok (.setn u)] ∧
    assembledCommands known (.setfc u.toNat) = some [.ok (.setfc u)] ∧
    assembledCommands known (.setfs u.toNat) = some [.ok (.setfs u)]) ∧
  (∀ (known : Option Nat) (x : SInt16),
    assembledCommands known (.pushDec x.toInt) = some [.ok (.push x)] ∧
    assembledCommands known (.pushHex x.toNat) = some [.ok (.push x)] ∧
    assembledCommands known (.rdcoef x.toNat) = some [.ok (.rdcoef x)] ∧
    assembledCommands known (.rdhist x.toNat) = some [.ok (.rdhist x)]) ∧
  (∀ (known : Option Nat) (sel : Selector),
    assembledCommands known (.rdcfgNum sel.toBits.toNat) = some [.ok (.rdcfg sel)]) ∧
  (∀ (known : Option Nat) (w : Word), assemble known (.word w.toNat) = some [w]) ∧
  (∀ (known : Option Nat) (n fc fs : UInt24),
    assembledCommands known (.config n.toNat fc.toNat fs.toNat) =
      some [.ok (.setn n), .ok (.setfc fc), .ok (.setfs fs), .ok .synth]) ∧
  (∀ n : Nat, assembledCommands (some n) .flush = some (List.replicate n (.ok (.push 0#16)))) ∧
  assemble none .flush = none
end

