-- ==== Sys2Proof/Laws/CoefGen.lean ====
section
/-! SUPPORT. The coefficient generator against the spec's real formula (40_synthesis.md R106 to R110): the fixed-point
sine and window are within their stated errors, the enclosure holds |r(k)|, and where it decides, the coefficient is
trunc(r(k)); every coefficient meets the bound of R109 and the symmetry of R110. -/

open Finset Real

namespace Sys2Proof.Laws

/-- The sine's Taylor sum of `m` terms, with its remainder. -/
theorem sin_taylor (x : ℝ) (m : ℕ) (hx0 : 0 ≤ x) (hx : x ≤ 4) (hm : 4 ≤ m) :
    |Real.sin x - ∑ i ∈ range m, (-1 : ℝ) ^ i * x ^ (2 * i + 1) / (2 * i + 1).factorial| ≤
      x ^ (2 * m) / (2 * m).factorial * 2 := by
  have hn : ‖(x : ℂ) * Complex.I‖ = x := by simp [abs_of_nonneg hx0]
  have h := Complex.exp_bound' (x := (x : ℂ) * Complex.I) (n := 2 * m) (by
    rw [hn, div_le_iff₀ (by positivity)]
    have : (4 : ℝ) ≤ m := by exact_mod_cast hm
    push_cast
    linarith)
  rw [hn] at h
  have him := (Complex.abs_im_le_norm _).trans h
  have hs : (∑ j ∈ range (2 * m), ((x : ℂ) * Complex.I) ^ j / (j.factorial : ℂ)).im =
      ∑ i ∈ range m, (-1 : ℝ) ^ i * x ^ (2 * i + 1) / (2 * i + 1).factorial := by
    clear h him hm
    induction m with
    | zero => simp
    | succ m ih =>
      rw [show 2 * (m + 1) = 2 * m + 1 + 1 by ring, sum_range_succ, sum_range_succ, Complex.add_im, Complex.add_im, ih,
        sum_range_succ]
      have e1 : (((x : ℂ) * Complex.I) ^ (2 * m) / ((2 * m).factorial : ℂ)).im = 0 := by
        rw [mul_pow, pow_mul Complex.I, Complex.I_sq]
        have : (x : ℂ) ^ (2 * m) * (-1) ^ m / ((2 * m).factorial : ℂ) =
            ((x ^ (2 * m) * (-1) ^ m / (2 * m).factorial : ℝ) : ℂ) := by push_cast; ring
        rw [this, Complex.ofReal_im]
      have e2 : (((x : ℂ) * Complex.I) ^ (2 * m + 1) / ((2 * m + 1).factorial : ℂ)).im =
          (-1 : ℝ) ^ m * x ^ (2 * m + 1) / (2 * m + 1).factorial := by
        rw [mul_pow, pow_succ Complex.I, pow_mul Complex.I, Complex.I_sq]
        have : (x : ℂ) ^ (2 * m + 1) * ((-1) ^ m * Complex.I) / ((2 * m + 1).factorial : ℂ) =
            (((-1) ^ m * x ^ (2 * m + 1) / (2 * m + 1).factorial : ℝ) : ℂ) * Complex.I := by push_cast; ring
        rw [this, Complex.im_ofReal_mul, Complex.I_im, mul_one]
      rw [e1, e2]; ring
  rw [Complex.sub_im, Complex.exp_ofReal_mul_I_im, hs] at him
  exact him

/-- The Taylor sum of sin(x)/x in nested form, one level peeled off (`y` is x²). -/
theorem nested_sum (y : ℝ) (m j : ℕ) (hj : 1 ≤ j) :
    ∑ i ∈ range (m + 2), (-1 : ℝ) ^ i * y ^ i * (2 * j - 1).factorial / (2 * j - 1 + 2 * i).factorial =
      1 - y * (∑ i ∈ range (m + 1), (-1 : ℝ) ^ i * y ^ i * (2 * (j + 1) - 1).factorial / (2 * (j + 1) - 1 + 2 * i).factorial) /
        ((2 * j) * (2 * j + 1)) := by
  obtain ⟨j, rfl⟩ : ∃ k, j = k + 1 := ⟨j - 1, by omega⟩
  rw [sum_range_succ']
  have h0 : ((2 * (j + 1) - 1).factorial : ℝ) ≠ 0 := by positivity
  simp only [pow_zero, mul_zero, add_zero, one_mul, mul_one, div_self h0]
  rw [add_comm, sub_eq_add_neg]
  congr 1
  rw [mul_sum, sum_div, ← sum_neg_distrib]
  refine sum_congr rfl fun i _ => ?_
  have e1 : 2 * (j + 1) - 1 = 2 * j + 1 := by omega
  have e2 : 2 * (j + 1 + 1) - 1 = 2 * j + 3 := by omega
  rw [e1, e2, show 2 * j + 1 + 2 * (i + 1) = 2 * j + 3 + 2 * i by ring]
  rw [show (2 * j + 3).factorial = (2 * j + 3) * ((2 * j + 2) * (2 * j + 1).factorial) by
    rw [Nat.factorial_succ, Nat.factorial_succ]]
  have h1 : ((2 * j + 3 + 2 * i).factorial : ℝ) ≠ 0 := by positivity
  push_cast
  field_simp
  ring

/-- `fixPi` is at most π, in units of 2^-160. -/
theorem fixPi_lower : (Machine.fixPi : ℝ) / 2 ^ 160 ≤ π := by
  by_contra hlt
  rw [not_le] at hlt
  have hp := Real.pi_gt_three
  set x : ℝ := (Machine.fixPi : ℝ) / 2 ^ 160 with hx
  have hx4 : x ≤ 4 := by rw [hx, Machine.fixPi]; norm_num
  have hneg : Real.sin x ≤ 0 := by
    have h1 := Real.sin_nonneg_of_nonneg_of_le_pi (x := x - π) (by linarith) (by linarith)
    have h2 := Real.sin_sub_pi x
    linarith
  have ht := (abs_le.1 (sin_taylor x 36 (by linarith) hx4 (by norm_num))).1
  have hpos : x ^ (2 * 36) / (2 * 36).factorial * 2 <
      ∑ i ∈ range 36, (-1 : ℝ) ^ i * x ^ (2 * i + 1) / (2 * i + 1).factorial := by
    rw [hx, Machine.fixPi]
    simp only [sum_range_succ, sum_range_zero, Nat.factorial]
    norm_num
  linarith

/-- `fixPi + 1` is at least π, in units of 2^-160. -/
theorem fixPi_upper : π ≤ ((Machine.fixPi : ℝ) + 1) / 2 ^ 160 := by
  by_contra hlt
  rw [not_le] at hlt
  set x : ℝ := ((Machine.fixPi : ℝ) + 1) / 2 ^ 160 with hx
  have hx0 : 0 ≤ x := by rw [hx]; positivity
  have hx4 : x ≤ 4 := by rw [hx, Machine.fixPi]; norm_num
  have hnn := Real.sin_nonneg_of_nonneg_of_le_pi hx0 hlt.le
  have ht := (abs_le.1 (sin_taylor x 36 hx0 hx4 (by norm_num))).2
  have hneg : ∑ i ∈ range 36, (-1 : ℝ) ^ i * x ^ (2 * i + 1) / (2 * i + 1).factorial <
      - (x ^ (2 * 36) / (2 * 36).factorial * 2) := by
    rw [hx, Machine.fixPi]
    simp only [sum_range_succ, sum_range_zero, Nat.factorial]
    norm_num
  linarith

/-- A natural quotient is the floor of the real one. -/
theorem natDiv_bounds (a b : ℕ) (hb : 0 < b) : ((a / b : ℕ) : ℝ) ≤ (a : ℝ) / b ∧ (a : ℝ) / b < ((a / b : ℕ) : ℝ) + 1 := by
  have hb' : (0 : ℝ) < b := by exact_mod_cast hb
  refine ⟨Nat.cast_div_le, ?_⟩
  rw [div_lt_iff₀ hb']
  exact_mod_cast Nat.lt_div_mul_add hb |>.trans_eq (by ring)

/-- The nested form in fixed point: within 4 units of the exact nested form at X², between 0 and one unit. -/
theorem nestedSin_bounds (y : ℕ) (z : ℝ) (hz0 : 0 ≤ z) (hz : z ≤ 5 / 2) (hy1 : (y : ℝ) / 2 ^ 160 ≤ z)
    (hy2 : z < ((y : ℝ) + 1) / 2 ^ 160) (m : ℕ) : ∀ j, 1 ≤ j →
    Machine.nestedSin y m j ≤ Machine.fixOne ∧
    0 ≤ ∑ i ∈ range (m + 1), (-1 : ℝ) ^ i * z ^ i * (2 * j - 1).factorial / (2 * j - 1 + 2 * i).factorial ∧
    ∑ i ∈ range (m + 1), (-1 : ℝ) ^ i * z ^ i * (2 * j - 1).factorial / (2 * j - 1 + 2 * i).factorial ≤ 1 ∧
    |(Machine.nestedSin y m j : ℝ) / 2 ^ 160 -
      ∑ i ∈ range (m + 1), (-1 : ℝ) ^ i * z ^ i * (2 * j - 1).factorial / (2 * j - 1 + 2 * i).factorial| ≤ 4 / 2 ^ 160 := by
  induction m with
  | zero =>
    intro j hj
    have h0 : ((2 * j - 1).factorial : ℝ) ≠ 0 := by positivity
    simp [Machine.nestedSin, Machine.fixOne, div_self h0]
    norm_num
  | succ m ih =>
    intro j hj
    obtain ⟨h1, h2, h3, h4⟩ := ih (j + 1) (by omega)
    rw [nested_sum z m j hj]
    set H : ℝ := ∑ i ∈ range (m + 1), (-1 : ℝ) ^ i * z ^ i * (2 * (j + 1) - 1).factorial /
      (2 * (j + 1) - 1 + 2 * i).factorial with hH
    set h := Machine.nestedSin y m (j + 1) with hh
    have hj' : (1 : ℝ) ≤ j := by exact_mod_cast hj
    have hd : (6 : ℝ) ≤ (2 * j) * (2 * j + 1) := by nlinarith
    set d : ℝ := (2 * j) * (2 * j + 1) with hdd
    have hU : (0 : ℝ) < 2 ^ 160 := by positivity
    set U : ℝ := 2 ^ 160 with hUd
    have hyU : (y : ℝ) ≤ 5 / 2 * U := by
      rw [div_le_iff₀ hU] at hy1; nlinarith
    have hy3 : |(y : ℝ) / U - z| ≤ 1 / U := by
      rw [abs_le]; constructor
      · rw [add_div] at hy2; linarith
      · have : 0 ≤ 1 / U := by positivity
        linarith
    have hfix : (Machine.fixOne : ℝ) = U := by rw [Machine.fixOne, hUd]; norm_num
    have hhU : (h : ℝ) / U ≤ 1 := by
      rw [div_le_one hU, ← hfix]; exact_mod_cast h1
    have hh0 : 0 ≤ (h : ℝ) / U := by positivity
    have hden : 0 < Machine.fixOne * ((2 * j) * (2 * j + 1)) := by
      have : 0 < Machine.fixOne := by rw [Machine.fixOne]; positivity
      positivity
    obtain ⟨q1, q2⟩ := natDiv_bounds (y * h) (Machine.fixOne * ((2 * j) * (2 * j + 1))) hden
    set q := y * h / (Machine.fixOne * ((2 * j) * (2 * j + 1))) with hq
    have hqe : ((y * h : ℕ) : ℝ) / ((Machine.fixOne * ((2 * j) * (2 * j + 1)) : ℕ) : ℝ) = U * ((y : ℝ) / U * ((h : ℝ) / U) / d) := by
      push_cast
      rw [hfix, ← hdd]
      field_simp
    rw [hqe] at q1 q2
    have hd0 : 0 < d := by linarith
    set v : ℝ := (y : ℝ) / U * ((h : ℝ) / U) / d with hv
    have hv1 : v ≤ 1 := by
      rw [hv, div_le_one hd0]
      have : (y : ℝ) / U * ((h : ℝ) / U) ≤ 5 / 2 * 1 := by
        apply mul_le_mul _ hhU hh0 (by norm_num)
        linarith
      linarith
    have hqU : q ≤ Machine.fixOne := by
      have : (q : ℝ) ≤ (Machine.fixOne : ℝ) := by rw [hfix]; nlinarith
      exact_mod_cast this
    have hres : Machine.nestedSin y (m + 1) j = Machine.fixOne - q := rfl
    have hcast : (Machine.nestedSin y (m + 1) j : ℝ) = U - q := by
      rw [hres, Nat.cast_sub hqU, hfix]
    refine ⟨by rw [hres]; exact Nat.sub_le _ _, ?_, ?_, ?_⟩
    · have : z * H / d ≤ 1 := by
        rw [div_le_one hd0]
        nlinarith
      linarith
    · have : 0 ≤ z * H / d := by positivity
      linarith
    · rw [hcast]
      have e : (U - q) / U - (1 - z * H / d) = (v - q / U) + (z * H / d - v) := by
        rw [sub_div, div_self hU.ne']; ring
      rw [e]
      have b1 : |v - q / U| ≤ 1 / U := by
        rw [abs_le]
        have a1 : (q : ℝ) / U ≤ v := by rw [div_le_iff₀ hU]; linarith
        have a2 : v < ((q : ℝ) + 1) / U := by rw [lt_div_iff₀ hU]; linarith
        rw [add_div] at a2
        have : 0 ≤ 1 / U := by positivity
        constructor <;> linarith
      have b2 : |z * H / d - v| ≤ (1 / U + 5 / 2 * (4 / U)) / 6 := by
        have e2 : z * H / d - v = (-(((y : ℝ) / U - z) * ((h : ℝ) / U)) - z * ((h : ℝ) / U - H)) / d := by
          rw [hv]; ring
        rw [e2, abs_div, abs_of_pos hd0]
        have n1 : |-(((y : ℝ) / U - z) * ((h : ℝ) / U)) - z * ((h : ℝ) / U - H)| ≤ 1 / U + 5 / 2 * (4 / U) := by
          refine (abs_sub _ _).trans ?_
          rw [abs_neg, abs_mul, abs_mul, abs_of_nonneg hh0, abs_of_nonneg hz0]
          have m1 : |(y : ℝ) / U - z| * ((h : ℝ) / U) ≤ 1 / U * 1 :=
            mul_le_mul hy3 hhU hh0 (by positivity)
          have m2 : z * |(h : ℝ) / U - H| ≤ 5 / 2 * (4 / U) :=
            mul_le_mul hz h4 (abs_nonneg _) (by norm_num)
          linarith
        exact div_le_div₀ (by positivity) n1 (by norm_num) hd
      refine (abs_add_le _ _).trans ?_
      have : 1 / U + (1 / U + 5 / 2 * (4 / U)) / 6 ≤ 4 / U := by
        have : (0 : ℝ) ≤ 1 / U := by positivity
        have e4 : 4 / U = 4 * (1 / U) := by ring
        rw [e4]; linarith
      linarith

/-- The fixed-point sine is within 16 units of the exact sine, hence within `fixError`. -/
theorem fixSinPi_error (p q : ℕ) (hq : 0 < q) (hpq : 2 * p ≤ q) :
    |(Machine.fixSinPi p q : ℝ) / 2 ^ 160 - Real.sin (π * p / q)| ≤ 16 / 2 ^ 160 := by
  have hU : (0 : ℝ) < 2 ^ 160 := by positivity
  set U : ℝ := 2 ^ 160 with hUd
  have hfix : (Machine.fixOne : ℝ) = U := by rw [Machine.fixOne, hUd]; norm_num
  have hone : 0 < Machine.fixOne := by rw [Machine.fixOne]; positivity
  have hq' : (0 : ℝ) < q := by exact_mod_cast hq
  have hr : (p : ℝ) / q ≤ 1 / 2 := by
    rw [div_le_iff₀ hq']
    have : (2 * p : ℝ) ≤ q := by exact_mod_cast hpq
    linarith
  have hr0 : (0 : ℝ) ≤ (p : ℝ) / q := by positivity
  set x := Machine.fixPi * p / q with hx
  obtain ⟨x1, x2⟩ := natDiv_bounds (Machine.fixPi * p) q hq
  rw [← hx] at x1 x2
  have hxe : ((Machine.fixPi * p : ℕ) : ℝ) / (q : ℝ) = (Machine.fixPi : ℝ) * ((p : ℝ) / q) := by push_cast; ring
  rw [hxe] at x1 x2
  set X : ℝ := (x : ℝ) / U with hX
  have hX0 : 0 ≤ X := by positivity
  have hpl := fixPi_lower
  have hpu := fixPi_upper
  rw [← hUd] at hpl hpu
  have hpi4 := Real.pi_lt_d2
  set th : ℝ := π * p / q with hth
  have hthe : th = π * ((p : ℝ) / q) := by rw [hth]; ring
  have hX1 : X ≤ th := by
    rw [hX, hthe, div_le_iff₀ hU]
    have : (Machine.fixPi : ℝ) ≤ π * U := by rwa [div_le_iff₀ hU] at hpl
    nlinarith
  have hX2 : th - X ≤ 2 / U := by
    have h1 : π * U ≤ (Machine.fixPi : ℝ) + 1 := by rwa [le_div_iff₀ hU] at hpu
    have h2 : th * U ≤ x + 2 := by
      rw [hthe]; nlinarith
    have h3 : th ≤ ((x : ℝ) + 2) / U := by rwa [le_div_iff₀ hU]
    rw [add_div] at h3
    linarith
  have hXb : X ≤ 1.575 := by
    refine hX1.trans ?_
    rw [hthe]; nlinarith [Real.pi_pos]
  obtain ⟨y1, y2⟩ := natDiv_bounds (x * x) Machine.fixOne hone
  set y := x * x / Machine.fixOne with hy
  have hye : ((x * x : ℕ) : ℝ) / (Machine.fixOne : ℝ) = X ^ 2 * U := by
    push_cast; rw [hfix, hX]; field_simp
  rw [hye] at y1 y2
  obtain ⟨h1, h2, h3, h4⟩ := nestedSin_bounds y (X ^ 2) (by positivity) (by nlinarith)
    (by rw [div_le_iff₀ hU]; exact y1) (by rw [lt_div_iff₀ hU]; exact y2) 24 1 le_rfl
  set h := Machine.nestedSin y 24 1 with hh
  set H : ℝ := ∑ i ∈ range (24 + 1), (-1 : ℝ) ^ i * (X ^ 2) ^ i * (2 * 1 - 1).factorial / (2 * 1 - 1 + 2 * i).factorial with hH
  have hT : X * H = ∑ i ∈ range 25, (-1 : ℝ) ^ i * X ^ (2 * i + 1) / (2 * i + 1).factorial := by
    rw [hH, mul_sum]
    refine sum_congr rfl fun i _ => ?_
    rw [show 2 * 1 - 1 + 2 * i = 2 * i + 1 by omega, ← pow_mul, pow_succ]
    simp
    ring
  have htay := sin_taylor X 25 hX0 (by linarith) (by norm_num)
  rw [← hT] at htay
  have hrem : X ^ (2 * 25) / (2 * 25).factorial * 2 ≤ 1 / U := by
    have : X ^ (2 * 25) ≤ 1.575 ^ (2 * 25) := pow_le_pow_left₀ hX0 hXb _
    calc X ^ (2 * 25) / (2 * 25).factorial * 2 ≤ 1.575 ^ (2 * 25) / (2 * 25).factorial * 2 := by gcongr
      _ ≤ 1 / U := by rw [hUd]; simp only [Nat.factorial]; norm_num
  obtain ⟨r1, r2⟩ := natDiv_bounds (x * h) Machine.fixOne hone
  have hres : Machine.fixSinPi p q = x * h / Machine.fixOne := rfl
  rw [hres]
  set r := x * h / Machine.fixOne with hrr
  have hre : ((x * h : ℕ) : ℝ) / (Machine.fixOne : ℝ) = X * ((h : ℝ) / U) * U := by
    push_cast; rw [hfix, hX]; field_simp
  rw [hre] at r1 r2
  have c1 : |(r : ℝ) / U - X * ((h : ℝ) / U)| ≤ 1 / U := by
    have a1 : (r : ℝ) / U ≤ X * ((h : ℝ) / U) := by rw [div_le_iff₀ hU]; exact r1
    have a2 : X * ((h : ℝ) / U) < ((r : ℝ) + 1) / U := by rw [lt_div_iff₀ hU]; exact r2
    rw [add_div] at a2
    have : 0 ≤ 1 / U := by positivity
    rw [abs_le]; constructor <;> linarith
  have c2 : |X * ((h : ℝ) / U) - X * H| ≤ 1.575 * (4 / U) := by
    rw [← mul_sub, abs_mul, abs_of_nonneg hX0]
    exact mul_le_mul hXb h4 (abs_nonneg _) (by norm_num)
  have c3 : |X * H - Real.sin X| ≤ 1 / U := by rw [abs_sub_comm]; exact htay.trans hrem
  have c4 : |Real.sin X - Real.sin th| ≤ 2 / U := by
    have := Real.lipschitzWith_sin.dist_le_mul X th
    rw [Real.dist_eq, Real.dist_eq, abs_sub_comm X th, abs_of_nonneg (by linarith : 0 ≤ th - X)] at this
    simp at this
    linarith
  have hUp : 0 ≤ 1 / U := by positivity
  have e16 : 16 / U = 16 * (1 / U) := by ring
  have e2 : 2 / U = 2 * (1 / U) := by ring
  have e4 : 4 / U = 4 * (1 / U) := by ring
  rw [e2] at c4; rw [e4] at c2; rw [e16]
  rw [abs_le] at *
  constructor <;> linarith [c1.1, c1.2, c2.1, c2.2, c3.1, c3.2, c4.1, c4.2]

/-- The fixed-point window is within 46 sine errors of 100 times the window at distance `o` from the centre. -/
theorem fixWindow_error (c o : ℕ) (ho : 0 < o) (hoc : o ≤ c) :
    |(Machine.fixWindow c o : ℝ) / 2 ^ 160 - (54 + 46 * Real.cos (π * o / c))| ≤ 46 * (16 / 2 ^ 160) := by
  have hc : 0 < c := by omega
  have hc' : (0 : ℝ) < c := by exact_mod_cast hc
  have hU : (0 : ℝ) < 2 ^ 160 := by positivity
  have hfix : (Machine.fixOne : ℝ) = 2 ^ 160 := by rw [Machine.fixOne]; norm_num
  by_cases h : 2 * o ≤ c
  · have he := fixSinPi_error (c - 2 * o) (2 * c) (by omega) (by omega)
    have ha : π * ((c - 2 * o : ℕ) : ℝ) / ((2 * c : ℕ) : ℝ) = π / 2 - π * o / c := by
      rw [Nat.cast_sub h]; push_cast; field_simp
    rw [ha, Real.sin_pi_div_two_sub] at he
    have hw : Machine.fixWindow c o = 54 * Machine.fixOne + 46 * Machine.fixSinPi (c - 2 * o) (2 * c) := by
      rw [Machine.fixWindow, if_pos h]
    rw [hw]
    push_cast
    rw [hfix, add_div, mul_div_assoc, div_self hU.ne', mul_div_assoc]
    rw [abs_le] at he ⊢
    constructor <;> linarith [he.1, he.2]
  · have hlt : c < 2 * o := by omega
    have he := fixSinPi_error (2 * o - c) (2 * c) (by omega) (by omega)
    have ha : π * ((2 * o - c : ℕ) : ℝ) / ((2 * c : ℕ) : ℝ) = -(π / 2 - π * o / c) := by
      rw [Nat.cast_sub hlt.le]; push_cast; field_simp; ring
    rw [ha, Real.sin_neg, Real.sin_pi_div_two_sub] at he
    have hw : Machine.fixWindow c o = 54 * Machine.fixOne - 46 * Machine.fixSinPi (2 * o - c) (2 * c) := by
      rw [Machine.fixWindow, if_neg h]
    have hle : 46 * Machine.fixSinPi (2 * o - c) (2 * c) ≤ 54 * Machine.fixOne := by
      have h1 := (abs_le.1 he).2
      have h2 := Real.neg_one_le_cos (π * o / c)
      have h3 : (Machine.fixSinPi (2 * o - c) (2 * c) : ℝ) / 2 ^ 160 ≤ 1 + 16 / 2 ^ 160 := by linarith
      rw [div_le_iff₀ hU] at h3
      have h4 : (46 * Machine.fixSinPi (2 * o - c) (2 * c) : ℝ) ≤ 54 * (Machine.fixOne : ℝ) := by
        rw [hfix]; norm_num at h3 ⊢; linarith
      exact_mod_cast h4
    rw [hw, Nat.cast_sub hle]
    push_cast
    rw [hfix, sub_div, mul_div_assoc, div_self hU.ne', mul_div_assoc]
    rw [abs_le] at he ⊢
    constructor <;> linarith [he.1, he.2]

/-- The sine of R106 is the sine of the reduced phase, with the sign the model takes. -/
theorem sine_reduced (o fce fs : ℕ) (hfs : 0 < fs) :
    Real.sin (2 * π * ((fce : ℝ) / fs) * o) =
      (if Machine.sineNegative o fce fs then -1 else 1) * Real.sin (π * Machine.sinePhase o fce fs / fs) := by
  have hfs' : (fs : ℝ) ≠ 0 := by exact_mod_cast hfs.ne'
  have h1 : 2 * fce * o = 2 * fs * ((2 * fce * o) / (2 * fs)) + (2 * fce * o) % (2 * fs) := (Nat.div_add_mod _ _).symm
  set t := (2 * fce * o) / (2 * fs) with ht
  set a := (2 * fce * o) % (2 * fs) with ha
  have halt : a < 2 * fs := Nat.mod_lt _ (by omega)
  have hang : 2 * π * ((fce : ℝ) / fs) * o = π * a / fs + t * (2 * π) := by
    have h1' : (2 * fce * o : ℝ) = 2 * fs * t + a := by exact_mod_cast h1
    field_simp
    linarith [h1']
  rw [hang, Real.sin_add_nat_mul_two_pi]
  have hneg : Machine.sineNegative o fce fs = decide (fs ≤ a) := rfl
  have hph : Machine.sinePhase o fce fs = a % fs := rfl
  rw [hneg, hph]
  by_cases h : fs ≤ a
  · have hb : a % fs = a - fs := by
      rw [Nat.mod_eq_sub_mod h, Nat.mod_eq_of_lt (by omega)]
    have : π * (a : ℝ) / fs = π * ((a - fs : ℕ) : ℝ) / fs + π := by
      rw [Nat.cast_sub h]; field_simp; ring
    rw [hb, this, Real.sin_add_pi]
    simp [h]
  · rw [Nat.mod_eq_of_lt (by omega)]
    simp [h]

theorem sinePhase_lt (o fce fs : ℕ) (hfs : 0 < fs) : Machine.sinePhase o fce fs < fs := Nat.mod_lt _ hfs

theorem sine_phase_nonneg (o fce fs : ℕ) (hfs : 0 < fs) : 0 ≤ Real.sin (π * Machine.sinePhase o fce fs / fs) := by
  have hfs' : (0 : ℝ) < fs := by exact_mod_cast hfs
  have hb : (Machine.sinePhase o fce fs : ℝ) ≤ fs := by exact_mod_cast (sinePhase_lt o fce fs hfs).le
  apply Real.sin_nonneg_of_nonneg_of_le_pi
  · have := Real.pi_pos; positivity
  · rw [div_le_iff₀ hfs']; nlinarith [Real.pi_pos]

/-- The fixed-point magnitude of the sine is within 16 units of the exact one. -/
theorem fixSine_error (o fce fs : ℕ) (hfs : 0 < fs) :
    |(Machine.fixSine o fce fs : ℝ) / 2 ^ 160 - Real.sin (π * Machine.sinePhase o fce fs / fs)| ≤ 16 / 2 ^ 160 := by
  have hb := sinePhase_lt o fce fs hfs
  have hfs' : (fs : ℝ) ≠ 0 := by exact_mod_cast hfs.ne'
  by_cases h : 2 * Machine.sinePhase o fce fs ≤ fs
  · have : Machine.fixSine o fce fs = Machine.fixSinPi (Machine.sinePhase o fce fs) fs := by
      simp only [Machine.fixSine]; rw [if_pos h]
    rw [this]
    exact fixSinPi_error _ _ hfs h
  · have : Machine.fixSine o fce fs = Machine.fixSinPi (fs - Machine.sinePhase o fce fs) fs := by
      simp only [Machine.fixSine]; rw [if_neg h]
    rw [this]
    have he := fixSinPi_error (fs - Machine.sinePhase o fce fs) fs hfs (by omega)
    have ha : π * ((fs - Machine.sinePhase o fce fs : ℕ) : ℝ) / fs = π - π * Machine.sinePhase o fce fs / fs := by
      rw [Nat.cast_sub hb.le]; field_simp
    rwa [ha, Real.sin_pi_sub] at he

/-- The arithmetic of the enclosure, for any sine, window and π known up to their errors. -/
theorem enclosure_bounds (S W E P F o : ℕ) (sn w p U : ℝ) (hU : 0 < U) (hF : (F : ℝ) = U) (hP : 0 < P) (ho : 0 < o)
    (hp : 0 < p) (hpl : (P : ℝ) ≤ p * U) (hpu : p * U ≤ (P : ℝ) + 1) (hs0 : 0 ≤ sn) (hw0 : 0 ≤ w)
    (s1 : (S : ℝ) - E ≤ sn * U) (s2 : sn * U ≤ (S : ℝ) + E)
    (w1 : (W : ℝ) - 46 * E ≤ w * U) (w2 : w * U ≤ (W : ℝ) + 46 * E) :
    ((32767 * (S - E) * (W - 46 * E) / (100 * F * (P + 1) * o) : ℕ) : ℝ) ≤ 32767 * sn * w / (100 * p * o) ∧
    32767 * sn * w / (100 * p * o) < ((32767 * (S + E) * (W + 46 * E) / (100 * F * P * o) : ℕ) : ℝ) + 1 := by
  have ho' : (0 : ℝ) < o := by exact_mod_cast ho
  have hP' : (0 : ℝ) < P := by exact_mod_cast hP
  have hFp : 0 < F := by
    have : (0 : ℝ) < F := by rw [hF]; exact hU
    exact_mod_cast this
  constructor
  · have hdiv := (natDiv_bounds (32767 * (S - E) * (W - 46 * E)) (100 * F * (P + 1) * o) (by positivity)).1
    refine hdiv.trans ?_
    have a1 : ((S - E : ℕ) : ℝ) ≤ sn * U := by
      rcases Nat.le_total S E with h | h
      · rw [Nat.sub_eq_zero_of_le h]; push_cast; positivity
      · rw [Nat.cast_sub h]; linarith
    have a2 : ((W - 46 * E : ℕ) : ℝ) ≤ w * U := by
      rcases Nat.le_total W (46 * E) with h | h
      · rw [Nat.sub_eq_zero_of_le h]; push_cast; positivity
      · rw [Nat.cast_sub h]; push_cast; linarith
    push_cast
    rw [hF, div_le_div_iff₀ (by positivity) (by positivity)]
    have hm : ((S - E : ℕ) : ℝ) * ((W - 46 * E : ℕ) : ℝ) ≤ sn * U * (w * U) :=
      mul_le_mul a1 a2 (Nat.cast_nonneg _) (by positivity)
    calc 32767 * ((S - E : ℕ) : ℝ) * ((W - 46 * E : ℕ) : ℝ) * (100 * p * o)
        = (((S - E : ℕ) : ℝ) * ((W - 46 * E : ℕ) : ℝ)) * (3276700 * p * o) := by ring
      _ ≤ (sn * U * (w * U)) * (3276700 * p * o) := by gcongr
      _ = (sn * w * 3276700 * o * U) * (p * U) := by ring
      _ ≤ (sn * w * 3276700 * o * U) * ((P : ℝ) + 1) := by gcongr
      _ = 32767 * sn * w * (100 * U * ((P : ℝ) + 1) * o) := by ring
  · have hdiv := (natDiv_bounds (32767 * (S + E) * (W + 46 * E)) (100 * F * P * o) (by positivity)).2
    refine lt_of_le_of_lt ?_ hdiv
    push_cast
    rw [hF, div_le_div_iff₀ (by positivity) (by positivity)]
    have hm : sn * U * (w * U) ≤ ((S : ℝ) + E) * ((W : ℝ) + 46 * E) :=
      mul_le_mul s2 w2 (by positivity) (by positivity)
    calc 32767 * sn * w * (100 * U * (P : ℝ) * o)
        = (sn * w * 3276700 * o * U) * (P : ℝ) := by ring
      _ ≤ (sn * w * 3276700 * o * U) * (p * U) := by gcongr
      _ = (sn * U * (w * U)) * (3276700 * p * o) := by ring
      _ ≤ (((S : ℝ) + E) * ((W : ℝ) + 46 * E)) * (3276700 * p * o) := by gcongr
      _ = 32767 * ((S : ℝ) + E) * ((W : ℝ) + 46 * E) * (100 * p * o) := by ring

/-- |r(k)| at distance `o` from the centre lies between the two bounds the model divides out. -/
theorem coef_enclosed (c o fce fs : ℕ) (ho : 0 < o) (hoc : o ≤ c) (hfs : 0 < fs) :
    (Machine.coefLow c o fce fs : ℝ) ≤
      32767 * (Real.sin (π * Machine.sinePhase o fce fs / fs) / (π * o)) * (0.54 + 0.46 * Real.cos (π * o / c)) ∧
    32767 * (Real.sin (π * Machine.sinePhase o fce fs / fs) / (π * o)) * (0.54 + 0.46 * Real.cos (π * o / c)) <
      (Machine.coefHigh c o fce fs : ℝ) + 1 := by
  have hU : (0 : ℝ) < 2 ^ 160 := by positivity
  have hF : (Machine.fixOne : ℝ) = 2 ^ 160 := by rw [Machine.fixOne]; norm_num
  have hP : 0 < Machine.fixPi := by rw [Machine.fixPi]; norm_num
  have ho' : (0 : ℝ) < o := by exact_mod_cast ho
  have hS := fixSine_error o fce fs hfs
  have hW := fixWindow_error c o ho hoc
  have hs0 := sine_phase_nonneg o fce fs hfs
  have hpl := fixPi_lower
  have hpu := fixPi_upper
  rw [div_le_iff₀ hU] at hpl
  rw [le_div_iff₀ hU] at hpu
  have hpp := Real.pi_pos
  have hE : (Machine.fixError : ℝ) = 64 := by norm_num [Machine.fixError]
  have hr : 32767 * (Real.sin (π * Machine.sinePhase o fce fs / fs) / (π * o)) * (0.54 + 0.46 * Real.cos (π * o / c)) =
      32767 * Real.sin (π * Machine.sinePhase o fce fs / fs) * (54 + 46 * Real.cos (π * o / c)) / (100 * π * o) := by
    field_simp; ring
  rw [hr]
  have scale : ∀ a b e : ℝ, |a / 2 ^ 160 - b| ≤ e / 2 ^ 160 → a - e ≤ b * 2 ^ 160 ∧ b * 2 ^ 160 ≤ a + e := by
    intro a b e h
    have h' := mul_le_mul_of_nonneg_right h hU.le
    rw [div_mul_cancel₀ _ hU.ne', ← abs_of_pos hU, ← abs_mul, sub_mul, abs_of_pos hU, div_mul_cancel₀ _ hU.ne', abs_le] at h'
    constructor <;> linarith [h'.1, h'.2]
  obtain ⟨s1, s2⟩ := scale _ _ _ hS
  obtain ⟨w1, w2⟩ := scale (Machine.fixWindow c o) (54 + 46 * Real.cos (π * o / c)) (46 * 16)
    (by rw [show (46 * 16 : ℝ) / 2 ^ 160 = 46 * (16 / 2 ^ 160) by ring]; exact hW)
  exact enclosure_bounds (Machine.fixSine o fce fs) (Machine.fixWindow c o) Machine.fixError Machine.fixPi Machine.fixOne o _ _ π
    (2 ^ 160) hU hF hP ho hpp hpl hpu hs0 (by linarith [Real.neg_one_le_cos (π * o / c)])
    (by rw [hE]; linarith) (by rw [hE]; linarith) (by rw [hE]; linarith) (by rw [hE]; linarith)

/-- Where the enclosure decides, or the sine is exactly 0, the model's magnitude is the floor of |r(k)|. -/
theorem coefMagnitude_floor (c o fce fs : ℕ) (ho : 0 < o) (hoc : o ≤ c) (hfs : 0 < fs)
    (hd : Machine.coefDecided c o fce fs = true) :
    (Machine.coefMagnitude c o fce fs : ℝ) ≤
      32767 * (Real.sin (π * Machine.sinePhase o fce fs / fs) / (π * o)) * (0.54 + 0.46 * Real.cos (π * o / c)) ∧
    32767 * (Real.sin (π * Machine.sinePhase o fce fs / fs) / (π * o)) * (0.54 + 0.46 * Real.cos (π * o / c)) <
      (Machine.coefMagnitude c o fce fs : ℝ) + 1 := by
  have hne : o ≠ 0 := by omega
  by_cases hz : Machine.sinePhase o fce fs = 0
  · rw [Machine.coefMagnitude, if_neg hne, if_pos hz, hz]
    simp
  · have hlh : Machine.coefLow c o fce fs = Machine.coefHigh c o fce fs := by
      simpa [Machine.coefDecided, hne, hz] using hd
    rw [Machine.coefMagnitude, if_neg hne, if_neg hz, if_pos hlh]
    have h := coef_enclosed c o fce fs ho hoc hfs
    rw [← hlh] at h
    exact h

theorem isTruncation_natFloor (r : ℝ) (a : ℕ) (h1 : (a : ℝ) ≤ r) (h2 : r < a + 1) : IsTruncation r (a : ℤ) := by
  constructor
  · intro _; exact ⟨by exact_mod_cast h1, by exact_mod_cast h2⟩
  · intro h
    have : (0 : ℝ) ≤ a := Nat.cast_nonneg a
    linarith

theorem isTruncation_neg_natFloor (r : ℝ) (a : ℕ) (h1 : (a : ℝ) ≤ r) (h2 : r < a + 1) : IsTruncation (-r) (-(a : ℤ)) := by
  have ha : (0 : ℝ) ≤ a := Nat.cast_nonneg a
  constructor
  · intro h
    have hr : r = 0 := by linarith
    have : (a : ℝ) = 0 := by linarith
    push_cast; rw [this, hr]; norm_num
  · intro _; push_cast; constructor <;> linarith

/-- The coefficient generator is exact wherever its enclosure decides (40_synthesis.md R106 to R108). -/
theorem coefGen_exact (n fce fs k : ℕ) (hn : n % 2 = 1) (hn3 : 3 ≤ n) (hk : k < n) (hfs : 0 < fs)
    (hd : Machine.coefDecided ((n - 1) / 2) (Machine.centreDistance n k) fce fs = true) :
    IsExactCoef n fce fs k (Machine.coefGen n fce fs k) := by
  obtain ⟨c, rfl⟩ : ∃ c, n = 2 * c + 1 := ⟨n / 2, by omega⟩
  have hc : (2 * c + 1 - 1) / 2 = c := by omega
  have hc1 : 1 ≤ c := by omega
  have hc' : (0 : ℝ) < c := by exact_mod_cast hc1
  have hfs' : (fs : ℝ) ≠ 0 := by exact_mod_cast hfs.ne'
  have hpi := Real.pi_pos
  rw [hc] at hd
  set o := Machine.centreDistance (2 * c + 1) k with ho
  have hod : o = if k ≤ c then c - k else k - c := by rw [ho, Machine.centreDistance, hc]
  have hoc : o ≤ c := by rw [hod]; split <;> omega
  -- the offset k - c as a real, and the window at it
  have hoff : ((k : ℝ) - c = o ∨ (k : ℝ) - c = -o) := by
    rw [hod]
    split
    · rename_i h; right; rw [Nat.cast_sub h]; ring
    · rename_i h; left; rw [Nat.cast_sub (by omega)]
  have hcos : Real.cos (2 * π * k / ((2 * c + 1 : ℕ) - 1 : ℝ)) = -Real.cos (π * o / c) := by
    have e : 2 * π * k / ((2 * c + 1 : ℕ) - 1 : ℝ) = π * ((k : ℝ) - c) / c + π := by
      push_cast; field_simp; ring
    rw [e, Real.cos_add_pi]
    rcases hoff with h | h <;> rw [h]
    rw [mul_neg, neg_div, Real.cos_neg]
  have hcentre : (((2 * c + 1 : ℕ) : ℝ) - 1) / 2 = c := by push_cast; ring
  have hgen : Machine.coefGen (2 * c + 1) fce fs k =
      if o ≠ 0 ∧ Machine.sineNegative o fce fs then -(Machine.coefMagnitude c o fce fs : ℤ)
      else (Machine.coefMagnitude c o fce fs : ℤ) := by
    simp only [Machine.coefGen]; rw [hc, ← ho]
  by_cases ho0 : o = 0
  · refine ⟨2 * ((fce : ℝ) / fs), 1, ?_, ?_, ?_⟩
    · rintro f o' rfl rfl
      rw [hcentre]
      refine ⟨fun _ => rfl, fun h => absurd ?_ h⟩
      rcases hoff with h | h <;> rw [h, ho0] <;> simp
    · rw [IsHammingWeight, hcos, ho0]; norm_num
    · rw [hgen, if_neg (by simp [ho0]), Machine.coefMagnitude, if_pos ho0, Machine.coefBound]
      obtain ⟨b1, b2⟩ := natDiv_bounds (65534 * fce) fs hfs
      have e : 32767 * (2 * ((fce : ℝ) / fs)) * 1 = ((65534 * fce : ℕ) : ℝ) / fs := by push_cast; ring
      rw [e]
      exact isTruncation_natFloor _ _ b1 b2
  · have hopos : 0 < o := Nat.pos_of_ne_zero ho0
    have ho' : (o : ℝ) ≠ 0 := by exact_mod_cast ho0
    have hidx : Real.sin (2 * π * ((fce : ℝ) / fs) * ((k : ℝ) - c)) / (π * ((k : ℝ) - c)) =
        Real.sin (2 * π * ((fce : ℝ) / fs) * o) / (π * o) := by
      rcases hoff with h | h <;> rw [h]
      rw [mul_neg, Real.sin_neg, mul_neg, neg_div_neg_eq]
    refine ⟨Real.sin (2 * π * ((fce : ℝ) / fs) * o) / (π * o), 0.54 + 0.46 * Real.cos (π * o / c), ?_, ?_, ?_⟩
    · rintro f o' rfl rfl
      rw [hcentre]
      refine ⟨fun h => absurd ?_ ho', fun _ => hidx.symm⟩
      rcases hoff with h' | h' <;> linarith
    · rw [IsHammingWeight, hcos]; ring
    · obtain ⟨m1, m2⟩ := coefMagnitude_floor c o fce fs hopos hoc hfs hd
      rw [sine_reduced o fce fs hfs, hgen]
      by_cases hneg : Machine.sineNegative o fce fs = true
      · rw [if_pos hneg, if_pos ⟨ho0, hneg⟩]
        have e : 32767 * (-1 * Real.sin (π * Machine.sinePhase o fce fs / fs) / (π * o)) * (0.54 + 0.46 * Real.cos (π * o / c)) =
            -(32767 * (Real.sin (π * Machine.sinePhase o fce fs / fs) / (π * o)) * (0.54 + 0.46 * Real.cos (π * o / c))) := by ring
        rw [e]
        exact isTruncation_neg_natFloor _ _ m1 m2
      · rw [if_neg hneg, if_neg (fun h => hneg h.2), one_mul]
        exact isTruncation_natFloor _ _ m1 m2

/-- |r(k)| is at most 65534·fce/fs (40_synthesis.md R109). -/
theorem exact_bound (c o fce fs : ℕ) (ho : 0 < o) (hfs : 0 < fs) :
    32767 * (Real.sin (π * Machine.sinePhase o fce fs / fs) / (π * o)) * (0.54 + 0.46 * Real.cos (π * o / c)) ≤
      65534 * ((fce : ℝ) / fs) := by
  have ho' : (0 : ℝ) < o := by exact_mod_cast ho
  have hpi := Real.pi_pos
  have hf : (0 : ℝ) ≤ (fce : ℝ) / fs := by positivity
  have hs : Real.sin (π * Machine.sinePhase o fce fs / fs) ≤ 2 * π * ((fce : ℝ) / fs) * o := by
    have h1 := sine_reduced o fce fs hfs
    have h2 := Real.abs_sin_le_abs (x := 2 * π * ((fce : ℝ) / fs) * o)
    rw [abs_of_nonneg (by positivity : 0 ≤ 2 * π * ((fce : ℝ) / fs) * o)] at h2
    rw [h1, abs_mul] at h2
    have h3 : |(if Machine.sineNegative o fce fs then (-1 : ℝ) else 1)| = 1 := by split <;> simp
    rw [h3, one_mul] at h2
    exact (le_abs_self _).trans h2
  have hs0 := sine_phase_nonneg o fce fs hfs
  set sn := Real.sin (π * Machine.sinePhase o fce fs / fs)
  have hq : sn / (π * o) ≤ 2 * ((fce : ℝ) / fs) := by
    rw [div_le_iff₀ (by positivity)]; linarith
  have hq0 : 0 ≤ sn / (π * o) := by positivity
  have hc1 := Real.cos_le_one (π * o / c)
  have hc2 := Real.neg_one_le_cos (π * o / c)
  nlinarith [mul_nonneg hq0 (by linarith : (0 : ℝ) ≤ 1 - Real.cos (π * o / c))]

/-- Every coefficient's magnitude is at most trunc(65534·fce/fs) (40_synthesis.md R109), decided or not. -/
theorem coefMagnitude_le_bound (c o fce fs : ℕ) (hoc : o ≤ c) (hfs : 0 < fs) :
    Machine.coefMagnitude c o fce fs ≤ Machine.coefBound fce fs := by
  by_cases ho : o = 0
  · rw [Machine.coefMagnitude, if_pos ho]
  by_cases hd : Machine.coefDecided c o fce fs = true
  · have h1 := (coefMagnitude_floor c o fce fs (Nat.pos_of_ne_zero ho) hoc hfs hd).1
    have h2 := exact_bound c o fce fs (Nat.pos_of_ne_zero ho) hfs
    have h3 := (natDiv_bounds (65534 * fce) fs hfs).2
    have h4 : ((65534 * fce : ℕ) : ℝ) / fs = 65534 * ((fce : ℝ) / fs) := by push_cast; ring
    rw [h4] at h3
    have h5 : (Machine.coefMagnitude c o fce fs : ℝ) < ((65534 * fce / fs : ℕ) : ℝ) + 1 := by linarith
    have h6 : Machine.coefMagnitude c o fce fs < 65534 * fce / fs + 1 := by exact_mod_cast h5
    exact Nat.lt_succ_iff.1 h6
  · have hz : Machine.sinePhase o fce fs ≠ 0 := fun h => hd (by simp [Machine.coefDecided, h])
    have hl : Machine.coefLow c o fce fs ≠ Machine.coefHigh c o fce fs := fun h => hd (by simp [Machine.coefDecided, h])
    rw [Machine.coefMagnitude, if_neg ho, if_neg hz, if_neg hl]
    split <;> exact Nat.min_le_right _ _

theorem centreDistance_le (n k : ℕ) (hk : k < n) : Machine.centreDistance n k ≤ n / 2 := by
  unfold Machine.centreDistance; split <;> omega

/-- The magnitude bound of a coefficient (40_synthesis.md R109). -/
theorem coefGen_abs_le (n fce fs k : ℕ) (hn : n % 2 = 1) (hk : k < n) (hfs : 0 < fs) :
    |Machine.coefGen n fce fs k| ≤ (Machine.coefBound fce fs : ℤ) := by
  have h := centreDistance_le n k hk
  have hm := coefMagnitude_le_bound ((n - 1) / 2) (Machine.centreDistance n k) fce fs (by omega) hfs
  simp only [Machine.coefGen]
  split <;> simp <;> omega

/-- The bound of R109 is at most 32766 for a clamped cutoff. -/
theorem coefBound_le (fce fs : ℕ) (hfs : 4 ≤ fs) (hf : fce ≤ fs / 2 - 1) : Machine.coefBound fce fs ≤ 32766 := by
  unfold Machine.coefBound
  rw [← Nat.lt_succ_iff, Nat.div_lt_iff_lt_mul (by omega)]
  omega

/-- A coefficient fits in an int16: the stored word has its value (40_synthesis.md R109). -/
theorem coefWord_toInt (n fce fs k : ℕ) (hn : n % 2 = 1) (hk : k < n) (hfs : 4 ≤ fs) (hf : fce ≤ fs / 2 - 1) :
    (Machine.coefWord n fce fs k).toInt = Machine.coefGen n fce fs k := by
  have h1 := coefGen_abs_le n fce fs k hn hk (by omega)
  have h2 := coefBound_le fce fs hfs hf
  rw [abs_le] at h1
  rw [Machine.coefWord, Machine.wrap16, BitVec.toInt_ofInt, Int.bmod_eq_of_le] <;> omega

/-- Tap k and tap n-1-k are at the same distance from the centre (40_synthesis.md R110). -/
theorem centreDistance_mirror (n k : ℕ) (hn : n % 2 = 1) (hk : k < n) :
    Machine.centreDistance n (n - 1 - k) = Machine.centreDistance n k := by
  unfold Machine.centreDistance; split <;> split <;> omega

/-! ### Exact coefficients, for any generator that has CoefExact -/

/-- A real has one integer part (00_scope.md R9). -/
theorem isTruncation_unique {r : ℝ} {a b : ℤ} (ha : IsTruncation r a) (hb : IsTruncation r b) : a = b := by
  rcases le_or_gt 0 r with h | h
  · obtain ⟨a1, a2⟩ := ha.1 h
    obtain ⟨b1, b2⟩ := hb.1 h
    have h1 : (a : ℝ) < b + 1 := by linarith
    have h2 : (b : ℝ) < a + 1 := by linarith
    have h3 : a < b + 1 := by exact_mod_cast h1
    have h4 : b < a + 1 := by exact_mod_cast h2
    omega
  · obtain ⟨a1, a2⟩ := ha.2 h
    obtain ⟨b1, b2⟩ := hb.2 h
    have h1 : (a : ℝ) - 1 < b := by linarith
    have h2 : (b : ℝ) - 1 < a := by linarith
    have h3 : a - 1 < b := by exact_mod_cast h1
    have h4 : b - 1 < a := by exact_mod_cast h2
    omega

/-- The integer part is no larger in magnitude than the real. -/
theorem isTruncation_abs_le {r : ℝ} {a : ℤ} (ha : IsTruncation r a) : |(a : ℝ)| ≤ |r| := by
  rcases le_or_gt 0 r with h | h
  · obtain ⟨a1, a2⟩ := ha.1 h
    have h1 : (-1 : ℝ) < a := by linarith
    have h2 : -1 < a := by exact_mod_cast h1
    have h3 : (0 : ℝ) ≤ a := by exact_mod_cast (by omega : 0 ≤ a)
    rw [abs_of_nonneg h, abs_of_nonneg h3]; exact a1
  · obtain ⟨a1, a2⟩ := ha.2 h
    have h1 : (a : ℝ) < 1 := by linarith
    have h2 : a < 1 := by exact_mod_cast h1
    have h3 : (a : ℝ) ≤ 0 := by exact_mod_cast (by omega : a ≤ 0)
    rw [abs_of_neg h, abs_of_nonpos h3]; linarith

/-- The ideal weight and the window of a tap are one real each (40_synthesis.md R106, R107). -/
theorem isIdealWeight_unique {n fce fs k : ℕ} {h h' : ℝ} (a : IsIdealWeight n fce fs k h) (b : IsIdealWeight n fce fs k h') :
    h = h' := by
  obtain ⟨a0, a1⟩ := a _ _ rfl rfl
  obtain ⟨b0, b1⟩ := b _ _ rfl rfl
  by_cases ho : (k : ℝ) - ((n : ℝ) - 1) / 2 = 0
  · rw [a0 ho, b0 ho]
  · rw [a1 ho, b1 ho]

/-- A tap has one exact coefficient (40_synthesis.md R108). -/
theorem isExactCoef_unique {n fce fs k : ℕ} {a b : ℤ} (ha : IsExactCoef n fce fs k a) (hb : IsExactCoef n fce fs k b) :
    a = b := by
  obtain ⟨h, w, h1, h2, h3⟩ := ha
  obtain ⟨h', w', h1', h2', h3'⟩ := hb
  obtain rfl := isIdealWeight_unique h1 h1'
  obtain rfl : w = w' := h2.trans h2'.symm
  exact isTruncation_unique h3 h3'

/-- The ideal weight is at most 2·fce/fs in magnitude (40_synthesis.md R109). -/
theorem isIdealWeight_abs_le {n fce fs k : ℕ} {h : ℝ} (a : IsIdealWeight n fce fs k h) :
    |h| ≤ 2 * ((fce : ℝ) / fs) := by
  obtain ⟨a0, a1⟩ := a _ _ rfl rfl
  have hf : (0 : ℝ) ≤ (fce : ℝ) / fs := by positivity
  set o := (k : ℝ) - ((n : ℝ) - 1) / 2
  by_cases ho : o = 0
  · rw [a0 ho, abs_of_nonneg (by positivity)]
  · have hpi := Real.pi_pos
    have hpo : 0 < |π * o| := abs_pos.2 (mul_ne_zero hpi.ne' ho)
    rw [a1 ho, abs_div, div_le_iff₀ hpo]
    refine Real.abs_sin_le_abs.trans ?_
    rw [abs_mul, abs_mul, abs_mul, abs_mul π o, abs_of_nonneg hf, abs_of_nonneg hpi.le, abs_two]
    exact le_of_eq (by ring)

/-- The window lies in [0.08, 1] (40_synthesis.md R107). -/
theorem isHammingWeight_bounds {n k : ℕ} {w : ℝ} (a : IsHammingWeight n k w) : 0 ≤ w ∧ w ≤ 1 := by
  have h1 := Real.cos_le_one (2 * π * k / ((n : ℝ) - 1))
  have h2 := Real.neg_one_le_cos (2 * π * k / ((n : ℝ) - 1))
  rw [IsHammingWeight] at a
  constructor <;> rw [a] <;> linarith

/-- An exact coefficient is at most trunc(65534·fce/fs) in magnitude (40_synthesis.md R109). -/
theorem isExactCoef_abs_le {n fce fs k : ℕ} {a : ℤ} (hfs : 0 < fs) (ha : IsExactCoef n fce fs k a) :
    |a| ≤ (Machine.coefBound fce fs : ℤ) := by
  obtain ⟨h, w, h1, h2, h3⟩ := ha
  have hh := isIdealWeight_abs_le h1
  obtain ⟨w0, w1⟩ := isHammingWeight_bounds h2
  have hr := isTruncation_abs_le h3
  have hb := (natDiv_bounds (65534 * fce) fs hfs).2
  have e : ((65534 * fce : ℕ) : ℝ) / fs = 65534 * ((fce : ℝ) / fs) := by push_cast; ring
  rw [e] at hb
  rw [abs_mul, abs_mul, abs_of_nonneg w0, abs_of_pos (by norm_num : (0 : ℝ) < 32767)] at hr
  have hm : 32767 * |h| * w ≤ 65534 * ((fce : ℝ) / fs) := by nlinarith [abs_nonneg h]
  have hl : ((|a| : ℤ) : ℝ) < ((65534 * fce / fs : ℕ) : ℝ) + 1 := by push_cast [Int.cast_abs]; linarith
  have hi : |a| < ((65534 * fce / fs : ℕ) : ℤ) + 1 := by
    have h4 : ((|a| : ℤ) : ℝ) < ((((65534 * fce / fs : ℕ) : ℤ) + 1 : ℤ) : ℝ) := by push_cast; push_cast at hl; exact hl
    exact Int.cast_lt.1 h4
  exact Int.lt_add_one_iff.1 hi

/-- Tap n-1-k has the exact coefficient of tap k (40_synthesis.md R110). -/
theorem isExactCoef_mirror {n fce fs k : ℕ} {a : ℤ} (hn : 2 ≤ n) (hk : k < n) (ha : IsExactCoef n fce fs k a) :
    IsExactCoef n fce fs (n - 1 - k) a := by
  obtain ⟨h, w, h1, h2, h3⟩ := ha
  have hcast : ((n - 1 - k : ℕ) : ℝ) = (n : ℝ) - 1 - k := by
    rw [Nat.cast_sub (by omega), Nat.cast_sub (by omega)]; norm_num
  refine ⟨h, w, ?_, ?_, h3⟩
  · rintro f o rfl rfl
    obtain ⟨a0, a1⟩ := h1 _ _ rfl rfl
    have e : ((n - 1 - k : ℕ) : ℝ) - ((n : ℝ) - 1) / 2 = -((k : ℝ) - ((n : ℝ) - 1) / 2) := by rw [hcast]; ring
    rw [e]
    refine ⟨fun h0 => a0 (neg_eq_zero.1 h0), fun h0 => ?_⟩
    rw [a1 (fun h => h0 (by rw [h, neg_zero])), mul_neg, mul_neg, Real.sin_neg, neg_div_neg_eq]
  · rw [IsHammingWeight] at h2 ⊢
    have hn' : (n : ℝ) - 1 ≠ 0 := by
      have : (2 : ℝ) ≤ n := by exact_mod_cast hn
      linarith
    have e : 2 * π * ((n - 1 - k : ℕ) : ℝ) / ((n : ℝ) - 1) = 2 * π - 2 * π * k / ((n : ℝ) - 1) := by
      rw [hcast]; field_simp
    rw [e, Real.cos_two_pi_sub]; exact h2

/-- The centre tap's exact coefficient is trunc(65534·fce/fs) (40_synthesis.md R109). -/
theorem isExactCoef_centre {n fce fs : ℕ} (hn : n % 2 = 1) (hn3 : 3 ≤ n) (hfs : 0 < fs) :
    IsExactCoef n fce fs ((n - 1) / 2) (Machine.coefBound fce fs : ℤ) := by
  have hd : Machine.centreDistance n ((n - 1) / 2) = 0 := by unfold Machine.centreDistance; split <;> omega
  have h := coefGen_exact n fce fs ((n - 1) / 2) hn hn3 (by omega) hfs (by simp [Machine.coefDecided, hd])
  rwa [Machine.coefGen, hd, if_neg (by simp), Machine.coefMagnitude, if_pos rfl] at h

/-- Every tap has an exact coefficient (40_synthesis.md R108). -/
theorem isExactCoef_exists (n fce fs k : ℕ) : ∃ a, IsExactCoef n fce fs k a := by
  obtain ⟨h, hh⟩ : ∃ h, IsIdealWeight n fce fs k h := by
    by_cases ho : (k : ℝ) - ((n : ℝ) - 1) / 2 = 0
    · exact ⟨2 * ((fce : ℝ) / fs), by rintro f o rfl rfl; exact ⟨fun _ => rfl, fun h => absurd ho h⟩⟩
    · exact ⟨_, by rintro f o rfl rfl; exact ⟨fun h => absurd h ho, fun _ => rfl⟩⟩
  obtain ⟨w, hw⟩ : ∃ w, IsHammingWeight n k w := ⟨_, rfl⟩
  rcases le_or_gt 0 (32767 * h * w) with hr | hr
  · exact ⟨⌊32767 * h * w⌋, h, w, hh, hw, fun _ => ⟨Int.floor_le _, Int.lt_floor_add_one _⟩, fun h => absurd hr (not_le.2 h)⟩
  · refine ⟨⌈32767 * h * w⌉, h, w, hh, hw, fun h => absurd h (not_le.2 hr), fun _ => ⟨?_, Int.le_ceil _⟩⟩
    have := Int.ceil_lt_add_one (32767 * h * w)
    linarith

/-- Legal parameters exist for every legal N_MAX: CoefExact can be met (00_scope.md R6). -/
theorem legal_params_exist (nMax : ℕ) (h : Config.LegalNMax nMax) : ∃ P : Params, P.nMax = nMax ∧ P.Legal := by
  choose g hg using isExactCoef_exists
  refine ⟨⟨nMax, fun n fce fs k => Machine.wrap16 (g n fce fs k)⟩, rfl, h, ?_⟩
  intro n fce fs k hL _
  have h1 := isExactCoef_abs_le (by have := hL.fsLow; omega) (hg n fce fs k)
  have h2 := coefBound_le fce fs hL.fsLow hL.fceHigh
  have h3 : (Machine.wrap16 (g n fce fs k)).toInt = g n fce fs k := by
    rw [abs_le] at h1
    rw [Machine.wrap16, BitVec.toInt_ofInt, Int.bmod_eq_of_le] <;> omega
  show IsExactCoef n fce fs k (Machine.wrap16 (g n fce fs k)).toInt
  rw [h3]; exact hg n fce fs k

end Sys2Proof.Laws
end

