-- ==== Sys2Proof/Laws/State.lean ====
section
/-! SUPPORT. One lemma per field per shared update of State, each true by rfl, so that no later proof unfolds a record
update; what a STATUS write does to the fields of STATUS stands in Laws/Flags.lean. -/

namespace Sys2Proof.Machine

/-- Two states are equal when their fields are. -/
theorem State.eq_of_fields {s t : State} (h1 : s.accepted = t.accepted) (h2 : s.nReq = t.nReq) (h3 : s.fcReq = t.fcReq)
    (h4 : s.fsReq = t.fsReq) (h5 : s.n = t.n) (h6 : s.fc = t.fc) (h7 : s.fs = t.fs) (h8 : s.coef = t.coef)
    (h9 : s.hist = t.hist) (h10 : s.ptr = t.ptr) (h11 : s.lastOut = t.lastOut) (h12 : s.status = t.status)
    (h13 : s.inbox = t.inbox) (h14 : s.responses = t.responses) : s = t := by
  cases s
  cases t
  simp_all

/-! ### setCfg -/

@[simp] theorem State.setCfg_accepted (s : State) (b : Bool) : (s.setCfg b).accepted = s.accepted := rfl
@[simp] theorem State.setCfg_nReq (s : State) (b : Bool) : (s.setCfg b).nReq = s.nReq := rfl
@[simp] theorem State.setCfg_fcReq (s : State) (b : Bool) : (s.setCfg b).fcReq = s.fcReq := rfl
@[simp] theorem State.setCfg_fsReq (s : State) (b : Bool) : (s.setCfg b).fsReq = s.fsReq := rfl
@[simp] theorem State.setCfg_n (s : State) (b : Bool) : (s.setCfg b).n = s.n := rfl
@[simp] theorem State.setCfg_fc (s : State) (b : Bool) : (s.setCfg b).fc = s.fc := rfl
@[simp] theorem State.setCfg_fs (s : State) (b : Bool) : (s.setCfg b).fs = s.fs := rfl
@[simp] theorem State.setCfg_coef (s : State) (b : Bool) : (s.setCfg b).coef = s.coef := rfl
@[simp] theorem State.setCfg_hist (s : State) (b : Bool) : (s.setCfg b).hist = s.hist := rfl
@[simp] theorem State.setCfg_ptr (s : State) (b : Bool) : (s.setCfg b).ptr = s.ptr := rfl
@[simp] theorem State.setCfg_lastOut (s : State) (b : Bool) : (s.setCfg b).lastOut = s.lastOut := rfl
@[simp] theorem State.setCfg_status (s : State) (b : Bool) : (s.setCfg b).status = setBit s.status 0 b := rfl
@[simp] theorem State.setCfg_inbox (s : State) (b : Bool) : (s.setCfg b).inbox = s.inbox := rfl
@[simp] theorem State.setCfg_responses (s : State) (b : Bool) : (s.setCfg b).responses = s.responses := rfl

/-! ### setOutv -/

@[simp] theorem State.setOutv_accepted (s : State) (b : Bool) : (s.setOutv b).accepted = s.accepted := rfl
@[simp] theorem State.setOutv_nReq (s : State) (b : Bool) : (s.setOutv b).nReq = s.nReq := rfl
@[simp] theorem State.setOutv_fcReq (s : State) (b : Bool) : (s.setOutv b).fcReq = s.fcReq := rfl
@[simp] theorem State.setOutv_fsReq (s : State) (b : Bool) : (s.setOutv b).fsReq = s.fsReq := rfl
@[simp] theorem State.setOutv_n (s : State) (b : Bool) : (s.setOutv b).n = s.n := rfl
@[simp] theorem State.setOutv_fc (s : State) (b : Bool) : (s.setOutv b).fc = s.fc := rfl
@[simp] theorem State.setOutv_fs (s : State) (b : Bool) : (s.setOutv b).fs = s.fs := rfl
@[simp] theorem State.setOutv_coef (s : State) (b : Bool) : (s.setOutv b).coef = s.coef := rfl
@[simp] theorem State.setOutv_hist (s : State) (b : Bool) : (s.setOutv b).hist = s.hist := rfl
@[simp] theorem State.setOutv_ptr (s : State) (b : Bool) : (s.setOutv b).ptr = s.ptr := rfl
@[simp] theorem State.setOutv_lastOut (s : State) (b : Bool) : (s.setOutv b).lastOut = s.lastOut := rfl
@[simp] theorem State.setOutv_status (s : State) (b : Bool) : (s.setOutv b).status = setBit s.status 1 b := rfl
@[simp] theorem State.setOutv_inbox (s : State) (b : Bool) : (s.setOutv b).inbox = s.inbox := rfl
@[simp] theorem State.setOutv_responses (s : State) (b : Bool) : (s.setOutv b).responses = s.responses := rfl

/-! ### setErr -/

@[simp] theorem State.setErr_accepted (s : State) (b : Bool) : (s.setErr b).accepted = s.accepted := rfl
@[simp] theorem State.setErr_nReq (s : State) (b : Bool) : (s.setErr b).nReq = s.nReq := rfl
@[simp] theorem State.setErr_fcReq (s : State) (b : Bool) : (s.setErr b).fcReq = s.fcReq := rfl
@[simp] theorem State.setErr_fsReq (s : State) (b : Bool) : (s.setErr b).fsReq = s.fsReq := rfl
@[simp] theorem State.setErr_n (s : State) (b : Bool) : (s.setErr b).n = s.n := rfl
@[simp] theorem State.setErr_fc (s : State) (b : Bool) : (s.setErr b).fc = s.fc := rfl
@[simp] theorem State.setErr_fs (s : State) (b : Bool) : (s.setErr b).fs = s.fs := rfl
@[simp] theorem State.setErr_coef (s : State) (b : Bool) : (s.setErr b).coef = s.coef := rfl
@[simp] theorem State.setErr_hist (s : State) (b : Bool) : (s.setErr b).hist = s.hist := rfl
@[simp] theorem State.setErr_ptr (s : State) (b : Bool) : (s.setErr b).ptr = s.ptr := rfl
@[simp] theorem State.setErr_lastOut (s : State) (b : Bool) : (s.setErr b).lastOut = s.lastOut := rfl
@[simp] theorem State.setErr_status (s : State) (b : Bool) : (s.setErr b).status = setBit s.status 2 b := rfl
@[simp] theorem State.setErr_inbox (s : State) (b : Bool) : (s.setErr b).inbox = s.inbox := rfl
@[simp] theorem State.setErr_responses (s : State) (b : Bool) : (s.setErr b).responses = s.responses := rfl

/-! ### setOvf -/

@[simp] theorem State.setOvf_accepted (s : State) (b : Bool) : (s.setOvf b).accepted = s.accepted := rfl
@[simp] theorem State.setOvf_nReq (s : State) (b : Bool) : (s.setOvf b).nReq = s.nReq := rfl
@[simp] theorem State.setOvf_fcReq (s : State) (b : Bool) : (s.setOvf b).fcReq = s.fcReq := rfl
@[simp] theorem State.setOvf_fsReq (s : State) (b : Bool) : (s.setOvf b).fsReq = s.fsReq := rfl
@[simp] theorem State.setOvf_n (s : State) (b : Bool) : (s.setOvf b).n = s.n := rfl
@[simp] theorem State.setOvf_fc (s : State) (b : Bool) : (s.setOvf b).fc = s.fc := rfl
@[simp] theorem State.setOvf_fs (s : State) (b : Bool) : (s.setOvf b).fs = s.fs := rfl
@[simp] theorem State.setOvf_coef (s : State) (b : Bool) : (s.setOvf b).coef = s.coef := rfl
@[simp] theorem State.setOvf_hist (s : State) (b : Bool) : (s.setOvf b).hist = s.hist := rfl
@[simp] theorem State.setOvf_ptr (s : State) (b : Bool) : (s.setOvf b).ptr = s.ptr := rfl
@[simp] theorem State.setOvf_lastOut (s : State) (b : Bool) : (s.setOvf b).lastOut = s.lastOut := rfl
@[simp] theorem State.setOvf_status (s : State) (b : Bool) : (s.setOvf b).status = setBit s.status 3 b := rfl
@[simp] theorem State.setOvf_inbox (s : State) (b : Bool) : (s.setOvf b).inbox = s.inbox := rfl
@[simp] theorem State.setOvf_responses (s : State) (b : Bool) : (s.setOvf b).responses = s.responses := rfl

/-! ### setErrCode -/

@[simp] theorem State.setErrCode_accepted (s : State) (c : BitVec 4) : (s.setErrCode c).accepted = s.accepted := rfl
@[simp] theorem State.setErrCode_nReq (s : State) (c : BitVec 4) : (s.setErrCode c).nReq = s.nReq := rfl
@[simp] theorem State.setErrCode_fcReq (s : State) (c : BitVec 4) : (s.setErrCode c).fcReq = s.fcReq := rfl
@[simp] theorem State.setErrCode_fsReq (s : State) (c : BitVec 4) : (s.setErrCode c).fsReq = s.fsReq := rfl
@[simp] theorem State.setErrCode_n (s : State) (c : BitVec 4) : (s.setErrCode c).n = s.n := rfl
@[simp] theorem State.setErrCode_fc (s : State) (c : BitVec 4) : (s.setErrCode c).fc = s.fc := rfl
@[simp] theorem State.setErrCode_fs (s : State) (c : BitVec 4) : (s.setErrCode c).fs = s.fs := rfl
@[simp] theorem State.setErrCode_coef (s : State) (c : BitVec 4) : (s.setErrCode c).coef = s.coef := rfl
@[simp] theorem State.setErrCode_hist (s : State) (c : BitVec 4) : (s.setErrCode c).hist = s.hist := rfl
@[simp] theorem State.setErrCode_ptr (s : State) (c : BitVec 4) : (s.setErrCode c).ptr = s.ptr := rfl
@[simp] theorem State.setErrCode_lastOut (s : State) (c : BitVec 4) : (s.setErrCode c).lastOut = s.lastOut := rfl
@[simp] theorem State.setErrCode_status (s : State) (c : BitVec 4) : (s.setErrCode c).status = setCode s.status c := rfl
@[simp] theorem State.setErrCode_inbox (s : State) (c : BitVec 4) : (s.setErrCode c).inbox = s.inbox := rfl
@[simp] theorem State.setErrCode_responses (s : State) (c : BitVec 4) : (s.setErrCode c).responses = s.responses := rfl

/-! ### respond -/

@[simp] theorem State.respond_accepted (s : State) (w : Word) : (s.respond w).accepted = s.accepted := rfl
@[simp] theorem State.respond_nReq (s : State) (w : Word) : (s.respond w).nReq = s.nReq := rfl
@[simp] theorem State.respond_fcReq (s : State) (w : Word) : (s.respond w).fcReq = s.fcReq := rfl
@[simp] theorem State.respond_fsReq (s : State) (w : Word) : (s.respond w).fsReq = s.fsReq := rfl
@[simp] theorem State.respond_n (s : State) (w : Word) : (s.respond w).n = s.n := rfl
@[simp] theorem State.respond_fc (s : State) (w : Word) : (s.respond w).fc = s.fc := rfl
@[simp] theorem State.respond_fs (s : State) (w : Word) : (s.respond w).fs = s.fs := rfl
@[simp] theorem State.respond_coef (s : State) (w : Word) : (s.respond w).coef = s.coef := rfl
@[simp] theorem State.respond_hist (s : State) (w : Word) : (s.respond w).hist = s.hist := rfl
@[simp] theorem State.respond_ptr (s : State) (w : Word) : (s.respond w).ptr = s.ptr := rfl
@[simp] theorem State.respond_lastOut (s : State) (w : Word) : (s.respond w).lastOut = s.lastOut := rfl
@[simp] theorem State.respond_status (s : State) (w : Word) : (s.respond w).status = s.status := rfl
@[simp] theorem State.respond_inbox (s : State) (w : Word) : (s.respond w).inbox = s.inbox := rfl
@[simp] theorem State.respond_responses (s : State) (w : Word) : (s.respond w).responses = s.responses ++ [w] := rfl

/-! ### raise -/

@[simp] theorem State.raise_accepted (s : State) (e : ErrorCode) : (s.raise e).accepted = s.accepted := rfl
@[simp] theorem State.raise_nReq (s : State) (e : ErrorCode) : (s.raise e).nReq = s.nReq := rfl
@[simp] theorem State.raise_fcReq (s : State) (e : ErrorCode) : (s.raise e).fcReq = s.fcReq := rfl
@[simp] theorem State.raise_fsReq (s : State) (e : ErrorCode) : (s.raise e).fsReq = s.fsReq := rfl
@[simp] theorem State.raise_n (s : State) (e : ErrorCode) : (s.raise e).n = s.n := rfl
@[simp] theorem State.raise_fc (s : State) (e : ErrorCode) : (s.raise e).fc = s.fc := rfl
@[simp] theorem State.raise_fs (s : State) (e : ErrorCode) : (s.raise e).fs = s.fs := rfl
@[simp] theorem State.raise_coef (s : State) (e : ErrorCode) : (s.raise e).coef = s.coef := rfl
@[simp] theorem State.raise_hist (s : State) (e : ErrorCode) : (s.raise e).hist = s.hist := rfl
@[simp] theorem State.raise_ptr (s : State) (e : ErrorCode) : (s.raise e).ptr = s.ptr := rfl
@[simp] theorem State.raise_lastOut (s : State) (e : ErrorCode) : (s.raise e).lastOut = s.lastOut := rfl
@[simp] theorem State.raise_status (s : State) (e : ErrorCode) : (s.raise e).status = ((s.setErr true).setErrCode e.bits).status := rfl
@[simp] theorem State.raise_inbox (s : State) (e : ErrorCode) : (s.raise e).inbox = s.inbox := rfl
@[simp] theorem State.raise_responses (s : State) (e : ErrorCode) : (s.raise e).responses = s.responses ++ [errorResponse] := rfl

/-! ### clearErrors -/

@[simp] theorem State.clearErrors_accepted (s : State) : (s.clearErrors).accepted = s.accepted := rfl
@[simp] theorem State.clearErrors_nReq (s : State) : (s.clearErrors).nReq = s.nReq := rfl
@[simp] theorem State.clearErrors_fcReq (s : State) : (s.clearErrors).fcReq = s.fcReq := rfl
@[simp] theorem State.clearErrors_fsReq (s : State) : (s.clearErrors).fsReq = s.fsReq := rfl
@[simp] theorem State.clearErrors_n (s : State) : (s.clearErrors).n = s.n := rfl
@[simp] theorem State.clearErrors_fc (s : State) : (s.clearErrors).fc = s.fc := rfl
@[simp] theorem State.clearErrors_fs (s : State) : (s.clearErrors).fs = s.fs := rfl
@[simp] theorem State.clearErrors_coef (s : State) : (s.clearErrors).coef = s.coef := rfl
@[simp] theorem State.clearErrors_hist (s : State) : (s.clearErrors).hist = s.hist := rfl
@[simp] theorem State.clearErrors_ptr (s : State) : (s.clearErrors).ptr = s.ptr := rfl
@[simp] theorem State.clearErrors_lastOut (s : State) : (s.clearErrors).lastOut = s.lastOut := rfl
@[simp] theorem State.clearErrors_status (s : State) : (s.clearErrors).status = (((s.setErr false).setErrCode 0#4).setOvf false).status := rfl
@[simp] theorem State.clearErrors_inbox (s : State) : (s.clearErrors).inbox = s.inbox := rfl
@[simp] theorem State.clearErrors_responses (s : State) : (s.clearErrors).responses = s.responses := rfl

/-! ### applyReset -/

@[simp] theorem State.applyReset_accepted (s : State) : (s.applyReset).accepted = s.accepted := rfl
@[simp] theorem State.applyReset_nReq (s : State) : (s.applyReset).nReq = 0#24 := rfl
@[simp] theorem State.applyReset_fcReq (s : State) : (s.applyReset).fcReq = 0#24 := rfl
@[simp] theorem State.applyReset_fsReq (s : State) : (s.applyReset).fsReq = 0#24 := rfl
@[simp] theorem State.applyReset_n (s : State) : (s.applyReset).n = 0 := rfl
@[simp] theorem State.applyReset_fc (s : State) : (s.applyReset).fc = 0#24 := rfl
@[simp] theorem State.applyReset_fs (s : State) : (s.applyReset).fs = 0#24 := rfl
@[simp] theorem State.applyReset_coef (s : State) : (s.applyReset).coef = [] := rfl
@[simp] theorem State.applyReset_hist (s : State) : (s.applyReset).hist = [] := rfl
@[simp] theorem State.applyReset_ptr (s : State) : (s.applyReset).ptr = 0 := rfl
@[simp] theorem State.applyReset_lastOut (s : State) : (s.applyReset).lastOut = 0#16 := rfl
@[simp] theorem State.applyReset_status (s : State) : (s.applyReset).status = 0#32 := rfl
@[simp] theorem State.applyReset_inbox (s : State) : (s.applyReset).inbox = s.inbox := rfl
@[simp] theorem State.applyReset_responses (s : State) : (s.applyReset).responses = s.responses := rfl

/-! ### countAccepted -/

@[simp] theorem State.countAccepted_nReq (s : State) : s.countAccepted.nReq = s.nReq := rfl
@[simp] theorem State.countAccepted_fcReq (s : State) : s.countAccepted.fcReq = s.fcReq := rfl
@[simp] theorem State.countAccepted_fsReq (s : State) : s.countAccepted.fsReq = s.fsReq := rfl
@[simp] theorem State.countAccepted_n (s : State) : s.countAccepted.n = s.n := rfl
@[simp] theorem State.countAccepted_fc (s : State) : s.countAccepted.fc = s.fc := rfl
@[simp] theorem State.countAccepted_fs (s : State) : s.countAccepted.fs = s.fs := rfl
@[simp] theorem State.countAccepted_coef (s : State) : s.countAccepted.coef = s.coef := rfl
@[simp] theorem State.countAccepted_hist (s : State) : s.countAccepted.hist = s.hist := rfl
@[simp] theorem State.countAccepted_ptr (s : State) : s.countAccepted.ptr = s.ptr := rfl
@[simp] theorem State.countAccepted_lastOut (s : State) : s.countAccepted.lastOut = s.lastOut := rfl
@[simp] theorem State.countAccepted_status (s : State) : s.countAccepted.status = s.status := rfl
@[simp] theorem State.countAccepted_inbox (s : State) : s.countAccepted.inbox = s.inbox := rfl
@[simp] theorem State.countAccepted_responses (s : State) : s.countAccepted.responses = s.responses := rfl
@[simp] theorem State.countAccepted_accepted (s : State) : s.countAccepted.accepted = s.accepted + 1 := rfl

end Sys2Proof.Machine
end

