-- ==== Sys2Proof/Laws/Flags.lean ====
section
/-! SUPPORT. What each write of STATUS does to each of its fields (10_state.md R32), and the two status updates built from
them: the error action (60_exceptions.md R202) and CLRSTAT (42_status_readback.md R176). -/

namespace Sys2Proof.Machine

theorem getBit_setBit (w : Word) (k j : Nat) (b : Bool) (hk : k < 32) :
    getBit (setBit w k b) j = if j = k then b else getBit w j := by
  by_cases hj : j < 32
  · rcases Nat.lt_trichotomy j k with h | h | h
    · have h2 : j ≠ k := by omega
      cases b <;> simp [getBit, setBit, hj, h2, h]
    · subst h
      cases b <;> simp [getBit, setBit, hj]
    · have h2 : j ≠ k := by omega
      have h3 : ¬ j < k := by omega
      have h4 : j - k ≠ 0 := by omega
      cases b <;> simp [getBit, setBit, hj, h2, h3, h4]
  · have h2 : j ≠ k := by omega
    have h3 : 32 ≤ j := by omega
    simp [getBit, if_neg h2, BitVec.getLsbD_of_ge _ _ h3]

theorem word_ext_getBit {v w : Word} (h : ∀ j, j < 32 → getBit v j = getBit w j) : v = w :=
  BitVec.eq_of_getLsbD_eq (fun j hj => h j hj)

theorem getBit_and (v w : Word) (j : Nat) : getBit (v &&& w) j = (getBit v j && getBit w j) := BitVec.getLsbD_and

theorem getBit_setCode (w : Word) (c : BitVec 4) (j : Nat) :
    getBit (setCode w c) j =
      if 8 ≤ j ∧ j < 12 then c.getLsbD (j - 8) else getBit w j := by
  by_cases hj : j < 32
  · interval_cases j <;> simp [getBit, setCode]
  · have h1 : ¬ (8 ≤ j ∧ j < 12) := by omega
    simp [getBit, setCode, if_neg h1, BitVec.getLsbD_of_ge _ _ (Nat.le_of_not_lt hj)]

theorem getLsbD_errCode (w : Word) (j : Nat) (hj : j < 4) : (w.extractLsb' 8 4).getLsbD j = getBit w (8 + j) := by
  simp [getBit, hj]

/-! ### The fields after each write -/

@[simp] theorem State.setCfg_cfg (s : State) (b : Bool) : (s.setCfg b).cfg = b := by simp [State.cfg, getBit_setBit]
@[simp] theorem State.setCfg_outv (s : State) (b : Bool) : (s.setCfg b).outv = s.outv := by simp [State.outv, getBit_setBit]
@[simp] theorem State.setCfg_err (s : State) (b : Bool) : (s.setCfg b).err = s.err := by simp [State.err, getBit_setBit]
@[simp] theorem State.setCfg_ovf (s : State) (b : Bool) : (s.setCfg b).ovf = s.ovf := by simp [State.ovf, getBit_setBit]
@[simp] theorem State.setOutv_cfg (s : State) (b : Bool) : (s.setOutv b).cfg = s.cfg := by simp [State.cfg, getBit_setBit]
@[simp] theorem State.setOutv_outv (s : State) (b : Bool) : (s.setOutv b).outv = b := by simp [State.outv, getBit_setBit]
@[simp] theorem State.setOutv_err (s : State) (b : Bool) : (s.setOutv b).err = s.err := by simp [State.err, getBit_setBit]
@[simp] theorem State.setOutv_ovf (s : State) (b : Bool) : (s.setOutv b).ovf = s.ovf := by simp [State.ovf, getBit_setBit]
@[simp] theorem State.setErr_cfg (s : State) (b : Bool) : (s.setErr b).cfg = s.cfg := by simp [State.cfg, getBit_setBit]
@[simp] theorem State.setErr_outv (s : State) (b : Bool) : (s.setErr b).outv = s.outv := by simp [State.outv, getBit_setBit]
@[simp] theorem State.setErr_err (s : State) (b : Bool) : (s.setErr b).err = b := by simp [State.err, getBit_setBit]
@[simp] theorem State.setErr_ovf (s : State) (b : Bool) : (s.setErr b).ovf = s.ovf := by simp [State.ovf, getBit_setBit]
@[simp] theorem State.setOvf_cfg (s : State) (b : Bool) : (s.setOvf b).cfg = s.cfg := by simp [State.cfg, getBit_setBit]
@[simp] theorem State.setOvf_outv (s : State) (b : Bool) : (s.setOvf b).outv = s.outv := by simp [State.outv, getBit_setBit]
@[simp] theorem State.setOvf_err (s : State) (b : Bool) : (s.setOvf b).err = s.err := by simp [State.err, getBit_setBit]
@[simp] theorem State.setOvf_ovf (s : State) (b : Bool) : (s.setOvf b).ovf = b := by simp [State.ovf, getBit_setBit]
@[simp] theorem State.setErrCode_cfg (s : State) (c : BitVec 4) : (s.setErrCode c).cfg = s.cfg := by
  simp [State.cfg, getBit_setCode]
@[simp] theorem State.setErrCode_outv (s : State) (c : BitVec 4) : (s.setErrCode c).outv = s.outv := by
  simp [State.outv, getBit_setCode]
@[simp] theorem State.setErrCode_err (s : State) (c : BitVec 4) : (s.setErrCode c).err = s.err := by
  simp [State.err, getBit_setCode]
@[simp] theorem State.setErrCode_ovf (s : State) (c : BitVec 4) : (s.setErrCode c).ovf = s.ovf := by
  simp [State.ovf, getBit_setCode]

theorem errCode_eq_of_getBit {v w : Word} (h : ∀ j, 8 ≤ j → j < 12 → getBit v j = getBit w j) :
    v.extractLsb' 8 4 = w.extractLsb' 8 4 := by
  apply BitVec.eq_of_getLsbD_eq
  intro j hj
  rw [getLsbD_errCode _ _ hj, getLsbD_errCode _ _ hj]
  exact h _ (by omega) (by omega)

theorem errCode_setBit (w : Word) (k : Nat) (b : Bool) (hk : k < 8) :
    (setBit w k b).extractLsb' 8 4 = w.extractLsb' 8 4 := by
  apply errCode_eq_of_getBit
  intro j h1 h2
  rw [getBit_setBit _ _ _ _ (by omega), if_neg (by omega)]

@[simp] theorem State.setCfg_errCode (s : State) (b : Bool) : (s.setCfg b).errCode = s.errCode :=
  errCode_setBit _ _ _ (by decide)
@[simp] theorem State.setOutv_errCode (s : State) (b : Bool) : (s.setOutv b).errCode = s.errCode :=
  errCode_setBit _ _ _ (by decide)
@[simp] theorem State.setErr_errCode (s : State) (b : Bool) : (s.setErr b).errCode = s.errCode :=
  errCode_setBit _ _ _ (by decide)
@[simp] theorem State.setOvf_errCode (s : State) (b : Bool) : (s.setOvf b).errCode = s.errCode :=
  errCode_setBit _ _ _ (by decide)
@[simp] theorem State.setErrCode_errCode (s : State) (c : BitVec 4) : (s.setErrCode c).errCode = c := by
  apply BitVec.eq_of_getLsbD_eq
  intro j hj
  rw [State.errCode, getLsbD_errCode _ _ hj, State.setErrCode_status, getBit_setCode, if_pos (by omega)]
  congr 1; omega

theorem reserved_eq_of_getBit {v w : Word} (h : ∀ j, getBit 0xFFFFF0F0#32 j = true → getBit v j = getBit w j) :
    v &&& 0xFFFFF0F0#32 = w &&& 0xFFFFF0F0#32 := by
  apply word_ext_getBit
  intro j _
  rw [getBit_and, getBit_and]
  cases hm : getBit 0xFFFFF0F0#32 j
  · simp
  · rw [h j hm]

theorem reserved_setBit (w : Word) (k : Nat) (b : Bool) (hk : k < 4) :
    setBit w k b &&& 0xFFFFF0F0#32 = w &&& 0xFFFFF0F0#32 := by
  apply reserved_eq_of_getBit
  intro j hj
  rw [getBit_setBit _ _ _ _ (by omega), if_neg]
  rintro rfl
  interval_cases j <;> simp [getBit] at hj

@[simp] theorem State.setCfg_reservedStatus (s : State) (b : Bool) : (s.setCfg b).reservedStatus = s.reservedStatus :=
  reserved_setBit _ _ _ (by decide)
@[simp] theorem State.setOutv_reservedStatus (s : State) (b : Bool) : (s.setOutv b).reservedStatus = s.reservedStatus :=
  reserved_setBit _ _ _ (by decide)
@[simp] theorem State.setErr_reservedStatus (s : State) (b : Bool) : (s.setErr b).reservedStatus = s.reservedStatus :=
  reserved_setBit _ _ _ (by decide)
@[simp] theorem State.setOvf_reservedStatus (s : State) (b : Bool) : (s.setOvf b).reservedStatus = s.reservedStatus :=
  reserved_setBit _ _ _ (by decide)
@[simp] theorem State.setErrCode_reservedStatus (s : State) (c : BitVec 4) :
    (s.setErrCode c).reservedStatus = s.reservedStatus := by
  apply reserved_eq_of_getBit
  intro j hj
  rw [State.setErrCode_status, getBit_setCode, if_neg]
  rintro ⟨h1, h2⟩
  interval_cases j <;> simp [getBit] at hj

/-! ### The fields depend on STATUS alone -/

theorem State.cfg_congr {s t : State} (h : s.status = t.status) : s.cfg = t.cfg := by simp [State.cfg, h]
theorem State.outv_congr {s t : State} (h : s.status = t.status) : s.outv = t.outv := by simp [State.outv, h]
theorem State.err_congr {s t : State} (h : s.status = t.status) : s.err = t.err := by simp [State.err, h]
theorem State.ovf_congr {s t : State} (h : s.status = t.status) : s.ovf = t.ovf := by simp [State.ovf, h]
theorem State.errCode_congr {s t : State} (h : s.status = t.status) : s.errCode = t.errCode := by simp [State.errCode, h]
theorem State.reservedStatus_congr {s t : State} (h : s.status = t.status) : s.reservedStatus = t.reservedStatus := by
  simp [State.reservedStatus, h]

@[simp] theorem State.respond_cfg (s : State) (w : Word) : (s.respond w).cfg = s.cfg := rfl
@[simp] theorem State.respond_outv (s : State) (w : Word) : (s.respond w).outv = s.outv := rfl
@[simp] theorem State.respond_err (s : State) (w : Word) : (s.respond w).err = s.err := rfl
@[simp] theorem State.respond_ovf (s : State) (w : Word) : (s.respond w).ovf = s.ovf := rfl
@[simp] theorem State.respond_errCode (s : State) (w : Word) : (s.respond w).errCode = s.errCode := rfl
@[simp] theorem State.respond_reservedStatus (s : State) (w : Word) : (s.respond w).reservedStatus = s.reservedStatus := rfl

/-! ### The error action (60_exceptions.md R202) -/

@[simp] theorem State.raise_cfg (s : State) (e : ErrorCode) : (s.raise e).cfg = s.cfg := by simp [State.raise]
@[simp] theorem State.raise_outv (s : State) (e : ErrorCode) : (s.raise e).outv = s.outv := by simp [State.raise]
@[simp] theorem State.raise_err (s : State) (e : ErrorCode) : (s.raise e).err = true := by simp [State.raise]
@[simp] theorem State.raise_ovf (s : State) (e : ErrorCode) : (s.raise e).ovf = s.ovf := by simp [State.raise]
@[simp] theorem State.raise_errCode (s : State) (e : ErrorCode) : (s.raise e).errCode = e.bits := by simp [State.raise]
@[simp] theorem State.raise_reservedStatus (s : State) (e : ErrorCode) : (s.raise e).reservedStatus = s.reservedStatus := by
  simp [State.raise]

/-- An error writes STATUS and gives a response, and changes nothing else (60_exceptions.md R202). -/
theorem State.raise_frame (s : State) (e : ErrorCode) :
    s.raise e = { s with status := (s.raise e).status, responses := s.responses ++ [errorResponse] } := rfl

theorem ErrorCode.bits_ne_zero (e : ErrorCode) : e.bits ≠ 0#4 := by cases e <;> decide
theorem ErrorCode.bits_le (e : ErrorCode) : e.bits ≤ 11#4 := by cases e <;> decide

/-! ### CLRSTAT (42_status_readback.md R176) -/

@[simp] theorem State.clearErrors_cfg (s : State) : s.clearErrors.cfg = s.cfg := by simp [State.clearErrors]
@[simp] theorem State.clearErrors_outv (s : State) : s.clearErrors.outv = s.outv := by simp [State.clearErrors]
@[simp] theorem State.clearErrors_err (s : State) : s.clearErrors.err = false := by simp [State.clearErrors]
@[simp] theorem State.clearErrors_ovf (s : State) : s.clearErrors.ovf = false := by simp [State.clearErrors]
@[simp] theorem State.clearErrors_errCode (s : State) : s.clearErrors.errCode = 0#4 := by simp [State.clearErrors]
@[simp] theorem State.clearErrors_reservedStatus (s : State) : s.clearErrors.reservedStatus = s.reservedStatus := by
  simp [State.clearErrors]

/-! ### Accepting a command writes no STATUS -/

@[simp] theorem State.countAccepted_cfg (s : State) : s.countAccepted.cfg = s.cfg := rfl
@[simp] theorem State.countAccepted_outv (s : State) : s.countAccepted.outv = s.outv := rfl
@[simp] theorem State.countAccepted_err (s : State) : s.countAccepted.err = s.err := rfl
@[simp] theorem State.countAccepted_ovf (s : State) : s.countAccepted.ovf = s.ovf := rfl
@[simp] theorem State.countAccepted_errCode (s : State) : s.countAccepted.errCode = s.errCode := rfl
@[simp] theorem State.countAccepted_reservedStatus (s : State) : s.countAccepted.reservedStatus = s.reservedStatus := rfl

/-! ### STATUS after reset (70_reset_and_hazards.md R231) -/

@[simp] theorem State.applyReset_cfg (s : State) : s.applyReset.cfg = false := by
  simp [State.cfg, getBit]
@[simp] theorem State.applyReset_outv (s : State) : s.applyReset.outv = false := by
  simp [State.outv, getBit]
@[simp] theorem State.applyReset_err (s : State) : s.applyReset.err = false := by
  simp [State.err, getBit]
@[simp] theorem State.applyReset_ovf (s : State) : s.applyReset.ovf = false := by
  simp [State.ovf, getBit]
@[simp] theorem State.applyReset_errCode (s : State) : s.applyReset.errCode = 0#4 := by
  simp [State.errCode]
@[simp] theorem State.applyReset_reservedStatus (s : State) : s.applyReset.reservedStatus = 0#32 := by
  simp [State.reservedStatus]

/-- STATUS is determined by its fields and its reserved bits. -/
theorem status_ext {s t : State} (h0 : s.cfg = t.cfg) (h1 : s.outv = t.outv) (h2 : s.err = t.err) (h3 : s.ovf = t.ovf)
    (hc : s.errCode = t.errCode) (hr : s.reservedStatus = t.reservedStatus) : s.status = t.status := by
  apply word_ext_getBit
  intro j hj
  have key : ∀ i, getBit 0xFFFFF0F0#32 i = true → getBit s.status i = getBit t.status i := by
    intro i hi
    have := congrArg (fun w => getBit w i) hr
    simpa [State.reservedStatus, getBit_and, hi] using this
  have code : ∀ i, i < 4 → getBit s.status (8 + i) = getBit t.status (8 + i) := by
    intro i hi
    rw [← getLsbD_errCode _ _ hi, ← getLsbD_errCode _ _ hi]
    exact congrArg (fun w => BitVec.getLsbD w i) hc
  by_cases hm : getBit 0xFFFFF0F0#32 j = true
  · exact key j hm
  · interval_cases j <;>
      first
      | exact h0 | exact h1 | exact h2 | exact h3
      | exact code 0 (by decide) | exact code 1 (by decide) | exact code 2 (by decide) | exact code 3 (by decide)
      | exact absurd (by simp [getBit]) hm

end Sys2Proof.Machine
end

