-- ==== Sys2Proof/Laws/Memory.lean ====
section
/-! SUPPORT. The storage spaces: a read after a write, the canonical form kept by every operation, and the slots that are
listed (20_memory.md R50, 00_scope.md R10). -/

namespace Sys2Proof.Machine

@[simp] theorem Memory.read_nil (i : Nat) : Memory.read [] i = 0#16 := rfl

theorem Memory.read_cons (a : Nat) (v : SInt16) (m : Memory) (i : Nat) :
    Memory.read ((a, v) :: m) i = if a = i then v else Memory.read m i := rfl

/-- A canonical list: its head is below every other entry and not 0, and the rest is canonical. -/
theorem Memory.wf_cons {a : Nat} {v : SInt16} {m : Memory} :
    Memory.wf ((a, v) :: m) = true ↔ v ≠ 0#16 ∧ (∀ c ∈ m, a < c.1) ∧ Memory.wf m = true := by
  simp [Memory.wf, and_assoc]

/-- A slot below every listed one reads 0. -/
theorem Memory.read_below {m : Memory} {i : Nat} (h : ∀ c ∈ m, i < c.1) : Memory.read m i = 0#16 := by
  induction m with
  | nil => rfl
  | cons c m ih =>
    obtain ⟨a, v⟩ := c
    have h1 : i < a := h (a, v) (by simp)
    rw [Memory.read_cons, if_neg (by omega), ih (fun c hc => h c (by simp [hc]))]

/-- Every entry after a write is the written slot or an entry from before. -/
theorem Memory.mem_write {m : Memory} {i : Nat} {v : SInt16} {c : Nat × SInt16} (h : c ∈ Memory.write m i v) :
    c = (i, v) ∨ c ∈ m := by
  induction m with
  | nil =>
    simp only [Memory.write] at h
    split at h <;> simp_all
  | cons d m ih =>
    obtain ⟨a, u⟩ := d
    simp only [Memory.write] at h
    split at h
    · split at h
      · exact .inr h
      · simpa using h
    · split at h
      · split at h
        · exact .inr (List.mem_cons_of_mem _ h)
        · rcases List.mem_cons.1 h with h | h
          · exact .inl h
          · exact .inr (List.mem_cons_of_mem _ h)
      · rcases List.mem_cons.1 h with h | h
        · exact .inr (by simp [h])
        · rcases ih h with h | h
          · exact .inl h
          · exact .inr (List.mem_cons_of_mem _ h)

/-- A write keeps the canonical form. -/
theorem Memory.wf_write {m : Memory} (hm : m.wf = true) (i : Nat) (v : SInt16) : (Memory.write m i v).wf = true := by
  induction m with
  | nil =>
    simp only [Memory.write]
    split
    · rfl
    · rename_i h; exact Memory.wf_cons.2 ⟨h, by simp, rfl⟩
  | cons d m ih =>
    obtain ⟨a, u⟩ := d
    obtain ⟨h1, h2, h3⟩ := Memory.wf_cons.1 hm
    simp only [Memory.write]
    split
    · rename_i hia
      split
      · exact hm
      · rename_i hv
        refine Memory.wf_cons.2 ⟨hv, fun c hc => ?_, hm⟩
        rcases List.mem_cons.1 hc with rfl | hc
        · exact hia
        · exact Nat.lt_trans hia (h2 c hc)
    · split
      · rename_i hia
        subst hia
        split
        · exact h3
        · rename_i hv; exact Memory.wf_cons.2 ⟨hv, h2, h3⟩
      · refine Memory.wf_cons.2 ⟨h1, fun c hc => ?_, ih h3⟩
        rcases Memory.mem_write hc with rfl | hc
        · simp only; omega
        · exact h2 c hc

/-- A read after a write: the written slot has the written value, every other slot is as before. -/
theorem Memory.read_write {m : Memory} (hm : m.wf = true) (i : Nat) (v : SInt16) (j : Nat) :
    Memory.read (Memory.write m i v) j = if j = i then v else Memory.read m j := by
  induction m with
  | nil =>
    simp only [Memory.write]
    by_cases hv : v = 0#16
    · simp [hv]
    · rw [if_neg hv, Memory.read_cons]
      by_cases h : j = i
      · simp [h]
      · rw [if_neg h, if_neg (Ne.symm h)]
  | cons d m ih =>
    obtain ⟨a, u⟩ := d
    obtain ⟨_, h2, h3⟩ := Memory.wf_cons.1 hm
    simp only [Memory.write]
    by_cases hia : i < a
    · rw [if_pos hia]
      have hlow : Memory.read ((a, u) :: m) i = 0#16 := Memory.read_below (fun c hc => by
        rcases List.mem_cons.1 hc with rfl | hc
        · exact hia
        · exact Nat.lt_trans hia (h2 c hc))
      by_cases hv : v = 0#16
      · rw [if_pos hv]
        by_cases h : j = i
        · rw [if_pos h, h, hlow, hv]
        · rw [if_neg h]
      · rw [if_neg hv, Memory.read_cons]
        by_cases h : j = i
        · simp [h]
        · rw [if_neg h, if_neg (Ne.symm h)]
    · rw [if_neg hia]
      by_cases he : i = a
      · subst he
        rw [if_pos rfl]
        have hlow : Memory.read m i = 0#16 := Memory.read_below h2
        by_cases hv : v = 0#16
        · rw [if_pos hv]
          by_cases h : j = i
          · rw [if_pos h, h, hlow, hv]
          · rw [if_neg h, Memory.read_cons, if_neg (Ne.symm h)]
        · rw [if_neg hv, Memory.read_cons, Memory.read_cons]
          by_cases h : j = i
          · simp [h]
          · rw [if_neg h, if_neg (Ne.symm h), if_neg (Ne.symm h)]
      · rw [if_neg he, Memory.read_cons, Memory.read_cons, ih h3]
        by_cases h : a = j
        · have : j ≠ i := by omega
          simp [h, this]
        · rw [if_neg h, if_neg h]

/-- Filling keeps the canonical form. -/
theorem Memory.wf_fill (f : Nat → SInt16) (n : Nat) {m : Memory} (hm : m.wf = true) : (Memory.fill f n m).wf = true := by
  induction n generalizing m with
  | zero => exact hm
  | succ n ih => exact ih (Memory.wf_write hm _ _)

/-- A read after filling slots 0 to n-1. -/
theorem Memory.read_fill (f : Nat → SInt16) (n : Nat) {m : Memory} (hm : m.wf = true) (j : Nat) :
    Memory.read (Memory.fill f n m) j = if j < n then f j else Memory.read m j := by
  induction n generalizing m with
  | zero => rfl
  | succ n ih =>
    rw [Memory.fill, ih (Memory.wf_write hm _ _), Memory.read_write hm]
    by_cases h1 : j < n
    · rw [if_pos h1, if_pos (by omega)]
    · rw [if_neg h1]
      by_cases h2 : j = n
      · rw [if_pos h2, if_pos (by omega), h2]
      · rw [if_neg h2, if_neg (by omega)]

/-- Writing a slot of a space of `k` slots lists no slot at or above `k`. -/
theorem Memory.slots_write {m : Memory} {k i : Nat} (hm : ∀ c ∈ m, c.1 < k) (hi : i < k) (v : SInt16) :
    ∀ c ∈ Memory.write m i v, c.1 < k := by
  intro c hc
  rcases Memory.mem_write hc with rfl | hc
  · exact hi
  · exact hm c hc

/-- Filling within a space of `k` slots lists no slot at or above `k`. -/
theorem Memory.slots_fill (f : Nat → SInt16) {n k : Nat} {m : Memory} (hm : ∀ c ∈ m, c.1 < k) (hn : n ≤ k) :
    ∀ c ∈ Memory.fill f n m, c.1 < k := by
  induction n generalizing m with
  | zero => exact hm
  | succ n ih => exact ih (Memory.slots_write hm (by omega) _) (by omega)

/-- After reset both spaces have the canonical form: nothing is listed (10_state.md R42, log 3). -/
theorem State.reset_memory_wf : State.reset.coef.wf = true ∧ State.reset.hist.wf = true := ⟨rfl, rfl⟩

/-- Two canonical spaces that read alike are equal: equal contents are equal data. -/
theorem Memory.ext_read {m k : Memory} (hm : m.wf = true) (hk : k.wf = true) (h : ∀ i, m.read i = k.read i) : m = k := by
  induction m generalizing k with
  | nil =>
    cases k with
    | nil => rfl
    | cons c k =>
      obtain ⟨a, v⟩ := c
      have := h a
      rw [Memory.read_nil, Memory.read_cons, if_pos rfl] at this
      exact absurd this.symm (Memory.wf_cons.1 hk).1
  | cons d m ih =>
    obtain ⟨a, u⟩ := d
    obtain ⟨h1, h2, h3⟩ := Memory.wf_cons.1 hm
    have ha := h a
    rw [Memory.read_cons, if_pos rfl] at ha
    cases k with
    | nil => exact absurd ha h1
    | cons c k =>
      obtain ⟨b, v⟩ := c
      obtain ⟨k1, k2, k3⟩ := Memory.wf_cons.1 hk
      have hb := h b
      rw [Memory.read_cons (i := b), Memory.read_cons (a := b), if_pos rfl] at hb
      rw [Memory.read_cons] at ha
      have hab : a = b := by
        rcases Nat.lt_trichotomy a b with hlt | heq | hgt
        · exfalso
          rw [if_neg (by omega), Memory.read_below (fun c hc => Nat.lt_trans hlt (k2 c hc))] at ha
          exact h1 ha
        · exact heq
        · exfalso
          rw [if_neg (by omega), Memory.read_below (fun c hc => Nat.lt_trans hgt (h2 c hc))] at hb
          exact k1 hb.symm
      subst hab
      rw [if_pos rfl] at ha
      subst ha
      congr 1
      apply ih h3 k3
      intro i
      by_cases hi : a = i
      · subst hi
        rw [Memory.read_below h2, Memory.read_below k2]
      · have := h i
        rwa [Memory.read_cons, Memory.read_cons, if_neg hi, if_neg hi] at this

end Sys2Proof.Machine
end

