-- ==== Sys2Proof/Laws/Convolution.lean ====
section
/-! SUPPORT. The multiply-accumulate pass of PUSH in closed form (41_convolution.md R145, R146), the output extraction
(R148), and everything a PUSH writes (R154). -/

namespace Sys2Proof.Machine

/-- Adding with wrap32 to a wrapped sum is wrapping the exact sum (41_convolution.md R144, R146). -/
theorem wrap32_add (a b : Int) : wrap32 ((wrap32 a).toInt + b) = wrap32 (a + b) := by
  rw [wrap32, wrap32, wrap32, BitVec.ofInt_add, BitVec.ofInt_toInt, ← BitVec.ofInt_add]

/-- Shifting ACC left by one and taking the high half is wrap16(floor(S / 2^15)) (41_convolution.md R146, R148). -/
theorem extractOutput_wrap32 (sum : Int) : extractOutput (wrap32 sum) = firOutput sum := by
  apply BitVec.eq_of_toNat_eq
  simp only [extractOutput, firOutput, wrap32, wrap16, BitVec.extractLsb'_toNat, BitVec.toNat_ofInt, BitVec.toInt_ofInt,
    Nat.shiftRight_eq_div_pow]
  simp only [Int.bmod]
  omega

/-- The pass from tap `i` on: what is left in S, ACC and q. -/
theorem traverse_spec (coef hist : Memory) (n p : Nat) : ∀ count i (m : Mac), 1 ≤ i → m.q = (p + (i - 1)) % n →
    m.acc = wrap32 m.sum →
    (traverse coef hist n count i m).q = (p + (i - 1) + count) % n ∧
    (traverse coef hist n count i m).sum = m.sum +
      ((List.range count).map (fun j => tapProduct (hist.read ((p + (i + j)) % n)) (coef.read (i + j)))).sum ∧
    (traverse coef hist n count i m).acc = wrap32 (traverse coef hist n count i m).sum := by
  intro count
  induction count with
  | zero => intro i m hi hq ha; simp [traverse, hq, ha]
  | succ count ih =>
    intro i m hi hq ha
    have hq' : (m.q + 1) % n = (p + i) % n := by
      rw [hq, Nat.mod_add_mod]; congr 1; omega
    obtain ⟨h1, h2, h3⟩ := ih (i + 1) (tap coef hist i (advance n m)) (by omega)
      (by simp only [tap, advance]; rw [hq']; congr 1)
      (by simp only [tap, advance]; rw [ha, wrap32_add])
    simp only [traverse]
    refine ⟨?_, ?_, h3⟩
    · rw [h1]; congr 1; omega
    · rw [h2, List.range_succ_eq_map, List.map_cons, List.sum_cons, List.map_map]
      simp only [tap, advance, hq', Nat.add_zero, Function.comp_def, Nat.succ_eq_add_one]
      rw [Int.add_assoc]
      congr 2
      apply congrArg
      apply List.map_congr_left
      intro j _
      rw [show i + 1 + j = i + (j + 1) by omega]

/-- The pass of one PUSH in closed form (41_convolution.md R145, R146). -/
theorem macPass_spec (coef hist : Memory) (n p : Nat) (hp : p < n) :
    (macPass coef hist n p).q = (p + n - 1) % n ∧
    (macPass coef hist n p).sum = slotSum coef hist n p ∧
    (macPass coef hist n p).acc = wrap32 (slotSum coef hist n p) := by
  obtain ⟨k, rfl⟩ : ∃ k, n = k + 1 := ⟨n - 1, by omega⟩
  have hacc : (tap coef hist 0 { acc := 0#32, sum := 0, q := p }).acc =
      wrap32 (tap coef hist 0 { acc := 0#32, sum := 0, q := p }).sum := by simp [tap]
  obtain ⟨h1, h2, h3⟩ := traverse_spec coef hist (k + 1) p k 1 (tap coef hist 0 { acc := 0#32, sum := 0, q := p }) le_rfl
    (by simp [tap, Nat.mod_eq_of_lt hp]) hacc
  have hsum : (macPass coef hist (k + 1) p).sum = slotSum coef hist (k + 1) p := by
    show (traverse coef hist (k + 1) k 1 _).sum = _
    rw [h2, slotSum, List.range_succ_eq_map, List.map_cons, List.sum_cons, List.map_map]
    simp only [tap, tapProduct, Nat.add_zero, Nat.mod_eq_of_lt hp, Int.zero_add, Function.comp_def, Nat.succ_eq_add_one]
    congr 1
    · exact Int.mul_comm _ _
    · apply congrArg
      apply List.map_congr_left
      intro j _
      rw [show 1 + j = j + 1 by omega]
      exact Int.mul_comm _ _
  refine ⟨?_, hsum, ?_⟩
  · show (traverse coef hist (k + 1) k 1 _).q = _
    rw [h1]; congr 1
  · rw [← hsum]; exact h3

/-- The traversal reads the written slot at its first tap only (41_convolution.md R145). -/
theorem ring_index_eq_iff {p i n : Nat} (hp : p < n) (hi : i < n) : (p + i) % n = p ↔ i = 0 := by
  constructor
  · intro h
    rcases Nat.lt_or_ge (p + i) n with hl | hl
    · rw [Nat.mod_eq_of_lt hl] at h; omega
    · rw [Nat.mod_eq_sub_mod hl, Nat.mod_eq_of_lt (by omega)] at h; omega
  · rintro rfl; exact Nat.mod_eq_of_lt hp

/-- The sum over the history after the write, in terms of the state before it (41_convolution.md R142, R146). -/
theorem slotSum_push (x : SInt16) (s : State) (hp : s.ptr < s.n) (hw : s.hist.wf = true) :
    slotSum s.coef (s.hist.write s.ptr x) s.n s.ptr = pushSum x s := by
  unfold slotSum pushSum
  apply congrArg
  apply List.map_congr_left
  intro i hi
  rw [List.mem_range] at hi
  simp only [Memory.read_write hw, ring_index_eq_iff hp hi]

/-! ### What a PUSH writes (41_convolution.md R141, R154) -/

@[simp] theorem pushSample_accepted (x : SInt16) (s : State) : (pushSample x s).accepted = s.accepted := by
  simp only [pushSample]; split <;> rfl
@[simp] theorem pushSample_nReq (x : SInt16) (s : State) : (pushSample x s).nReq = s.nReq := by
  simp only [pushSample]; split <;> rfl
@[simp] theorem pushSample_fcReq (x : SInt16) (s : State) : (pushSample x s).fcReq = s.fcReq := by
  simp only [pushSample]; split <;> rfl
@[simp] theorem pushSample_fsReq (x : SInt16) (s : State) : (pushSample x s).fsReq = s.fsReq := by
  simp only [pushSample]; split <;> rfl
@[simp] theorem pushSample_n (x : SInt16) (s : State) : (pushSample x s).n = s.n := by
  simp only [pushSample]; split <;> rfl
@[simp] theorem pushSample_fc (x : SInt16) (s : State) : (pushSample x s).fc = s.fc := by
  simp only [pushSample]; split <;> rfl
@[simp] theorem pushSample_fs (x : SInt16) (s : State) : (pushSample x s).fs = s.fs := by
  simp only [pushSample]; split <;> rfl
@[simp] theorem pushSample_coef (x : SInt16) (s : State) : (pushSample x s).coef = s.coef := by
  simp only [pushSample]; split <;> rfl
@[simp] theorem pushSample_hist (x : SInt16) (s : State) : (pushSample x s).hist = s.hist.write s.ptr x := by
  simp only [pushSample]; split <;> rfl
@[simp] theorem pushSample_inbox (x : SInt16) (s : State) : (pushSample x s).inbox = s.inbox := by
  simp only [pushSample]; split <;> rfl
@[simp] theorem pushSample_responses (x : SInt16) (s : State) : (pushSample x s).responses = s.responses := by
  simp only [pushSample]; split <;> rfl
theorem pushSample_ptr (x : SInt16) (s : State) :
    (pushSample x s).ptr = (macPass s.coef (s.hist.write s.ptr x) s.n s.ptr).q := by
  simp only [pushSample]; split <;> rfl
theorem pushSample_lastOut (x : SInt16) (s : State) :
    (pushSample x s).lastOut = extractOutput (macPass s.coef (s.hist.write s.ptr x) s.n s.ptr).acc := by
  simp only [pushSample]; split <;> rfl
@[simp] theorem pushSample_cfg (x : SInt16) (s : State) : (pushSample x s).cfg = s.cfg := by
  simp only [pushSample]; split <;> simp <;> rfl
@[simp] theorem pushSample_outv (x : SInt16) (s : State) : (pushSample x s).outv = true := by
  simp only [pushSample]; split <;> simp
@[simp] theorem pushSample_err (x : SInt16) (s : State) : (pushSample x s).err = s.err := by
  simp only [pushSample]; split <;> simp <;> rfl
@[simp] theorem pushSample_errCode (x : SInt16) (s : State) : (pushSample x s).errCode = s.errCode := by
  simp only [pushSample]; split <;> simp <;> rfl
@[simp] theorem pushSample_reservedStatus (x : SInt16) (s : State) :
    (pushSample x s).reservedStatus = s.reservedStatus := by
  simp only [pushSample]; split <;> simp <;> rfl
theorem pushSample_ovf (x : SInt16) (s : State) :
    (pushSample x s).ovf = (outOfRange (macPass s.coef (s.hist.write s.ptr x) s.n s.ptr).sum || s.ovf) := by
  simp only [pushSample]
  split
  · rename_i h; simp [h]
  · rename_i h
    simp only [Bool.not_eq_true] at h
    rw [h, Bool.false_or, State.setOutv_ovf]; rfl

end Sys2Proof.Machine
end

