-- ==== Sys2Proof/Laws/Decode.lean ====
section
/-! SUPPORT. The decoder's tables: opcodes and operations name each other, selectors and their bits name each other, and
the fields of an encoded word (30_encoding.md R76, R77, R81). -/

namespace Sys2Proof

/-- Every operation has the row it names. -/
theorem opOfOpcode_opcode (o : Op) : opOfOpcode o.opcode = some o := by cases o <;> decide

/-- An opcode value stands for at most the operation that has it. -/
theorem opcode_of_opOfOpcode {b : BitVec 8} {o : Op} (h : opOfOpcode b = some o) : o.opcode = b := by
  have := List.find?_some h
  simpa using this

theorem opOfOpcode_eq_some_iff {b : BitVec 8} {o : Op} : opOfOpcode b = some o ↔ o.opcode = b :=
  ⟨opcode_of_opOfOpcode, fun h => h ▸ opOfOpcode_opcode o⟩

theorem opOfOpcode_eq_none_iff {b : BitVec 8} : opOfOpcode b = none ↔ ∀ o : Op, o.opcode ≠ b := by
  constructor
  · intro h o ho
    rw [← ho, opOfOpcode_opcode] at h
    exact Option.some_ne_none _ h
  · intro h
    cases hb : opOfOpcode b with
    | none => rfl
    | some o => exact absurd (opcode_of_opOfOpcode hb) (h o)

@[simp] theorem Selector.ofBits_toBits (sel : Selector) : Selector.ofBits sel.toBits = sel := by cases sel <;> rfl

@[simp] theorem Selector.toBits_ofBits (b : BitVec 3) : (Selector.ofBits b).toBits = b := by revert b; decide

/-- A word is its opcode field above its operand field (30_encoding.md R76). -/
theorem word_eq_fields (w : Word) : opcodeField w ++ operandField w = w := by
  apply BitVec.eq_of_getLsbD_eq
  intro j hj
  rw [BitVec.getLsbD_append]
  by_cases h : j < 24
  · simp [operandField, h]
  · simp [opcodeField, h, show j - 24 < 8 by omega, show 24 + (j - 24) = j by omega]

/-- The opcode field of an appended word. -/
@[simp] theorem opcodeField_append (a : BitVec 8) (b : BitVec 24) : opcodeField (a ++ b) = a := by
  apply BitVec.eq_of_getLsbD_eq
  intro j hj
  have h := BitVec.getLsbD_append (x := a) (y := b) (i := 24 + j)
  rw [if_neg (by omega), Nat.add_sub_cancel_left] at h
  rw [opcodeField, BitVec.getLsbD_extractLsb', decide_eq_true hj, Bool.true_and]
  exact h

/-- The operand field of an appended word. -/
@[simp] theorem operandField_append (a : BitVec 8) (b : BitVec 24) : operandField (a ++ b) = b := by
  apply BitVec.eq_of_getLsbD_eq
  intro j hj
  have h := BitVec.getLsbD_append (x := a) (y := b) (i := j)
  rw [if_pos hj] at h
  rw [operandField, BitVec.getLsbD_extractLsb', decide_eq_true hj, Bool.true_and, Nat.zero_add]
  exact h

/-- The operand's parts are parts of the operand field. -/
theorem u24Operand_eq (w : Word) : u24Operand w = operandField w := rfl

theorem low16Operand_eq (w : Word) : low16Operand w = (operandField w).extractLsb' 0 16 := by
  apply BitVec.eq_of_getLsbD_eq
  intro j hj
  simp [low16Operand, operandField, hj]

theorem selOperand_eq (w : Word) : selOperand w = (operandField w).extractLsb' 0 3 := by
  apply BitVec.eq_of_getLsbD_eq
  intro j hj
  simp [selOperand, operandField, hj]

/-- The reserved bits of a form, as parts of the operand field (30_encoding.md R77). -/
theorem reservedClear_eq (f : Form) (w : Word) :
    f.reservedClear w = match f with
      | .none  => operandField w == 0#24
      | .u24   => true
      | .s16   => (operandField w).extractLsb' 16 8 == 0#8
      | .idx16 => (operandField w).extractLsb' 16 8 == 0#8
      | .sel3  => (operandField w).extractLsb' 3 21 == 0#21 := by
  have h8 : w.extractLsb' 16 8 = (operandField w).extractLsb' 16 8 := by
    apply BitVec.eq_of_getLsbD_eq
    intro j hj
    simp [operandField, hj]
  have h21 : w.extractLsb' 3 21 = (operandField w).extractLsb' 3 21 := by
    apply BitVec.eq_of_getLsbD_eq
    intro j hj
    simp [operandField, hj]
  unfold Form.reservedClear
  rw [h8, h21]
  rfl

end Sys2Proof
end

