-- ==== Sys2Proof/Laws/PerInstr.lean ====
section
/-! SUPPORT. One lemma per constructor of Instr: the fields of its word (30_encoding.md R76, R77) and its row of the opcode
map (R81). -/

namespace Sys2Proof.Laws

/-- The fields of an instruction's word, and its reserved bits clear. -/
def EncodedFields.Statement (i : Instr) : Prop :=
  opcodeField (encode i) = i.op.opcode ∧ operandField (encode i) = i.operand ∧ i.op.form.reservedClear (encode i) = true

/-- The fields of the word follow from its being opcode above operand; the reserved bits are read off the operand. -/
theorem encodedFields_of_operand (i : Instr)
    (h : (match i.op.form with
      | .none  => i.operand == 0#24
      | .u24   => true
      | .s16   => i.operand.extractLsb' 16 8 == 0#8
      | .idx16 => i.operand.extractLsb' 16 8 == 0#8
      | .sel3  => i.operand.extractLsb' 3 21 == 0#21) = true) : EncodedFields.Statement i := by
  have h1 : opcodeField (encode i) = i.op.opcode := opcodeField_append _ _
  have h2 : operandField (encode i) = i.operand := operandField_append _ _
  refine ⟨h1, h2, ?_⟩
  rw [reservedClear_eq, h2]
  exact h

theorem extract_high8 (x : BitVec 16) : (0#8 ++ x : BitVec 24).extractLsb' 16 8 = 0#8 := by
  apply BitVec.eq_of_getLsbD_eq
  intro j hj
  have h := BitVec.getLsbD_append (x := 0#8) (y := x) (i := 16 + j)
  rw [if_neg (by omega)] at h
  rw [BitVec.getLsbD_extractLsb', decide_eq_true hj, Bool.true_and, BitVec.getLsbD_zero]
  exact h.trans (BitVec.getLsbD_zero)

theorem extract_high21 (x : BitVec 3) : (0#21 ++ x : BitVec 24).extractLsb' 3 21 = 0#21 := by
  apply BitVec.eq_of_getLsbD_eq
  intro j hj
  have h := BitVec.getLsbD_append (x := 0#21) (y := x) (i := 3 + j)
  rw [if_neg (by omega)] at h
  rw [BitVec.getLsbD_extractLsb', decide_eq_true hj, Bool.true_and, BitVec.getLsbD_zero]
  exact h.trans (BitVec.getLsbD_zero)

theorem EncodedFields.nop : EncodedFields.Statement .nop := encodedFields_of_operand _ rfl
theorem EncodedFields.setn (u : UInt24) : EncodedFields.Statement (.setn u) := encodedFields_of_operand _ rfl
theorem EncodedFields.setfc (u : UInt24) : EncodedFields.Statement (.setfc u) := encodedFields_of_operand _ rfl
theorem EncodedFields.setfs (u : UInt24) : EncodedFields.Statement (.setfs u) := encodedFields_of_operand _ rfl
theorem EncodedFields.synth : EncodedFields.Statement .synth := encodedFields_of_operand _ rfl
theorem EncodedFields.push (x : SInt16) : EncodedFields.Statement (.push x) :=
  encodedFields_of_operand _ (by simp only [Instr.op, Op.form, Instr.operand, extract_high8]; rfl)
theorem EncodedFields.last : EncodedFields.Statement .last := encodedFields_of_operand _ rfl
theorem EncodedFields.rdstat : EncodedFields.Statement .rdstat := encodedFields_of_operand _ rfl
theorem EncodedFields.rdcfg (sel : Selector) : EncodedFields.Statement (.rdcfg sel) :=
  encodedFields_of_operand _ (by simp only [Instr.op, Op.form, Instr.operand, extract_high21]; rfl)
theorem EncodedFields.rdcoef (i : BitVec 16) : EncodedFields.Statement (.rdcoef i) :=
  encodedFields_of_operand _ (by simp only [Instr.op, Op.form, Instr.operand, extract_high8]; rfl)
theorem EncodedFields.rdhist (i : BitVec 16) : EncodedFields.Statement (.rdhist i) :=
  encodedFields_of_operand _ (by simp only [Instr.op, Op.form, Instr.operand, extract_high8]; rfl)
theorem EncodedFields.clrstat : EncodedFields.Statement .clrstat := encodedFields_of_operand _ rfl

end Sys2Proof.Laws
end

