-- ==== Sys2Proof/Laws/Synthesis.lean ====
section
/-! SUPPORT. What the validation of SYNTH says (40_synthesis.md R111) and everything its construction writes (R112). -/

namespace Sys2Proof.Machine

theorem normalizeWindow_odd (nreq : Nat) : normalizeWindow nreq % 2 = 1 := by unfold normalizeWindow; split <;> omega

/-- The validation passes exactly on the legal requests (40_synthesis.md R111). -/
theorem validate_eq_none_iff (nMax nreq fc fs : Nat) : validate nMax nreq fc fs = none ↔
    nreq ≠ 0 ∧ fs ≠ 0 ∧ fc ≠ 0 ∧ normalizeWindow nreq ≠ 1 ∧ normalizeWindow nreq ≤ nMax ∧ 0 < clampCutoff fc fs := by
  unfold validate
  repeat' split
  all_goals simp_all

/-- The clamped cutoff is positive exactly when the sample frequency is at least 4 and the request is not 0
(40_synthesis.md R104, R111). -/
theorem clampCutoff_pos_iff (fc fs : Nat) : 0 < clampCutoff fc fs ↔ 4 ≤ fs ∧ fc ≠ 0 := by
  unfold clampCutoff clampLimit; split <;> omega

/-- The clamped cutoff in natural numbers (40_synthesis.md R104). -/
theorem clampCutoff_toNat (fc fs : Nat) (hfs : 4 ≤ fs) :
    (clampCutoff fc fs).toNat = if fs / 2 - 1 < fc then fs / 2 - 1 else fc := by
  unfold clampCutoff clampLimit; split <;> split <;> omega

/-- A validated request gives a legal effective configuration (10_state.md R25). -/
theorem legal_of_validate {nMax nreq fc fs : Nat} (h : validate nMax nreq fc fs = none) :
    LegalConfig nMax (normalizeWindow nreq) (clampCutoff fc fs).toNat fs := by
  obtain ⟨h1, h2, h3, h4, h5, h6⟩ := (validate_eq_none_iff _ _ _ _).1 h
  have hodd := normalizeWindow_odd nreq
  have h7 := (clampCutoff_pos_iff fc fs).1 h6
  have h8 := clampCutoff_toNat fc fs h7.1
  refine ⟨hodd, by omega, h5, h7.1, by omega, ?_⟩
  rw [h8]; split <;> omega

/-! ### What the construction writes (40_synthesis.md R112) -/

@[simp] theorem construct_accepted (P : Params) (n fce fs : Nat) (s : State) : (construct P n fce fs s).accepted = s.accepted := rfl
@[simp] theorem construct_nReq (P : Params) (n fce fs : Nat) (s : State) : (construct P n fce fs s).nReq = s.nReq := rfl
@[simp] theorem construct_fcReq (P : Params) (n fce fs : Nat) (s : State) : (construct P n fce fs s).fcReq = s.fcReq := rfl
@[simp] theorem construct_fsReq (P : Params) (n fce fs : Nat) (s : State) : (construct P n fce fs s).fsReq = s.fsReq := rfl
@[simp] theorem construct_n (P : Params) (n fce fs : Nat) (s : State) : (construct P n fce fs s).n = n := rfl
@[simp] theorem construct_fc (P : Params) (n fce fs : Nat) (s : State) : (construct P n fce fs s).fc = BitVec.ofNat 24 fce := rfl
@[simp] theorem construct_fs (P : Params) (n fce fs : Nat) (s : State) : (construct P n fce fs s).fs = BitVec.ofNat 24 fs := rfl
@[simp] theorem construct_coef (P : Params) (n fce fs : Nat) (s : State) :
    (construct P n fce fs s).coef = Memory.fill (P.coefGen n fce fs) n s.coef := rfl
@[simp] theorem construct_hist (P : Params) (n fce fs : Nat) (s : State) :
    (construct P n fce fs s).hist = Memory.fill (fun _ => 0#16) n s.hist := rfl
@[simp] theorem construct_ptr (P : Params) (n fce fs : Nat) (s : State) : (construct P n fce fs s).ptr = 0 := rfl
@[simp] theorem construct_lastOut (P : Params) (n fce fs : Nat) (s : State) : (construct P n fce fs s).lastOut = 0#16 := rfl
@[simp] theorem construct_inbox (P : Params) (n fce fs : Nat) (s : State) : (construct P n fce fs s).inbox = s.inbox := rfl
@[simp] theorem construct_responses (P : Params) (n fce fs : Nat) (s : State) : (construct P n fce fs s).responses = s.responses := rfl
@[simp] theorem construct_cfg (P : Params) (n fce fs : Nat) (s : State) : (construct P n fce fs s).cfg = true := by simp [construct]
@[simp] theorem construct_outv (P : Params) (n fce fs : Nat) (s : State) : (construct P n fce fs s).outv = false := by simp [construct]
@[simp] theorem construct_ovf (P : Params) (n fce fs : Nat) (s : State) : (construct P n fce fs s).ovf = false := by simp [construct]
@[simp] theorem construct_err (P : Params) (n fce fs : Nat) (s : State) : (construct P n fce fs s).err = s.err := by
  simp only [construct, State.setOvf_err, State.setOutv_err, State.setCfg_err]; rfl
@[simp] theorem construct_errCode (P : Params) (n fce fs : Nat) (s : State) : (construct P n fce fs s).errCode = s.errCode := by
  simp only [construct, State.setOvf_errCode, State.setOutv_errCode, State.setCfg_errCode]; rfl
@[simp] theorem construct_reservedStatus (P : Params) (n fce fs : Nat) (s : State) :
    (construct P n fce fs s).reservedStatus = s.reservedStatus := by
  simp only [construct, State.setOvf_reservedStatus, State.setOutv_reservedStatus, State.setCfg_reservedStatus]; rfl

end Sys2Proof.Machine
end

