-- ==== Sys2Proof/Laws/Step.lean ====
section
/-! SUPPORT. What one command can do, said once: either the error action, or one of the listed successes; and how exec is
the engine with the reference parameters. -/

namespace Sys2Proof.Machine

/-- Everything a command can do: the error action of 60_exceptions.md R202, a response alone, one staged register, the
cleared record, a construction, or a pushed sample. -/
theorem runCommand_cases (P : Params) (i : Instr) (s : State) :
    (∃ e, runCommand P i s = s.raise e) ∨
    (∃ r, runCommand P i s = s.respond r ∧ (i = .nop ∨ i = .last ∨ i = .rdstat ∨ (∃ sel, i = .rdcfg sel) ∨
      (∃ k, i = .rdcoef k) ∨ (∃ k, i = .rdhist k))) ∨
    (∃ u, i = .setn u ∧ runCommand P i s = State.respond { s with nReq := u } zeroResponse) ∨
    (∃ u, i = .setfc u ∧ runCommand P i s = State.respond { s with fcReq := u } zeroResponse) ∨
    (∃ u, i = .setfs u ∧ runCommand P i s = State.respond { s with fsReq := u } zeroResponse) ∨
    (i = .clrstat ∧ runCommand P i s = s.clearErrors.respond zeroResponse) ∨
    (i = .synth ∧ validate P.nMax (uint24Value s.nReq) (uint24Value s.fcReq) (uint24Value s.fsReq) = none ∧
      runCommand P i s =
        (construct P (normalizeWindow (uint24Value s.nReq)) (clampCutoff (uint24Value s.fcReq) (uint24Value s.fsReq)).toNat
          (uint24Value s.fsReq) s).respond zeroResponse) ∨
    (∃ x, i = .push x ∧ s.cfg = true ∧
      runCommand P i s = (pushSample x s).respond (sampleResponse (pushSample x s).lastOut)) := by
  have slot : ∀ m k, (∃ e, readSlot m k s = s.raise e) ∨ (∃ r, readSlot m k s = s.respond r) := by
    intro m k
    unfold readSlot
    repeat' split
    · exact .inl ⟨_, rfl⟩
    · exact .inr ⟨_, rfl⟩
    · exact .inl ⟨_, rfl⟩
  cases i with
  | nop => exact .inr (.inl ⟨_, rfl, by simp⟩)
  | setn u => exact .inr (.inr (.inl ⟨u, rfl, rfl⟩))
  | setfc u => exact .inr (.inr (.inr (.inl ⟨u, rfl, rfl⟩)))
  | setfs u => exact .inr (.inr (.inr (.inr (.inl ⟨u, rfl, rfl⟩))))
  | clrstat => exact .inr (.inr (.inr (.inr (.inr (.inl ⟨rfl, rfl⟩)))))
  | synth =>
    cases hv : validate P.nMax (uint24Value s.nReq) (uint24Value s.fcReq) (uint24Value s.fsReq) with
    | some e => exact .inl ⟨e, by simp only [runCommand, synthEffect, hv]⟩
    | none =>
      exact .inr (.inr (.inr (.inr (.inr (.inr (.inl ⟨rfl, rfl, by simp only [runCommand, synthEffect, hv]⟩))))))
  | push x =>
    simp only [runCommand, pushEffect]
    split
    · rename_i hc; exact .inr (.inr (.inr (.inr (.inr (.inr (.inr ⟨x, rfl, hc, rfl⟩))))))
    · exact .inl ⟨_, rfl⟩
  | last =>
    simp only [runCommand, lastEffect]
    repeat' split
    · exact .inr (.inl ⟨_, rfl, by simp⟩)
    · exact .inl ⟨_, rfl⟩
    · exact .inl ⟨_, rfl⟩
  | rdstat => exact .inr (.inl ⟨_, rfl, by simp⟩)
  | rdcfg sel =>
    simp only [runCommand, rdcfgEffect]
    split
    · exact .inl ⟨_, rfl⟩
    · exact .inr (.inl ⟨_, rfl, by simp⟩)
  | rdcoef k =>
    rcases slot s.coef (indexValue k) with h | ⟨r, h⟩
    · exact .inl h
    · exact .inr (.inl ⟨r, h, by simp⟩)
  | rdhist k =>
    rcases slot s.hist (indexValue k) with h | ⟨r, h⟩
    · exact .inl h
    · exact .inr (.inl ⟨r, h, by simp⟩)

/-- exec is the engine with the reference parameters, and answers a next state from every state. -/
theorem exec_eq_runCommand (i : Instr) (s : State) : exec i s = .next (runCommand referenceParams i s) := by
  cases i <;> rfl

/-- Each command gives one response, and leaves the host's stream and the position alone (30_encoding.md R74). -/
theorem runCommand_responds (P : Params) (i : Instr) (s : State) :
    (∃ r, (runCommand P i s).responses = s.responses ++ [r]) ∧ (runCommand P i s).inbox = s.inbox ∧
      (runCommand P i s).accepted = s.accepted := by
  rcases runCommand_cases P i s with ⟨e, h⟩ | ⟨r, h, _⟩ | ⟨u, _, h⟩ | ⟨u, _, h⟩ | ⟨u, _, h⟩ | ⟨_, h⟩ | ⟨_, _, h⟩ |
    ⟨x, _, _, h⟩ <;> rw [h] <;> simp

/-- A command word that is accepted runs an instruction or takes the error action with code 1 or 2 (30_encoding.md R82). -/
theorem acceptWord_cases (P : Params) (w : Word) (s : State) :
    (∃ i, decode w = .ok i ∧ acceptWord P w s = runCommand P i s) ∨
    (decode w = .illegalOpcode ∧ acceptWord P w s = s.raise .illegalOpcode) ∨
    (decode w = .reservedBits ∧ acceptWord P w s = s.raise .reservedBits) := by
  unfold acceptWord
  split <;> simp_all

/-- Accepting a word is the engine's, with the reference parameters. -/
theorem acceptCommand_eq_acceptWord (w : Word) (s : State) :
    acceptCommand w s = .next (acceptWord referenceParams w s) := by
  unfold acceptCommand acceptWord
  cases decode w with
  | ok i => exact exec_eq_runCommand _ _
  | illegalOpcode => rfl
  | reservedBits => rfl

/-- A step with a move at the head of the host's stream takes it (00_scope.md R12). -/
theorem engineStep_move (P : Params) {s : State} {m : HostMove} {rest : List HostMove} (h : s.inbox = m :: rest) :
    engineStep P s = takeMove P m { s with inbox := rest } := by
  simp [engineStep, State.nextMove, h]

/-- A step with nothing offered changes nothing (60_exceptions.md R219). -/
theorem engineStep_idle (P : Params) {s : State} (h : s.inbox = []) : engineStep P s = s := by
  simp [engineStep, State.nextMove, h]

end Sys2Proof.Machine
end

