-- ==== Sys2Proof/Tests/Slice0.lean ====
section
/-! SUPPORT. Small tests with expected values from spec/95_test_vectors.md (each names its vector), the smoke test of the
well-formedness checks, and a witness of the hypotheses of every obligation that has some. -/

namespace Sys2Proof.Tests

open Sys2Proof Sys2Proof.Machine

/-- The outcome is a next state, and it satisfies `P`. -/
def after (o : Host.Outcome State Fault Refusal) (P : State → Bool) : Bool :=
  match o with
  | .next t    => P t
  | .fault _   => false
  | .refused _ => false

/-- The reset machine with values staged. -/
def staged (n fc fs : Nat) : State :=
  { State.reset with nReq := BitVec.ofNat 24 n, fcReq := BitVec.ofNat 24 fc, fsReq := BitVec.ofNat 24 fs }

/-- A configured block with given coefficients, nothing pushed (STATUS = 0x00000001). -/
def configured (fc fs : Nat) (coef : List Int) : State :=
  { State.reset with
    n := coef.length, fc := BitVec.ofNat 24 fc, fs := BitVec.ofNat 24 fs
    coef := Memory.fill (fun k => wrap16 (coef.getD k 0)) coef.length []
    status := 0x00000001#32 }

/-- V-S5. -/
def demo3 : State := configured 1000 8000 [590, 8191, 590]

/-- V-S1. -/
def demo7 : State := configured 1000 8000 [196, 1616, 5678, 8191, 5678, 1616, 196]

/-- V-S3. -/
def steep7 : State := configured 3999 8000 [0, -2, 6, 32758, 6, -2, 0]

/-- The coefficients after a SYNTH of staged values. -/
def synthGives (n fc fs : Nat) (coef : List Int) : Bool :=
  after (exec .synth (staged n fc fs)) (fun t =>
    t.n == coef.length && (List.range t.n).map (fun k => int16Value (t.coef.read k)) == coef)

/-- The error code a SYNTH of staged values raises (V-S13), everything but the record unchanged. -/
def synthRaises (n fc fs : Nat) (code : BitVec 4) : Bool :=
  after (exec .synth (staged n fc fs)) (fun t =>
    t.err && t.errCode == code && t == { staged n fc fs with status := t.status, responses := [0x80000000#32] })

/-! ### Decoding: one word per command, written from 30_encoding.md R76, R77, R81 (opcode, then operand) -/

theorem test_decode_nop : decode 0b00000000000000000000000000000000#32 = .ok .nop := by decide
theorem test_decode_setn : decode 0b00000001000000000000000000000110#32 = .ok (.setn 6#24) := by decide
theorem test_decode_setfc : decode 0b00000010000000000000001111101000#32 = .ok (.setfc 1000#24) := by decide
theorem test_decode_setfs : decode 0b00000011000000000001111101000000#32 = .ok (.setfs 8000#24) := by decide
theorem test_decode_synth : decode 0b00000100000000000000000000000000#32 = .ok .synth := by decide
theorem test_decode_push : decode 0b00010000000000001101100011110000#32 = .ok (.push (wrap16 (-10000))) := by decide
theorem test_decode_last : decode 0b00010001000000000000000000000000#32 = .ok .last := by decide
theorem test_decode_rdstat : decode 0b00100000000000000000000000000000#32 = .ok .rdstat := by decide
theorem test_decode_rdcfg : decode 0b00100001000000000000000000000101#32 = .ok (.rdcfg .fcreq) := by decide
theorem test_decode_rdcoef : decode 0b00100010000000000000000000000110#32 = .ok (.rdcoef 6#16) := by decide
theorem test_decode_rdhist : decode 0b00100011000000001000000000000001#32 = .ok (.rdhist 0x8001#16) := by decide
theorem test_decode_clrstat : decode 0b00100100000000000000000000000000#32 = .ok .clrstat := by decide

/-- The encoder against the same column (V-D1, P1). -/
theorem test_encode_words :
    [encode (.setn 7#24), encode (.setfc 1000#24), encode (.setfs 8000#24), encode .synth, encode (.push (wrap16 (-32768))),
      encode .last, encode (.rdhist 0#16), encode (.rdcfg .ptr), encode .rdstat, encode .clrstat, encode (.rdcoef 7#16),
      encode .nop] =
    [0x01000007#32, 0x020003E8#32, 0x03001F40#32, 0x04000000#32, 0x10008000#32, 0x11000000#32, 0x23000000#32, 0x21000003#32,
      0x20000000#32, 0x24000000#32, 0x22000007#32, 0x00000000#32] := by decide

theorem test_table_word : decodeTableWord 32 0x10007FFF = some (.push 0x7FFF#16) ∧ decodeTableWord 32 0x05000000 = none := by
  decide

/-! ### Well-formedness smoke test: an ill-formed term for each check (30_encoding.md R82, R85) -/

theorem test_wf_illegal_opcode :
    wellFormedWord 0x05000000#32 = false ∧ decode 0x05000000#32 = .illegalOpcode ∧ decode 0xFFFFFFFF#32 = .illegalOpcode := by
  decide
theorem test_wf_reserved_none : wellFormedWord 0x04800000#32 = false ∧ decode 0x04800000#32 = .reservedBits := by decide
theorem test_wf_reserved_s16 : wellFormedWord 0x10010005#32 = false ∧ decode 0x10010005#32 = .reservedBits := by decide
theorem test_wf_reserved_idx16 : wellFormedWord 0x22010000#32 = false ∧ decode 0x22010000#32 = .reservedBits := by decide
theorem test_wf_reserved_sel3 : wellFormedWord 0x21000008#32 = false ∧ decode 0x21000008#32 = .reservedBits := by decide
theorem test_wf_u24_all : wellFormedWord 0x01FFFFFF#32 = true := by decide
theorem test_wf_source_u24 : (Source.setn 16777216).wellFormed = false ∧ (Source.setfc 16777216).wellFormed = false ∧
    (Source.setfs 16777216).wellFormed = false := by decide
theorem test_wf_source_sample : (Source.pushDec (-32769)).wellFormed = false ∧ (Source.pushDec 32768).wellFormed = false ∧
    (Source.pushHex 0x10000).wellFormed = false := by decide
theorem test_wf_source_index : (Source.rdcfgNum 8).wellFormed = false ∧ (Source.rdcoef 65536).wellFormed = false ∧
    (Source.rdhist 65536).wellFormed = false := by decide
theorem test_wf_source_word : (Source.word 0x100000000).wellFormed = false := by decide
theorem test_wf_source_config : (Source.config 16777216 1 4).wellFormed = false ∧
    (Source.config 7 16777216 4).wellFormed = false ∧ (Source.config 7 1 16777216).wellFormed = false := by decide

/-! ### Staging and synthesis (V-S) -/

theorem test_setn_zero : after (exec (.setn 0#24) (staged 7 1000 8000)) (fun t =>
    t == { staged 0 1000 8000 with responses := [0#32] }) = true := by decide
theorem test_setfc_largest : after (exec (.setfc 16777215#24) (staged 7 1000 8000)) (fun t =>
    t == { staged 7 16777215 8000 with responses := [0#32] }) = true := by decide
theorem test_setfs_keeps_filter : after (exec (.setfs 0#24) demo7) (fun t =>
    t == { demo7 with responses := [0#32] }) = true := by decide +kernel

/-- V-S1; V-S4, truncation toward zero and not floor; V-S6, exact zeros and negative coefficients; V-S9, the smallest sample
frequency; V-S10, the largest operands; V-S11, an odd sample frequency clamps at 3999; V-S12, the largest window. -/
theorem test_synth_coefficients :
    synthGives 7 1000 8000 [196, 1616, 5678, 8191, 5678, 1616, 196] = true ∧
    synthGives 5 8000 8000 [0, 4, 32758, 4, 0] = true ∧
    synthGives 11 1000 8000 [-118, 0, 978, 3557, 6727, 8191, 6727, 3557, 978, 0, -118] = true ∧
    synthGives 7 1 4 [-278, 0, 8031, 16383, 8031, 0, -278] = true ∧
    synthGives 7 16777215 16777215 [0, 0, 0, 32766, 0, 0, 0] = true ∧
    synthGives 7 4000 8001 [0, -3, 9, 32754, 9, -3, 0] = true ∧
    [0, 1, 2, 3, 4, 5, 127].map (fun k => int16Value (coefWord 255 1000 8000 k)) = [-4, -6, -4, 0, 4, 7, 8191] := by
  decide +kernel
/-- V-S13; and V-E3, a successful SYNTH keeps ERR and ERRCODE. -/
theorem test_synth_errors :
    synthRaises 0 0 0 6#4 = true ∧ synthRaises 1 0 0 7#4 = true ∧ synthRaises 7 0 8000 8#4 = true ∧
    synthRaises 1 1000 8000 9#4 = true ∧ synthRaises 256 1000 8000 10#4 = true ∧ synthRaises 7 1 3 11#4 = true ∧
    synthRaises 7 5 1 11#4 = true ∧
    after (exec .synth { staged 3 1000 8000 with status := 0x00000904#32 }) (fun t => t.status == 0x00000905#32) = true := by
  decide +kernel

/-! ### Filtering (V-P) -/

/-- V-P1, t = 0: response, pointer, slot and flags. V-P4: S = -2 gives -1, rounding toward minus infinity. V-P9, t = 3: the
pointer wraps and the oldest sample is overwritten. -/
theorem test_push_outputs :
    after (exec (.push (wrap16 (-32768))) demo7) (fun t =>
      t.responses == [0xFFFFFF3C#32] && t.ptr == 6 && t.hist == [(0, 0x8000#16)] && t.status == 0x00000003#32) = true ∧
    after (exec (.push 0#16) { steep7 with hist := [(0, 1#16)], ptr := 6, status := 0x00000003#32 })
      (fun t => t.responses == [0xFFFFFFFF#32]) = true ∧
    after (exec (.push (wrap16 (-400)))
        { demo3 with hist := [(0, 100#16), (1, 300#16), (2, 200#16)], ptr := 0, status := 0x00000003#32 })
      (fun t => t.responses == [0x00000047#32] && t.ptr == 2 &&
        t.hist == [(0, wrap16 (-400)), (1, 300#16), (2, 200#16)]) = true := by decide +kernel
/-- V-P7, t = 6: the history after the first six samples, then PUSH 0: OVF is set and the output has the wrong sign. V-P11: an
unconfigured block. -/
theorem test_push_flags :
    after (exec (.push 0#16)
      { steep7 with
        hist := [(2, wrap16 32767), (3, wrap16 (-32768)), (4, wrap16 (-32768)), (5, wrap16 (-32768)), (6, wrap16 32767)]
        ptr := 1, status := 0x00000003#32 })
      (fun t => t.responses == [0x00007FFA#32] && t.status == 0x0000000B#32) = true ∧
    after (exec (.push 5#16) State.reset) (fun t =>
      t.responses == [0x80000000#32] && t.status == 0x00000304#32) = true := by decide +kernel
/-- V-P12. -/
theorem test_last_errors : after (exec .last State.reset) (fun t => t.status == 0x00000304#32) = true ∧
    after (exec .last demo7) (fun t => t.status == 0x00000405#32) = true := by decide +kernel
theorem test_last_value : after (exec .last { demo7 with lastOut := wrap16 (-196), status := 0x00000003#32 }) (fun t =>
    t.responses == [0xFFFFFF3C#32] && t.status == 0x00000003#32) = true := by decide +kernel

/-! ### Status and readback (V-R) -/

theorem test_nop : after (exec .nop demo3) (fun t => t == { demo3 with responses := [0#32] }) = true := by decide +kernel
theorem test_rdstat : after (exec .rdstat { demo3 with status := 0x0000000B#32 }) (fun t =>
    t.responses == [0x0000000B#32]) = true := by decide +kernel
/-- V-R3. -/
theorem test_rdcfg : [Selector.n, .fc, .fs, .ptr, .nreq, .fcreq, .fsreq, .nmax].map (fun sel =>
      after (exec (.rdcfg sel)
        { configured 3999 8000 [0, -2, 6, 32758, 6, -2, 0] with nReq := 6#24, fcReq := 8000#24, fsReq := 8000#24 })
        (fun t => t.responses == [match sel with
          | .n => 0x00000007#32 | .fc => 0x00000F9F#32 | .fs => 0x00001F40#32 | .ptr => 0#32 | .nreq => 6#32
          | .fcreq => 0x00001F40#32 | .fsreq => 0x00001F40#32 | .nmax => 0x000000FF#32])) =
    [true, true, true, true, true, true, true, true] := by decide +kernel
theorem test_rdcfg_unconfigured : after (exec (.rdcfg .ptr) State.reset) (fun t => t.status == 0x00000304#32) = true ∧
    after (exec (.rdcfg .nreq) State.reset) (fun t => t.responses == [0#32] && t.status == 0#32) = true := by decide
/-- V-R4. -/
theorem test_rdcoef : after (exec (.rdcoef 1#16) steep7) (fun t => t.responses == [0xFFFFFFFE#32]) = true ∧
    after (exec (.rdcoef 3#16) steep7) (fun t => t.responses == [0x00007FF6#32]) = true := by decide +kernel
theorem test_rdcoef_range : after (exec (.rdcoef 7#16) steep7) (fun t => t.status == 0x00000505#32) = true ∧
    after (exec (.rdcoef 6#16) steep7) (fun t => t.responses == [0#32]) = true := by decide +kernel
/-- V-R5. -/
theorem test_rdhist : after (exec (.rdhist 0#16) { demo7 with hist := [(0, 10000#16)], ptr := 6, status := 3#32 }) (fun t =>
    t.responses == [0x00002710#32]) = true := by decide +kernel
/-- V-D2: NOT_CONFIGURED before INDEX_RANGE. -/
theorem test_rdhist_priority : after (exec (.rdhist 768#16) State.reset) (fun t => t.status == 0x00000304#32) = true := by
  decide
/-- V-R6. -/
theorem test_clrstat : after (exec .clrstat { demo3 with status := 0x0000000B#32 }) (fun t =>
    t.status == 0x00000003#32 && t.responses == [0#32]) = true := by decide +kernel
theorem test_clrstat_reserved : after (acceptCommand 0x24000001#32 { demo3 with status := 0x00000003#32 }) (fun t =>
    t.status == 0x00000207#32 && t.responses == [0x80000000#32]) = true := by decide +kernel

/-! ### The step, reset, the port, the textual form -/

/-- The step runs the fetched word first after reset. -/
theorem test_fetch : after (step (State.reset.withFetchWord 32 0x01000007)) (fun t =>
    t == { State.reset with nReq := 7#24, accepted := 1, responses := [0#32] }) = true := by decide
/-- A reset abandons the command it hits, which was accepted and counts in the position (R21, R232). -/
theorem test_reset_in_flight : after (step { demo7 with inbox := [.resetInFlight 0x10000001#32] }) (fun t =>
    t.status == 0#32 && t.responses == [] && t.position == 1) = true := by decide +kernel
/-- V-I1: one edge of reset clears STATUS and the staging registers. -/
theorem test_reset_move : after (step { demo7 with nReq := 7#24, inbox := [.reset] }) (fun t =>
    t.status == 0#32 && t.nReq == 0#24 && t.cfg == false) = true := by decide +kernel
/-- The reference PUSH latency: N + 2 edges to a valid response (70_reset_and_hazards.md R243). -/
theorem test_port_push : ((Port.run Timing.reference referenceParams { engine := demo3, phase := .idle, offer := none }
      (({ rstN := true, cmdValid := true, cmdData := 0x10000064#32, rspReady := false } : PinsIn) ::
        List.replicate 4 { rstN := true, cmdValid := false, cmdData := 0#32, rspReady := false })).map
          (fun q => (q.outputs true).rspData)) = some (some 0x00000001#32) := by decide +kernel
/-- R241, duty 1: a word offered while the port is busy may not be taken back; R16: there is no edge then. -/
theorem test_port_breach : (Port.run Timing.reference referenceParams { engine := demo3, phase := .busy 0x10000064#32 3, offer := none }
    [{ rstN := true, cmdValid := true, cmdData := 0x20000000#32, rspReady := false },
      { rstN := true, cmdValid := false, cmdData := 0#32, rspReady := false }]).isNone = true := by decide +kernel
/-- 00_scope.md R6, R13: a block built with N_MAX = 3 refuses a window of 5 (code 10) and reads N_MAX as 3. -/
theorem test_params :
    (runCommand { referenceParams with nMax := 3 } .synth (staged 5 1000 8000)).errCode = 10#4 ∧
    (commandStep { referenceParams with nMax := 3 } State.reset 0x21000007#32).2 = 3#32 := by decide +kernel
/-- P2: the words of CONFIG 7, 1000, 8000, and FLUSH with the window size it makes known. -/
theorem test_assemble : assembleAll none [.config 2 1000 8000, .flush] =
    some [0x01000002#32, 0x020003E8#32, 0x03001F40#32, 0x04000000#32, 0x10000000#32, 0x10000000#32, 0x10000000#32] := by
  decide
theorem test_read_line : readLine "PUSH -400 ; a comment".toList = some [.pushDec (-400)] ∧
    readLine "CONFIG 7, 1000, 8000".toList = some [.config 7 1000 8000] ∧ readLine "RDCFG PTR".toList = some [.rdcfgName .ptr] ∧
    readLine ".word 0x1001_0005".toList = some [.word 0x10010005] ∧ readLine "HALT".toList = none := by decide +kernel

/-! ### Witnesses: states and operands that meet the hypotheses of the obligations -/

/-- V-P9, after t = 2: a configured block with a full history, STATUS = 0x00000003. -/
def busy3 : State :=
  { demo3 with
    nReq := 3#24, fcReq := 1000#24, fsReq := 8000#24, ptr := 0, lastOut := 57#16
    hist := [(0, 100#16), (1, 300#16), (2, 200#16)], status := 0x00000003#32 }

/-- The reset machine with V-S5 staged. -/
def staged3 : State := staged 3 1000 8000

theorem inv_reset_like (P : Params) (s : State) (hP : Config.LegalNMax P.nMax) (hc : s.coef = []) (hh : s.hist = [])
    (hs : s.status = 0#32) : EngineInv P s := by
  have hcfg : s.cfg = false := by simp [State.cfg, getBit, hs]
  refine ⟨hP, by rw [hc]; rfl, by rw [hh]; rfl, by simp [hc], by simp [hh],
    by simp [State.reservedStatus, hs], by simp [State.errCode, State.err, getBit, hs], by simp [State.errCode, hs],
    by simp [State.outv, getBit, hs], by simp [State.ovf, getBit, hs], by simp [hcfg]⟩

theorem configured_demo (s : State) (hn : s.n = 3) (hfc : s.fc = 1000#24) (hfs : s.fs = 8000#24)
    (hp : s.ptr < 3) (hc : s.coef = demo3.coef) : Configured referenceParams s := by
  refine ⟨?_, by rw [hn]; exact hp, ?_⟩
  · rw [hn, hfc, hfs]
    constructor <;> decide
  · rw [hn, hfc, hfs, hc]
    decide +kernel

theorem legal_reference : Config.LegalNMax referenceParams.nMax := by unfold Config.LegalNMax; decide

theorem witness_inv_reset : EngineInv referenceParams State.reset := inv_reset_like _ _ legal_reference rfl rfl rfl
theorem witness_inv_staged3 : EngineInv referenceParams staged3 := inv_reset_like _ _ legal_reference rfl rfl rfl
theorem witness_inv_demo3 : EngineInv referenceParams demo3 := by
  refine ⟨legal_reference, by decide +kernel, rfl, by decide +kernel, by decide +kernel, by decide +kernel,
    by decide +kernel, by decide +kernel, by decide +kernel, by decide +kernel,
    fun _ => configured_demo _ rfl rfl rfl (by decide) rfl⟩
theorem witness_inv_busy3 : EngineInv referenceParams busy3 := by
  refine ⟨legal_reference, by decide +kernel, by decide +kernel, by decide +kernel, by decide +kernel,
    by decide +kernel, by decide +kernel, by decide +kernel, by decide +kernel, by decide +kernel,
    fun _ => configured_demo _ rfl rfl rfl (by decide) rfl⟩

theorem witness_EncodeInvertsDecode : decode 0x01000007#32 = .ok (.setn 7#24) := by decide
/-- The ends of the three unassigned ranges, a reserved bit set, and a well-formed word. -/
theorem witness_DecodeOrderOfEveryWord :
    [0x05#8, 0x0F#8, 0x12#8, 0x1F#8, 0x25#8, 0xFF#8].all (fun b => Op.all.all (fun o => o.opcode != b)) = true ∧
    (Op.push.opcode = opcodeField 0x10010005#32 ∧ Op.push.form.reservedClear 0x10010005#32 = false) ∧
    (Op.push.opcode = opcodeField 0x10000005#32 ∧ Op.push.form.reservedClear 0x10000005#32 = true) := by decide
theorem witness_StepRunsDecodedCommand :
    { demo3 with inbox := [HostMove.command 0x10000064#32] }.inbox = .command 0x10000064#32 :: [] ∧
    decode 0x10000064#32 = .ok (.push 100#16) := ⟨rfl, by decide⟩
theorem witness_StepAnswersIllFormedWord :
    (∀ i, decode 0x05000000#32 ≠ .ok i) ∧ (∀ o : Op, o.opcode ≠ opcodeField 0x05000000#32) ∧
    (∀ i, decode 0x10010005#32 ≠ .ok i) ∧ Op.push.opcode = opcodeField 0x10010005#32 := by
  have h1 : decode 0x05000000#32 = .illegalOpcode := by decide
  have h2 : decode 0x10010005#32 = .reservedBits := by decide
  refine ⟨fun i => by simp [h1], fun o => by cases o <;> decide, fun i => by simp [h2], by decide⟩
theorem witness_IdleStepHoldsState : busy3.inbox = [] := rfl
/-- A success and an error, both from a state that meets the invariant. -/
theorem witness_ErrorResponseMarksErrorsOnly :
    EngineInv referenceParams demo3 ∧ acceptCommand 0x00000000#32 demo3 = .next (demo3.respond 0#32) ∧
    acceptCommand 0x00000001#32 demo3 = .next (demo3.raise .reservedBits) := ⟨witness_inv_demo3, rfl, rfl⟩
theorem witness_RecordedErrorBlocksNothing : Instr.push 5#16 ≠ .rdstat := by decide
/-- Commands other than CLRSTAT, PUSH and SYNTH that answer a next state (ErrorRecordIsSticky, FlagsChangeOnlyAsListed,
OnlyPushAndSynthWriteTheOutput, OnlySynthChangesTheConfiguration, ReadbacksChangeNoState). -/
theorem witness_exec_answers :
    exec .nop busy3 = .next (busy3.respond 0#32) ∧ exec .last State.reset = .next (State.reset.raise .notConfigured) ∧
    Instr.nop ≠ .clrstat ∧ Instr.nop ≠ .synth ∧ (∀ x, Instr.nop ≠ .push x) ∧ Instr.last ≠ .clrstat := by
  refine ⟨rfl, rfl, by decide, by decide, by intro x; simp, by decide⟩
/-- V-S13, one line for each clause; N_REQ = 256 and FS_REQ = 3 are boundary values. -/
theorem witness_SynthValidatesInOrder :
    (staged 0 1000 8000).nReq.toNat = 0 ∧
    ((staged 1 0 0).nReq.toNat ≠ 0 ∧ (staged 1 0 0).fsReq.toNat = 0) ∧
    ((staged 7 0 8000).nReq.toNat ≠ 0 ∧ (staged 7 0 8000).fsReq.toNat ≠ 0 ∧ (staged 7 0 8000).fcReq.toNat = 0) ∧
    ((staged 1 1000 8000).nReq.toNat = 1 ∧ (staged 1 1000 8000).fsReq.toNat ≠ 0 ∧ (staged 1 1000 8000).fcReq.toNat ≠ 0) ∧
    ((staged 256 1000 8000).nReq.toNat = 256 ∧ referenceParams.nMax < 257 ∧
      (staged 256 1000 8000).fsReq.toNat ≠ 0 ∧ (staged 256 1000 8000).fcReq.toNat ≠ 0) ∧
    ((staged 254 1 3).nReq.toNat = 254 ∧ 255 ≤ referenceParams.nMax ∧ (staged 254 1 3).fsReq.toNat = 3 ∧
      (staged 254 1 3).fcReq.toNat ≠ 0) := by decide
/-- The smallest window, cutoff and sample frequency, and the largest window. -/
theorem witness_SynthConstructsTheFilter :
    (staged 2 1 4).coef.wf = true ∧ (staged 2 1 4).hist.wf = true ∧ 2 ≤ (staged 2 1 4).nReq.toNat ∧
    3 ≤ referenceParams.nMax ∧ 4 ≤ (staged 2 1 4).fsReq.toNat ∧ 1 ≤ (staged 2 1 4).fcReq.toNat ∧
    (staged 254 1 4).nReq.toNat + 1 ≤ referenceParams.nMax := by decide
theorem witness_FailedSynthKeepsTheFilter :
    exec .synth { demo3 with nReq := 0#24 } = .next ({ demo3 with nReq := 0#24 }.raise .cfgNZero) ∧
    ({ demo3 with nReq := 0#24 }.raise .cfgNZero).responses = demo3.responses ++ [0x80000000#32] := ⟨rfl, rfl⟩
/-- A successful SYNTH whose every coefficient the enclosure decides (SynthesizedCoefficientsAreExact,
SuccessfulSynthIsIdempotent). -/
theorem witness_SynthesizedCoefficientsAreExact :
    EngineInv referenceParams staged3 ∧ staged3.coef.wf = true ∧
    after (exec .synth staged3) (fun t => t.responses == staged3.responses ++ [0x00000000#32] &&
      (List.range t.n).all (fun k => coefDecided ((t.n - 1) / 2) (centreDistance t.n k) t.fc.toNat t.fs.toNat)) = true :=
  ⟨witness_inv_staged3, rfl, by decide +kernel⟩
/-- A configured block that meets the invariant: the premise of CoefficientsAreBounded, CoefficientsAreSymmetric,
PushExtendsTheHistory, ZerosFlushTheHistory, ConstantInputReachesDcGain, ImpulseReturnsCoefficients, ReadbackIndexIsPhysical,
with its history empty. -/
theorem witness_configured : EngineInv referenceParams demo3 ∧ demo3.cfg = true ∧ HoldsSamples demo3 [] ∧ 2 < demo3.n := by
  refine ⟨witness_inv_demo3, by decide +kernel, ?_, by decide⟩
  intro j _
  rfl
theorem witness_BoundaryRequestsBehaveAlike :
    (6#24 : UInt24).toNat % 2 = 0 ∧ (6#24 : UInt24).toNat ≠ 0 ∧ 4 ≤ (staged 7 1 4).fsReq.toNat := by decide
theorem witness_PushFiltersOneSample : busy3.cfg = true ∧ busy3.ptr < busy3.n ∧ busy3.hist.wf = true ∧ busy3.ovf = false := by
  decide +kernel
/-- The last pointer value of the window. -/
theorem witness_PushFiltersOneSample_last_slot :
    { busy3 with ptr := 2 }.cfg = true ∧ { busy3 with ptr := 2 }.ptr < busy3.n := by decide +kernel
theorem witness_OverflowFlagMarksWrongOutputs : ∃ t, exec (.push 5#16) busy3 = .next t := ⟨_, rfl⟩
theorem witness_PushNeedsConfiguration : State.reset.cfg = false := by decide
theorem witness_AccumulationOrderIsFree : 1 < 3 ∧
    ((List.range 3).map (fun i => tapProduct (Memory.read busy3.hist ((1 + i) % 3)) (Memory.read busy3.coef i))).Perm
      ((List.range 3).map (fun i => tapProduct (Memory.read busy3.hist ((1 + i) % 3)) (Memory.read busy3.coef i))) :=
  ⟨by decide, List.Perm.refl _⟩
theorem witness_SynthThenPushesConvolve :
    EngineInv referenceParams staged3 ∧ 2 ≤ staged3.nReq.toNat ∧ staged3.nReq.toNat ≤ referenceParams.nMax ∧ staged3.nReq.toNat % 2 = 1 ∧
    4 ≤ staged3.fsReq.toNat ∧ 1 ≤ staged3.fcReq.toNat := ⟨witness_inv_staged3, by decide⟩
theorem witness_LastReturnsTheLastOutput :
    (busy3.cfg = true ∧ busy3.outv = true) ∧ (demo3.cfg = true ∧ demo3.outv = false) ∧ State.reset.cfg = false := by
  decide +kernel
/-- Words of the opcodes whose words the statements about NOP, LAST, RDSTAT, RDCOEF, RDHIST and CLRSTAT split. -/
theorem witness_HousekeepingWords :
    opcodeField 0x00000001#32 = 0x00#8 ∧ opcodeField 0x04800000#32 = 0x04#8 ∧ opcodeField 0x10FF0000#32 = 0x10#8 ∧
     opcodeField 0x11000001#32 = 0x11#8 ∧ opcodeField 0x2200FFFF#32 = 0x22#8 ∧
    opcodeField 0x23010000#32 = 0x23#8 ∧ opcodeField 0x20000001#32 = 0x20#8 ∧ opcodeField 0x24000001#32 = 0x24#8 := by decide
/-- The last legal index and the first illegal one. -/
theorem witness_ReadbackReturnsTheSlot :
    busy3.cfg = true ∧ (2#16 : BitVec 16).toNat < busy3.n ∧ busy3.n ≤ (3#16 : BitVec 16).toNat ∧ State.reset.cfg = false := by
  decide +kernel
theorem witness_ResetAbandonsTheCommand :
    { busy3 with inbox := [HostMove.reset, .resetInFlight 0x10000001#32] }.inbox =
      .reset :: [.resetInFlight 0x10000001#32] := rfl
theorem witness_CommandsLegalWhileUnconfigured : EngineInv referenceParams State.reset ∧ State.reset.cfg = false ∧
    Selector.ptr.toBits ≤ 3#3 ∧ 4#3 ≤ Selector.nreq.toBits := ⟨witness_inv_reset, by decide, by decide, by decide⟩
theorem witness_StepKeepsInvariant : ∃ t, EngineInv referenceParams busy3 ∧ step busy3 = .next t := ⟨_, witness_inv_busy3, rfl⟩
/-- Two states that differ in registers the spec leaves unspecified after reset. -/
theorem witness_UnspecifiedStateIsUnobservable :
    EngineInv referenceParams State.reset ∧ EngineInv referenceParams { State.reset with n := 9, ptr := 77, lastOut := 5#16 } ∧
    SameToHost State.reset { State.reset with n := 9, ptr := 77, lastOut := 5#16 } := by
  refine ⟨witness_inv_reset, inv_reset_like _ _ legal_reference rfl rfl rfl, ?_⟩
  have h0 : State.reset.cfg = false := by decide
  constructor <;>
    first
    | rfl
    | exact fun h => absurd (h0.symm.trans h) (by decide)
/-- A PUSH with the reference latencies: N + 2 = 5 edges after the accepting one, the host offering nothing more. -/
theorem witness_PortTransactionIsOneStep :
    Timing.reference.Legal ∧ commandLatency Timing.reference demo3 0x10000064#32 = 5 ∧
    (Port.run Timing.reference referenceParams { engine := demo3, phase := .idle, offer := none }
      (({ rstN := true, cmdValid := true, cmdData := 0x10000064#32, rspReady := true } : PinsIn) ::
        List.replicate 5 { rstN := true, cmdValid := false, cmdData := 0#32, rspReady := true })).isSome = true := by
  refine ⟨⟨fun n => by simp [Timing.reference], fun n => by simp [Timing.reference], by simp [Timing.reference]⟩,
    by decide +kernel, by decide +kernel⟩
theorem witness_PortHoldsTheResponse :
    ({ engine := demo3, phase := .responding 5#32, offer := none } : Port).phase = .responding 5#32 ∧
    (Port.edge Timing.reference referenceParams { engine := demo3, phase := .responding 5#32, offer := none }
      { rstN := true, cmdValid := false, cmdData := 0#32, rspReady := false }).isSome = true := ⟨rfl, by decide +kernel⟩
/-- A reset edge and the edge after it, the host offering nothing. -/
theorem witness_PortResetGatesTheOutputs :
    (Port.run Timing.reference referenceParams { engine := demo3, phase := .busy 0x10000064#32 3, offer := none }
      [{ rstN := false, cmdValid := false, cmdData := 0#32, rspReady := false },
        { rstN := true, cmdValid := false, cmdData := 0#32, rspReady := false }]).isSome = true := by decide +kernel
/-- A port with a word offered, and one with none while a response is outstanding. -/
theorem witness_PortHasNoEdgeForABreach :
    ({ engine := demo3, phase := .busy 0x10000064#32 3, offer := some 0x20000000#32 } : Port).offer = some 0x20000000#32 ∧
    ({ engine := demo3, phase := .responding 5#32, offer := none } : Port).offer = none ∧
    decode 0x10000064#32 = .ok (.push 100#16) := ⟨rfl, rfl, by decide⟩
theorem witness_InstancesDoNotInteract : (1 : Nat) ≠ 0 ∧
    [(referenceParams, demo3), ({ referenceParams with nMax := 3 }, busy3)][0]? = some (referenceParams, demo3) :=
  ⟨by decide, rfl⟩
theorem witness_AssembledLinesDecode : (Source.rdcoef 65536).wellFormed = false ∧
    assemble none (.rdcoef 65535) = some [0x2200FFFF#32] := by decide

theorem inv_configured3 (P : Params) (s : State) (hM : P.nMax = 255) (hn : s.n = 3) (hfc : s.fc = 1000#24)
    (hfs : s.fs = 8000#24) (hp : s.ptr = 0) (hh : s.hist = []) (hst : s.status = 1#32) (hw : s.coef.wf = true)
    (hs : ∀ c ∈ s.coef, c.1 < 3) (hc : ∀ k, k < 3 → s.coef.read k = P.coefGen 3 1000 8000 k) : EngineInv P s := by
  refine ⟨by rw [hM]; unfold Config.LegalNMax; decide, hw, by rw [hh]; rfl, fun c h => by rw [hM]; have := hs c h; omega,
    by simp [hh], by simp [State.reservedStatus, hst], by simp [State.errCode, State.err, getBit, hst],
    by simp [State.errCode, hst], by simp [State.outv, getBit, hst], by simp [State.ovf, getBit, hst],
    fun _ => ⟨?_, by omega, ?_⟩⟩
  · rw [hM, hn, hfc, hfs]; constructor <;> decide
  · rw [hn, hfc, hfs]; exact hc

/-- Legal parameters, and a configured state of a block that has them: the premise Params.Legal of
SynthesizedCoefficientsAreExact, CoefficientsAreBounded, CoefficientsAreSymmetric and ImpulseReturnsCoefficients. -/
theorem witness_legal_params : ∃ (P : Params) (s : State), P.Legal ∧ EngineInv P s ∧ s.cfg = true ∧ HoldsSamples s [] ∧
    2 < s.n ∧ EngineInv P staged3 := by
  obtain ⟨P, hM, hP⟩ := Laws.legal_params_exist 255 (by unfold Config.LegalNMax; decide)
  refine ⟨P, { demo3 with coef := Memory.fill (P.coefGen 3 1000 8000) 3 [] }, hP, ?_, ?_, fun _ _ => rfl, ?_,
    inv_reset_like _ _ hP.nMax rfl rfl rfl⟩
  · exact inv_configured3 P _ hM rfl rfl rfl rfl rfl rfl (Memory.wf_fill _ _ rfl) (Memory.slots_fill _ (by simp) le_rfl)
      (fun k hk => (Memory.read_fill _ 3 rfl k).trans (if_pos hk))
  · exact (State.cfg_congr rfl).trans (by decide +kernel : demo3.cfg = true)
  · exact (by decide : 2 < demo3.n)
/-- A response 0x80000000 from states that meet the invariant, of a word that a check of its own turns away and of a PUSH. -/
theorem witness_ErrorActionWritesOnlyTheRecord :
    EngineInv referenceParams demo3 ∧ (commandStep referenceParams demo3 0x11000000#32).2 = 0x80000000#32 ∧
    opcodeField 0x10010005#32 = 0x10#8 ∧ (commandStep referenceParams demo3 0x10010005#32).2 = 0x80000000#32 :=
  ⟨witness_inv_demo3, by decide +kernel, by decide, by decide +kernel⟩
theorem witness_PositionCountsAcceptedCommands :
    { busy3 with inbox := [HostMove.resetInFlight 0x10000001#32] }.inbox = .resetInFlight 0x10000001#32 :: [] := rfl
/-- The last boundary of the clamp: FS_REQ = 4 has the limit 1. -/
theorem witness_BoundaryRequestsBehaveAlike_clamp :
    4 ≤ (staged 7 1 4).fsReq.toNat ∧ (1#24 : UInt24).toNat = (staged 7 1 4).fsReq.toNat / 2 - 1 := by decide
theorem witness_RdcfgReturnsTheSelectedValue :
    busy3.cfg = true ∧ State.reset.cfg = false ∧ opcodeField 0x21000008#32 = 0x21#8 ∧
    (0x21000008#32).extractLsb' 3 21 ≠ 0#21 := by decide +kernel

end Sys2Proof.Tests
end

section
/-! SUPPORT. The step of the host's interface, and accepting one command word: what each is in the engine's terms, and the
one response a word gives (00_scope.md R13, R17; 30_encoding.md R74, R82). -/

namespace Sys2Proof.Machine

/-! ### The step is the engine's with the reference parameters (00_scope.md R6, R13; log 2) -/

theorem applyMove_eq_takeMove (m : HostMove) (s : State) : applyMove m s = .next (takeMove referenceParams m s) := by
  cases m with
  | command w => exact acceptCommand_eq_acceptWord w _
  | reset => rfl
  | resetInFlight w => rfl

theorem step_eq_engineStep (s : State) : step s = .next (engineStep referenceParams s) := by
  unfold step engineStep
  cases s.nextMove with
  | none => rfl
  | some next => exact applyMove_eq_takeMove next.1 next.2

theorem run_succ_of_step_next {M : Host.Core} {s t : M.State} (h : M.step s = .next t) (k : Nat) :
    M.run (k + 1) s = M.run k t := by
  simp [Host.Core.run, h]

theorem core_run_eq_engineRun (k : Nat) (s : State) :
    Sys2Proof.core.run k s = .next (engineRun referenceParams k s) := by
  induction k generalizing s with
  | zero => rfl
  | succ k ih => exact (run_succ_of_step_next (M := Sys2Proof.core) (step_eq_engineStep s) k).trans (ih _)

/-- A step with a command word at the head of the host's stream accepts it (30_encoding.md R71). -/
theorem step_command {s : State} {w : Word} {rest : List HostMove} (h : s.inbox = .command w :: rest) :
    step s = acceptCommand w { s with inbox := rest, accepted := s.accepted + 1 } := by
  simp [step, State.nextMove, h, applyMove, State.countAccepted]

/-! ### Accepting a word, by what it decodes to (30_encoding.md R82) -/

theorem acceptCommand_of_decode_ok {w : Word} {i : Instr} (h : decode w = .ok i) (s : State) :
    acceptCommand w s = exec i s := by
  simp [acceptCommand, h]

theorem acceptCommand_of_decode_illegalOpcode {w : Word} (h : decode w = .illegalOpcode) (s : State) :
    acceptCommand w s = .next (s.raise .illegalOpcode) := by
  simp [acceptCommand, h]

theorem acceptCommand_of_decode_reservedBits {w : Word} (h : decode w = .reservedBits) (s : State) :
    acceptCommand w s = .next (s.raise .reservedBits) := by
  simp [acceptCommand, h]

theorem opcode_unassigned_of_decode_illegalOpcode {w : Word} (h : decode w = .illegalOpcode) (o : Op) :
    o.opcode ≠ opcodeField w := by
  refine opOfOpcode_eq_none_iff.1 ?_ o
  unfold decode at h
  split at h
  · assumption
  · split at h <;> cases h

theorem opcode_assigned_of_decode_reservedBits {w : Word} (h : decode w = .reservedBits) :
    ∃ o : Op, o.opcode = opcodeField w := by
  unfold decode at h
  split at h
  · cases h
  next o ho => exact ⟨o, opcode_of_opOfOpcode ho⟩

/-- The error action of an ill-formed word: the check that fails names the error (30_encoding.md R82). -/
theorem acceptCommand_of_illFormed {w : Word} (h : ∀ i, decode w ≠ .ok i) (s : State) :
    ∃ e : ErrorCode, acceptCommand w s = .next (s.raise e) ∧
      ((∀ o : Op, o.opcode ≠ opcodeField w) → e = .illegalOpcode) ∧
      ((∃ o : Op, o.opcode = opcodeField w) → e = .reservedBits) := by
  cases hd : decode w with
  | ok i => exact absurd hd (h i)
  | illegalOpcode =>
    exact ⟨_, acceptCommand_of_decode_illegalOpcode hd s, fun _ => rfl,
      fun ⟨o, ho⟩ => absurd ho (opcode_unassigned_of_decode_illegalOpcode hd o)⟩
  | reservedBits =>
    obtain ⟨o, ho⟩ := opcode_assigned_of_decode_reservedBits hd
    exact ⟨_, acceptCommand_of_decode_reservedBits hd s, fun hn => absurd ho (hn o), fun _ => rfl⟩

/-! ### One word, one response (30_encoding.md R74) -/

/-- runCommand_responds for every accepted word, ill-formed ones included. -/
theorem acceptWord_responds (P : Params) (w : Word) (s : State) :
    (∃ r, (acceptWord P w s).responses = s.responses ++ [r]) ∧ (acceptWord P w s).inbox = s.inbox ∧
      (acceptWord P w s).accepted = s.accepted := by
  rcases acceptWord_cases P w s with ⟨i, -, h⟩ | ⟨-, h⟩ | ⟨-, h⟩
  · rw [h]; exact runCommand_responds P i s
  · rw [h]; exact ⟨⟨_, State.raise_responses s _⟩, State.raise_inbox s _, State.raise_accepted s _⟩
  · rw [h]; exact ⟨⟨_, State.raise_responses s _⟩, State.raise_inbox s _, State.raise_accepted s _⟩

/-- The response word of Step(s, cmd) is the one the host receives for this command (00_scope.md R13). -/
theorem commandStep_responses (P : Params) (s : State) (w : Word) :
    (commandStep P s w).1.responses = s.responses ++ [(commandStep P s w).2] := by
  obtain ⟨⟨r, hr⟩, -⟩ := acceptWord_responds P w s
  simp [commandStep, hr]

end Sys2Proof.Machine
end

section
/-! PROOFS. The statements about the step (00_scope.md R12, R13, R17). -/

namespace Sys2Proof.Machine

/-- Settles O7: the word is taken from the inbox, the check it fails raises its error, and the error action's frame is
State.raise_frame. -/
theorem stepAnswersIllFormedWord : Obligations.StepAnswersIllFormedWord := by
  intro s w rest hbox hill
  obtain ⟨e, haccept, hillegal, hreserved⟩ :=
    acceptCommand_of_illFormed hill { s with inbox := rest, accepted := s.accepted + 1 }
  refine ⟨_, (step_command hbox).trans haccept, State.raise_err _ e, fun h => ?_, fun h => ?_, State.raise_cfg _ e,
    State.raise_outv _ e, State.raise_ovf _ e, State.raise_reservedStatus _ e, State.raise_frame _ e⟩
  · rw [State.raise_errCode, hillegal h]; rfl
  · rw [State.raise_errCode, hreserved h]; rfl

/-- Settles O9: the step is the engine's, a total function. -/
theorem everyStepAnswersNext : Obligations.EveryStepAnswersNext :=
  fun s => ⟨_, step_eq_engineStep s⟩

/-- Settles O11, from what every accepted word does to the responses, the inbox and the position. -/
theorem everyCommandGivesOneResponse : Obligations.EveryCommandGivesOneResponse := by
  intro P w s
  obtain ⟨-, hinbox, haccepted⟩ := acceptWord_responds P w s
  exact ⟨commandStep_responses P s w, hinbox, haccepted⟩

/-- Settles O6: the word at the head of the inbox is accepted, and a word that decodes runs its instruction. -/
theorem stepRunsDecodedCommand : Obligations.StepRunsDecodedCommand :=
  fun _ _ _ _ hbox hdecode => (step_command hbox).trans (acceptCommand_of_decode_ok hdecode _)

/-- Settles O10; the run is by induction on the number of steps (core_run_eq_engineRun). -/
theorem machineIsTheReferenceBlock : Obligations.MachineIsTheReferenceBlock :=
  fun s => ⟨step_eq_engineStep s, fun k => core_run_eq_engineRun k s, fun w => acceptCommand_eq_acceptWord w s⟩

end Sys2Proof.Machine
end

section
/-! SUPPORT. The clocked port: when an edge exists, what it leaves offered, and the phases of one transaction
(30_encoding.md R71, R74, R75; 70_reset_and_hazards.md R241, R243). -/

namespace Sys2Proof.Machine

/-! ### When the port has an edge (70_reset_and_hazards.md R241) -/

theorem edge_eq_none_iff (T : Timing) (P : Params) (p : Port) (i : PinsIn) :
    p.edge T P i = none ↔ p.dutiesKept i = false := by
  simp [Port.edge]

theorem edge_eq_some_iff (T : Timing) (P : Params) (p q : Port) (i : PinsIn) :
    p.edge T P i = some q ↔ p.dutiesKept i = true ∧ { p.clock T P i with offer := p.offerAfter i } = q := by
  simp [Port.edge]

theorem isPush_iff (w : Word) : isPush w = true ↔ ∃ x, decode w = .ok (.push x) := by
  unfold isPush
  split <;> simp_all

theorem outstanding_iff (p : Port) : p.outstanding = true ↔ p.phase ≠ .idle ∧ p.phase ≠ .inReset := by
  cases h : p.phase <;> simp [Port.outstanding, h]

theorem outputs_cmdReady_iff (p : Port) : (p.outputs true).cmdReady = true ↔ p.phase = .idle := by
  cases h : p.phase <;> simp [Port.outputs, h]

/-- Duty 1: the word offered stays on the pins. -/
theorem dutiesKept_of_offer {p : Port} {w : Word} (h : p.offer = some w) (i : PinsIn) :
    p.dutiesKept i = true ↔ i.cmdValid = true ∧ i.cmdData = w := by
  simp [Port.dutiesKept, h]

/-- Duty 5: with no word offered before, the one breach is a PUSH begun while a command is outstanding. -/
theorem dutiesKept_of_no_offer {p : Port} (h : p.offer = none) (i : PinsIn) :
    p.dutiesKept i = false ↔
      i.rstN = true ∧ i.cmdValid = true ∧ isPush i.cmdData = true ∧ p.outstanding = true := by
  simp [Port.dutiesKept, h, and_assoc]

/-! ### The word offered after an edge -/

theorem accepts_iff (p : Port) (i : PinsIn) :
    p.accepts i = true ↔ i.rstN = true ∧ i.cmdValid = true ∧ p.phase = .idle := by
  simp [Port.accepts, and_assoc]

/-- A word on the pins is not accepted exactly when rst_n or cmd_ready is 0 (30_encoding.md R71). -/
theorem offered_not_accepted_iff (p : Port) (i : PinsIn) :
    (i.cmdValid = true ∧ p.accepts i = false) ↔
      i.cmdValid = true ∧ ¬(i.rstN = true ∧ (p.outputs true).cmdReady = true) := by
  rw [← Bool.not_eq_true, accepts_iff, outputs_cmdReady_iff]
  tauto

theorem offerAfter_eq_some_iff (p : Port) (i : PinsIn) :
    p.offerAfter i = some i.cmdData ↔ i.cmdValid = true ∧ p.accepts i = false := by
  simp [Port.offerAfter]

theorem offerAfter_eq_none_iff (p : Port) (i : PinsIn) :
    p.offerAfter i = none ↔ ¬(i.cmdValid = true ∧ p.accepts i = false) := by
  simp [Port.offerAfter]

/-! ### A host that offers nothing -/

theorem dutiesKept_of_silent {p : Port} (ho : p.offer = none) {i : PinsIn} (hi : i.cmdValid = false) :
    p.dutiesKept i = true := by
  simp [Port.dutiesKept, ho, hi]

theorem offerAfter_of_silent (p : Port) {i : PinsIn} (hi : i.cmdValid = false) : p.offerAfter i = none := by
  simp [Port.offerAfter, hi]

/-- A host with nothing offered that offers nothing keeps its duties. -/
theorem run_isSome_of_silent (T : Timing) (P : Params) {pins : List PinsIn} {p : Port} (ho : p.offer = none)
    (h : ∀ i ∈ pins, i.cmdValid = false) : (p.run T P pins).isSome = true := by
  induction pins generalizing p with
  | nil => rfl
  | cons i is ih =>
    obtain ⟨hi, his⟩ := List.forall_mem_cons.1 h
    have hedge := (edge_eq_some_iff T P p _ i).2 ⟨dutiesKept_of_silent ho hi, rfl⟩
    simp only [Port.run, hedge, Option.bind_some]
    exact ih (offerAfter_of_silent p hi) his

/-! ### One transaction -/

/-- The port between accepting `w`, with the engine then at `s`, and the host's taking the response: `n` more edges bring the
response word to the pins (30_encoding.md R74; log 11). -/
def Port.Awaits (P : Params) (s : State) (w : Word) (p : Port) : Nat → Prop
  | 0     => p.engine = { (commandStep P s w).1 with responses := s.responses } ∧
      p.phase = .responding (commandStep P s w).2
  | n + 1 => p.engine = s ∧ p.phase = .busy w n

theorem commandLatency_countAccepted (T : Timing) (s : State) (w : Word) :
    commandLatency T s.countAccepted w = commandLatency T s w := by
  unfold commandLatency
  cases decode w <;> rfl

theorem one_le_commandLatency {T : Timing} (hT : T.Legal) (s : State) (w : Word) : 1 ≤ commandLatency T s w := by
  obtain ⟨hpush, hsynth, hother⟩ := hT
  unfold commandLatency
  cases decode w with
  | ok i =>
    cases i with
    | push x => exact hpush _
    | synth => exact hsynth _
    | _ => exact hother
  | _ => exact hother

/-- Accepting a word of latency `n + 1` leaves `n` edges before its response is valid (70_reset_and_hazards.md R243). -/
theorem accept_awaits {T : Timing} (P : Params) {p : Port} {w : Word} {n : Nat}
    (hn : commandLatency T p.engine w = n + 1) : (p.accept T P w).Awaits P p.engine.countAccepted w n := by
  simp only [Port.accept, commandLatency_countAccepted, hn]
  cases n with
  | zero => exact ⟨rfl, rfl⟩
  | succ n => exact ⟨rfl, rfl⟩

/-- The port at which a word offered from idle is accepted. -/
theorem edge_of_idle (T : Timing) (P : Params) {p : Port} {w : Word} {i : PinsIn} (hp : p.phase = .idle)
    (ho : p.offer = none ∨ p.offer = some w) (hr : i.rstN = true) (hv : i.cmdValid = true) (hw : i.cmdData = w) :
    p.edge T P i = some { p.accept T P w with offer := none } := by
  have hkept : p.dutiesKept i = true := by
    rcases ho with ho | ho
    · simp [Port.dutiesKept, ho, Port.outstanding, hp]
    · exact (dutiesKept_of_offer ho i).2 ⟨hv, hw⟩
  have hclock : p.clock T P i = p.accept T P w := by simp [Port.clock, hr, hp, hv, hw]
  have hoffer : p.offerAfter i = none := by simp [Port.offerAfter, (accepts_iff p i).2 ⟨hr, hv, hp⟩]
  exact (edge_eq_some_iff T P p _ i).2 ⟨hkept, by rw [hclock, hoffer]⟩

section Awaiting
variable {T : Timing} {P : Params} {s : State} {w : Word} {p q : Port} {i : PinsIn}

/-- An edge with rst_n = 1 brings the response one edge nearer, whatever the host offers. -/
theorem edge_awaits {n : Nat} (h : p.Awaits P s w (n + 1)) (hr : i.rstN = true) (he : p.edge T P i = some q) :
    q.Awaits P s w n := by
  obtain ⟨-, rfl⟩ := (edge_eq_some_iff T P p q i).1 he
  obtain ⟨hengine, hphase⟩ := h
  cases n with
  | zero => simp [Port.Awaits, Port.clock, hr, hphase, Port.complete, hengine]
  | succ n => simp [Port.Awaits, Port.clock, hr, hphase, hengine]

/-- The host takes the response: the engine is where Step(s, cmd) leaves it. -/
theorem edge_takes_response (h : p.Awaits P s w 0) (hr : i.rstN = true) (ht : i.rspReady = true)
    (he : p.edge T P i = some q) : q.engine = (commandStep P s w).1 ∧ q.phase = .idle := by
  obtain ⟨-, rfl⟩ := (edge_eq_some_iff T P p q i).1 he
  obtain ⟨hengine, hphase⟩ := h
  simp [Port.clock, hr, hphase, ht, hengine, State.respond, ← commandStep_responses]

theorem run_awaits {n : Nat} {pins : List PinsIn} (h : p.Awaits P s w n) (hlen : pins.length ≤ n)
    (hr : ∀ i ∈ pins, i.rstN = true) (hq : p.run T P pins = some q) : q.Awaits P s w (n - pins.length) := by
  induction pins generalizing p n with
  | nil => cases hq; exact h
  | cons i is ih =>
    obtain ⟨hi, his⟩ := List.forall_mem_cons.1 hr
    obtain ⟨p', he, hrun⟩ := Option.bind_eq_some_iff.1 hq
    cases n with
    | zero => simp at hlen
    | succ n => simpa using ih (edge_awaits h hi he) (by simpa using hlen) his hrun

theorem run_takes_response {n : Nat} {pins : List PinsIn} (h : p.Awaits P s w n) (hlen : pins.length = n + 1)
    (hr : ∀ i ∈ pins, i.rstN = true ∧ i.rspReady = true) (hq : p.run T P pins = some q) :
    q.engine = (commandStep P s w).1 ∧ q.phase = .idle := by
  induction pins generalizing p n with
  | nil => simp at hlen
  | cons i is ih =>
    obtain ⟨⟨hi, ht⟩, his⟩ := List.forall_mem_cons.1 hr
    obtain ⟨p', he, hrun⟩ := Option.bind_eq_some_iff.1 hq
    cases n with
    | zero =>
      obtain rfl : is = [] := by simpa using hlen
      cases hrun
      exact edge_takes_response h hi ht he
    | succ n => exact ih (edge_awaits h hi he) (by simpa using hlen) his hrun

theorem outputs_rspValid_of_awaits {n : Nat} (h : p.Awaits P s w n) (hn : n ≠ 0) :
    (p.outputs true).rspValid = false := by
  cases n with
  | zero => exact absurd rfl hn
  | succ n => simp [Port.outputs, h.2]

theorem outputs_rspData_of_awaits (h : p.Awaits P s w 0) :
    (p.outputs true).rspData = some (commandStep P s w).2 := by
  simp [Port.outputs, h.2]

end Awaiting

/-- The step on a word put first in the host's stream is Step(s, cmd) of the state that counts it as accepted. -/
theorem engineStep_command (P : Params) (s : State) (w : Word) :
    engineStep P { s with inbox := .command w :: s.inbox } = (commandStep P s.countAccepted w).1 :=
  engineStep_move P (m := .command w) (rest := s.inbox) rfl

end Sys2Proof.Machine
end

section
/-! PROOFS. The statements about the clocked port (00_scope.md R16; 30_encoding.md R71, R74; 70_reset_and_hazards.md R241). -/

namespace Sys2Proof.Machine

/-- Settles O53: the first edge accepts the word and leaves the port awaiting its response for one edge less than the latency
(Port.Awaits), and each further edge brings the response one nearer. -/
theorem portTransactionIsOneStep : Obligations.PortTransactionIsOneStep := by
  intro T P p w first pins t hT hidle hoffer hrst hvalid hdata hlen hpins ht
  obtain ⟨n, hn⟩ := Nat.exists_eq_add_of_le' (one_le_commandLatency hT p.engine w)
  rw [hn] at hlen
  have hstart : ({ p.accept T P w with offer := none } : Port).Awaits P p.engine.countAccepted w n := accept_awaits P hn
  have hrun : ∀ is, p.run T P (first :: is) = Port.run T P { p.accept T P w with offer := none } is := by
    intro is
    simp [Port.run, edge_of_idle T P hidle hoffer hrst hvalid hdata]
  have hwaits : ∀ k q, k ≤ n → p.run T P (first :: pins.take k) = some q →
      q.Awaits P p.engine.countAccepted w (n - k) := by
    intro k q hk hq
    have hkl : (pins.take k).length = k := by simp; omega
    rw [hrun] at hq
    simpa [hkl] using run_awaits hstart (hkl.trans_le hk) (fun i hi => (hpins i (List.mem_of_mem_take hi)).1) hq
  rw [engineStep_command] at ht
  refine ⟨fun q hq => ?_, fun k q hk hq => ?_, fun q hq => ?_, fun hsilent => ?_⟩
  · rw [hrun] at hq
    rw [ht]
    exact run_takes_response hstart hlen hpins hq
  · exact outputs_rspValid_of_awaits (hwaits k q (by omega) hq) (by omega)
  · rw [hlen, Nat.add_sub_cancel] at hq
    have hresponse : q.Awaits P p.engine.countAccepted w 0 := by simpa using hwaits n q le_rfl hq
    rw [outputs_rspData_of_awaits hresponse, ht, commandStep_responses, List.getLast?_concat]
  · rw [hrun]
    exact run_isSome_of_silent T P rfl hsilent

/-- Settles O54, from the two duties the pins show and the word that stays offered after an edge. -/
theorem portHasNoEdgeForABreach : Obligations.PortHasNoEdgeForABreach := by
  intro T P p i
  refine ⟨fun w hoffer => ?_, fun hoffer => ?_, fun q hq => ?_⟩
  · rw [edge_eq_none_iff, ← Bool.not_eq_true, dutiesKept_of_offer hoffer, not_and_or, Bool.not_eq_true]
  · rw [edge_eq_none_iff, dutiesKept_of_no_offer hoffer, isPush_iff, outstanding_iff]
  · obtain ⟨-, rfl⟩ := (edge_eq_some_iff T P p q i).1 hq
    rw [← offered_not_accepted_iff]
    exact ⟨offerAfter_eq_some_iff p i, offerAfter_eq_none_iff p i⟩

end Sys2Proof.Machine
end

section
/-! SUPPORT. The machine's invariant (10_state.md R25 to R40): what it speaks of, and each operation that keeps it. -/

namespace Sys2Proof.Machine

/-! ### The state after reset -/

/-- Reset leaves an unconfigured block with nothing listed in its storage and no error recorded
(70_reset_and_hazards.md R230, R231). -/
theorem EngineInv.applyReset {P : Params} (hP : Config.LegalNMax P.nMax) (s : State) : EngineInv P s.applyReset where
  nMax := hP
  coefWf := rfl
  histWf := rfl
  coefSlots := by simp
  histSlots := by simp
  reserved := by simp
  errIff := by simp
  errCodes := by simp
  outvCfg := by simp
  ovfOutv := by simp
  configured := by simp

/-! ### What PUSH computes (41_convolution.md R145 to R147) -/

/-- The pointer moves down one slot around the window (41_convolution.md R145). -/
theorem pushSample_ptr_eq (x : SInt16) {s : State} (hp : s.ptr < s.n) :
    (pushSample x s).ptr = (s.ptr + s.n - 1) % s.n := by
  obtain ⟨hq, -, -⟩ := macPass_spec s.coef (s.hist.write s.ptr x) s.n s.ptr hp
  rw [pushSample_ptr, hq]

/-- The output and OVF of a PUSH are those of the exact sum over the state before it (41_convolution.md R146, R147). -/
theorem pushSample_output (x : SInt16) {s : State} (hp : s.ptr < s.n) (hw : s.hist.wf = true) :
    (pushSample x s).lastOut = firOutput (pushSum x s) ∧
    (pushSample x s).ovf = (outOfRange (pushSum x s) || s.ovf) := by
  obtain ⟨-, hsum, hacc⟩ := macPass_spec s.coef (s.hist.write s.ptr x) s.n s.ptr hp
  rw [pushSample_lastOut, pushSample_ovf, hacc, hsum, slotSum_push x s hp hw, extractOutput_wrap32]
  exact ⟨rfl, rfl⟩

/-! ### What the invariant speaks of -/

/-- `t` has the effective configuration, the storage and the pointer of `s` (10_state.md R24 to R28). -/
structure State.SameFilter (s t : State) : Prop where
  n    : t.n = s.n
  fc   : t.fc = s.fc
  fs   : t.fs = s.fs
  coef : t.coef = s.coef
  hist : t.hist = s.hist
  ptr  : t.ptr = s.ptr

section
variable {P : Params} {s t : State}

theorem Configured.of_sameFilter (h : Configured P s) (hf : s.SameFilter t) : Configured P t where
  legal := by rw [hf.n, hf.fc, hf.fs]; exact h.legal
  ptr   := by rw [hf.ptr, hf.n]; exact h.ptr
  coef  := by rw [hf.n, hf.fc, hf.fs, hf.coef]; exact h.coef

/-- The invariant after a change of the error record, with the filter and the flags kept but for an OVF that may go. -/
theorem EngineInv.of_record (h : EngineInv P s) (hf : s.SameFilter t) (hcfg : t.cfg = s.cfg) (houtv : t.outv = s.outv)
    (hovf : t.ovf = true → s.ovf = true) (hreserved : t.reservedStatus = s.reservedStatus)
    (herr : t.errCode = 0#4 ↔ t.err = false) (hcodes : t.errCode ≤ 11#4) : EngineInv P t where
  nMax := h.nMax
  coefWf := by rw [hf.coef]; exact h.coefWf
  histWf := by rw [hf.hist]; exact h.histWf
  coefSlots := by rw [hf.coef]; exact h.coefSlots
  histSlots := by rw [hf.hist]; exact h.histSlots
  reserved := hreserved.trans h.reserved
  errIff := herr
  errCodes := hcodes
  outvCfg := by rw [houtv, hcfg]; exact h.outvCfg
  ovfOutv := by rw [houtv]; exact fun hv => h.ovfOutv (hovf hv)
  configured := by rw [hcfg]; exact fun hc => (h.configured hc).of_sameFilter hf

/-- The invariant does not speak of the staging registers, LAST_OUT, the position or the host's side of the port. -/
theorem EngineInv.of_status (h : EngineInv P s) (hf : s.SameFilter t) (hstatus : t.status = s.status) : EngineInv P t := by
  refine h.of_record hf (State.cfg_congr hstatus) (State.outv_congr hstatus) ?_ (State.reservedStatus_congr hstatus) ?_ ?_
  · rw [State.ovf_congr hstatus]; exact id
  · rw [State.errCode_congr hstatus, State.err_congr hstatus]; exact h.errIff
  · rw [State.errCode_congr hstatus]; exact h.errCodes

/-! ### Each operation -/

theorem EngineInv.takeInbox (h : EngineInv P s) (rest : List HostMove) : EngineInv P { s with inbox := rest } :=
  h.of_status ⟨rfl, rfl, rfl, rfl, rfl, rfl⟩ rfl

theorem EngineInv.countAccepted (h : EngineInv P s) : EngineInv P s.countAccepted :=
  h.of_status ⟨rfl, rfl, rfl, rfl, rfl, rfl⟩ rfl

theorem EngineInv.respond (h : EngineInv P s) (r : Word) : EngineInv P (s.respond r) :=
  h.of_status ⟨rfl, rfl, rfl, rfl, rfl, rfl⟩ rfl

/-- Staging a configuration touches no effective register (10_state.md R23, R24). -/
theorem EngineInv.stage (h : EngineInv P s) (n fc fs : UInt24) :
    EngineInv P { s with nReq := n, fcReq := fc, fsReq := fs } :=
  h.of_status ⟨rfl, rfl, rfl, rfl, rfl, rfl⟩ rfl

theorem EngineInv.raise (h : EngineInv P s) (e : ErrorCode) : EngineInv P (s.raise e) := by
  refine h.of_record ⟨rfl, rfl, rfl, rfl, rfl, rfl⟩ (State.raise_cfg s e) (State.raise_outv s e) ?_
    (State.raise_reservedStatus s e) ?_ ?_
  · rw [State.raise_ovf]; exact id
  · simp [e.bits_ne_zero]
  · rw [State.raise_errCode]; exact e.bits_le

theorem EngineInv.clearErrors (h : EngineInv P s) : EngineInv P s.clearErrors :=
  h.of_record ⟨rfl, rfl, rfl, rfl, rfl, rfl⟩ (State.clearErrors_cfg s) (State.clearErrors_outv s) (by simp)
    (State.clearErrors_reservedStatus s) (by simp) (by simp)

/-- A construction with a legal configuration that fits the effective registers (40_synthesis.md R112). -/
theorem EngineInv.construct (h : EngineInv P s) {n fce fs : Nat} (hl : LegalConfig P.nMax n fce fs) (hfs : fs < 2 ^ 24) :
    EngineInv P (construct P n fce fs s) := by
  have hfce : fce < 2 ^ 24 := by have := hl.fceHigh; omega
  have hfsValue : uint24Value (BitVec.ofNat 24 fs) = fs := (BitVec.toNat_ofNat fs 24).trans (Nat.mod_eq_of_lt hfs)
  have hfceValue : uint24Value (BitVec.ofNat 24 fce) = fce := (BitVec.toNat_ofNat fce 24).trans (Nat.mod_eq_of_lt hfce)
  constructor
  case nMax => exact h.nMax
  case coefWf => exact Memory.wf_fill _ n h.coefWf
  case histWf => exact Memory.wf_fill _ n h.histWf
  case coefSlots => exact Memory.slots_fill _ h.coefSlots hl.fits
  case histSlots => exact Memory.slots_fill _ h.histSlots hl.fits
  case reserved => rw [construct_reservedStatus]; exact h.reserved
  case errIff => rw [construct_errCode, construct_err]; exact h.errIff
  case errCodes => rw [construct_errCode]; exact h.errCodes
  case outvCfg => simp
  case ovfOutv => simp
  case configured =>
    refine fun _ => ⟨?_, ?_, fun k hk => ?_⟩
    · rw [construct_n, construct_fc, construct_fs, hfceValue, hfsValue]; exact hl
    · rw [construct_ptr, construct_n]; have := hl.atLeast3; omega
    · rw [construct_n] at hk
      rw [construct_n, construct_fc, construct_fs, hfceValue, hfsValue, construct_coef, Memory.read_fill _ n h.coefWf,
        if_pos hk]

theorem EngineInv.pushSample (h : EngineInv P s) (hcfg : s.cfg = true) (x : SInt16) : EngineInv P (pushSample x s) := by
  obtain ⟨hlegal, hptr, hcoef⟩ := h.configured hcfg
  constructor
  case nMax => exact h.nMax
  case coefWf => rw [pushSample_coef]; exact h.coefWf
  case histWf => rw [pushSample_hist]; exact Memory.wf_write h.histWf _ _
  case coefSlots => rw [pushSample_coef]; exact h.coefSlots
  case histSlots => rw [pushSample_hist]; exact Memory.slots_write h.histSlots (hptr.trans_le hlegal.fits) x
  case reserved => rw [pushSample_reservedStatus]; exact h.reserved
  case errIff => rw [pushSample_errCode, pushSample_err]; exact h.errIff
  case errCodes => rw [pushSample_errCode]; exact h.errCodes
  case outvCfg => exact fun _ => (pushSample_cfg x s).trans hcfg
  case ovfOutv => exact fun _ => pushSample_outv x s
  case configured =>
    refine fun _ => ⟨?_, ?_, ?_⟩
    · rw [pushSample_n, pushSample_fc, pushSample_fs]; exact hlegal
    · rw [pushSample_ptr_eq x hptr, pushSample_n]; exact Nat.mod_lt _ (by omega)
    · rw [pushSample_n, pushSample_fc, pushSample_fs, pushSample_coef]; exact hcoef

/-! ### One command, one move, one step -/

theorem EngineInv.runCommand (h : EngineInv P s) (i : Instr) : EngineInv P (runCommand P i s) := by
  rcases runCommand_cases P i s with ⟨e, hr⟩ | ⟨r, hr, -⟩ | ⟨u, -, hr⟩ | ⟨u, -, hr⟩ | ⟨u, -, hr⟩ | ⟨-, hr⟩ |
    ⟨-, hv, hr⟩ | ⟨x, -, hcfg, hr⟩ <;> rw [hr]
  · exact h.raise e
  · exact h.respond r
  · exact (h.stage u s.fcReq s.fsReq).respond _
  · exact (h.stage s.nReq u s.fsReq).respond _
  · exact (h.stage s.nReq s.fcReq u).respond _
  · exact h.clearErrors.respond _
  · exact (h.construct (legal_of_validate hv) (BitVec.isLt _)).respond _
  · exact (h.pushSample hcfg x).respond _

theorem EngineInv.acceptWord (h : EngineInv P s) (w : Word) : EngineInv P (acceptWord P w s) := by
  rcases acceptWord_cases P w s with ⟨i, -, hw⟩ | ⟨-, hw⟩ | ⟨-, hw⟩ <;> rw [hw]
  · exact h.runCommand i
  · exact h.raise _
  · exact h.raise _

theorem EngineInv.takeMove (h : EngineInv P s) (m : HostMove) : EngineInv P (takeMove P m s) := by
  cases m with
  | command w => exact h.countAccepted.acceptWord w
  | reset => exact EngineInv.applyReset h.nMax s
  | resetInFlight w => exact EngineInv.applyReset h.nMax s.countAccepted

theorem EngineInv.engineStep (h : EngineInv P s) : EngineInv P (engineStep P s) := by
  cases hbox : s.inbox with
  | nil => rw [engineStep_idle P hbox]; exact h
  | cons m rest => rw [engineStep_move P hbox]; exact (h.takeInbox rest).takeMove m

end

end Sys2Proof.Machine
end

section
/-! SUPPORT. What a host can observe (10_state.md R42): the operations keep two states alike to the host when they are so
before, the responses included. -/

namespace Sys2Proof.Machine

section
variable {P : Params} {s t : State}

/-! ### What PUSH reads -/

/-- The exact sum of a PUSH reads N, PTR and the slots below N alone (41_convolution.md R146). -/
theorem SameToHost.pushSum_eq (h : SameToHost s t) (hcfg : s.cfg = true) (x : SInt16) : pushSum x s = pushSum x t := by
  unfold pushSum
  rw [← h.n hcfg, ← h.ptr hcfg]
  congr 1
  refine List.map_congr_left fun i hi => ?_
  have hi : i < s.n := List.mem_range.1 hi
  rw [h.coef hcfg i hi, h.hist hcfg _ (Nat.mod_lt _ (by omega))]

/-! ### Each operation -/

/-- The host cannot see how many commands were accepted. -/
theorem SameToHost.countAccepted (h : SameToHost s t) : SameToHost s.countAccepted t.countAccepted :=
  { h with }

theorem SameToHost.takeInbox (h : SameToHost s t) (rest : List HostMove) :
    SameToHost { s with inbox := rest } { t with inbox := rest } :=
  { h with inbox := rfl }

theorem SameToHost.respond (h : SameToHost s t) (r : Word) : SameToHost (s.respond r) (t.respond r) :=
  { h with responses := congrArg (· ++ [r]) h.responses }

theorem SameToHost.setnReq (h : SameToHost s t) (u : UInt24) : SameToHost { s with nReq := u } { t with nReq := u } :=
  { h with nReq := rfl }

theorem SameToHost.setfcReq (h : SameToHost s t) (u : UInt24) : SameToHost { s with fcReq := u } { t with fcReq := u } :=
  { h with fcReq := rfl }

theorem SameToHost.setfsReq (h : SameToHost s t) (u : UInt24) : SameToHost { s with fsReq := u } { t with fsReq := u } :=
  { h with fsReq := rfl }

/-- A write of STATUS that keeps CFG and OUTV makes nothing more observable. -/
theorem SameToHost.setStatus (h : SameToHost s t) (w : Word) (hcfg : State.cfg { s with status := w } = s.cfg)
    (houtv : State.outv { s with status := w } = s.outv) :
    SameToHost { s with status := w } { t with status := w } where
  nReq := h.nReq
  fcReq := h.fcReq
  fsReq := h.fsReq
  status := rfl
  inbox := h.inbox
  responses := h.responses
  n := by rw [hcfg]; exact h.n
  fc := by rw [hcfg]; exact h.fc
  fs := by rw [hcfg]; exact h.fs
  ptr := by rw [hcfg]; exact h.ptr
  coef := by rw [hcfg]; exact h.coef
  hist := by rw [hcfg]; exact h.hist
  lastOut := by rw [houtv]; exact h.lastOut

theorem SameToHost.raise (h : SameToHost s t) (e : ErrorCode) : SameToHost (s.raise e) (t.raise e) := by
  have hstatus : (t.raise e).status = (s.raise e).status := by simp [h.status]
  rw [State.raise_frame s, State.raise_frame t, hstatus]
  exact (h.setStatus _ (State.raise_cfg s e) (State.raise_outv s e)).respond errorResponse

theorem State.clearErrors_frame (s : State) : s.clearErrors = { s with status := s.clearErrors.status } := rfl

theorem SameToHost.clearErrors (h : SameToHost s t) : SameToHost s.clearErrors t.clearErrors := by
  have hstatus : t.clearErrors.status = s.clearErrors.status := by simp [h.status]
  rw [State.clearErrors_frame s, State.clearErrors_frame t, hstatus]
  exact h.setStatus _ (State.clearErrors_cfg s) (State.clearErrors_outv s)

/-- After a reset the host can observe nothing of the effective configuration, the storage and the output
(70_reset_and_hazards.md R231). -/
theorem SameToHost.applyReset (h : SameToHost s t) : SameToHost s.applyReset t.applyReset where
  nReq := rfl
  fcReq := rfl
  fsReq := rfl
  status := rfl
  inbox := h.inbox
  responses := h.responses
  n := fun _ => rfl
  fc := fun _ => rfl
  fs := fun _ => rfl
  ptr := fun _ => rfl
  coef := fun _ _ _ => rfl
  hist := fun _ _ _ => rfl
  lastOut := fun _ => rfl

/-- A construction writes every slot below the new N, so nothing from before it is left to observe
(40_synthesis.md R112). -/
theorem SameToHost.construct (h : SameToHost s t) (hs : EngineInv P s) (ht : EngineInv P t) (n fce fs : Nat) :
    SameToHost (construct P n fce fs s) (construct P n fce fs t) where
  nReq := h.nReq
  fcReq := h.fcReq
  fsReq := h.fsReq
  status := by simp only [Machine.construct, State.setOvf_status, State.setOutv_status, State.setCfg_status, h.status]
  inbox := h.inbox
  responses := h.responses
  n := fun _ => rfl
  fc := fun _ => rfl
  fs := fun _ => rfl
  ptr := fun _ => rfl
  coef := fun _ k hk => by
    rw [construct_n] at hk
    simp only [construct_coef, Memory.read_fill _ n hs.coefWf, Memory.read_fill _ n ht.coefWf, if_pos hk]
  hist := fun _ k hk => by
    rw [construct_n] at hk
    simp only [construct_hist, Memory.read_fill _ n hs.histWf, Memory.read_fill _ n ht.histWf, if_pos hk]
  lastOut := fun _ => rfl

theorem SameToHost.pushSample (h : SameToHost s t) (hs : EngineInv P s) (ht : EngineInv P t) (hcfg : s.cfg = true)
    (x : SInt16) : SameToHost (pushSample x s) (pushSample x t) := by
  have hcfgt : t.cfg = true := (State.cfg_congr h.status).symm.trans hcfg
  have hps : s.ptr < s.n := (hs.configured hcfg).ptr
  have hpt : t.ptr < t.n := (ht.configured hcfgt).ptr
  have hsum : pushSum x s = pushSum x t := h.pushSum_eq hcfg x
  obtain ⟨houts, hovfs⟩ := pushSample_output x hps hs.histWf
  obtain ⟨houtt, hovft⟩ := pushSample_output x hpt ht.histWf
  constructor
  case nReq => simpa using h.nReq
  case fcReq => simpa using h.fcReq
  case fsReq => simpa using h.fsReq
  case inbox => simpa using h.inbox
  case responses => simpa using h.responses
  case status =>
    apply status_ext
    · simpa using State.cfg_congr h.status
    · simp
    · simpa using State.err_congr h.status
    · rw [hovfs, hovft, hsum, State.ovf_congr h.status]
    · simpa using State.errCode_congr h.status
    · simpa using State.reservedStatus_congr h.status
  case n => simpa using h.n
  case fc => simpa using h.fc
  case fs => simpa using h.fs
  case ptr => exact fun _ => by rw [pushSample_ptr_eq x hps, pushSample_ptr_eq x hpt, h.ptr hcfg, h.n hcfg]
  case coef => simpa using h.coef
  case hist =>
    intro _ k hk
    rw [pushSample_n] at hk
    rw [pushSample_hist, pushSample_hist, Memory.read_write hs.histWf, Memory.read_write ht.histWf, h.ptr hcfg,
      h.hist hcfg k hk]
  case lastOut => exact fun _ => by rw [houts, houtt, hsum]

/-! ### Each command -/

theorem SameToHost.synthEffect (h : SameToHost s t) (hs : EngineInv P s) (ht : EngineInv P t) :
    SameToHost (synthEffect P s) (synthEffect P t) := by
  simp only [Machine.synthEffect, ← h.nReq, ← h.fcReq, ← h.fsReq]
  cases validate P.nMax (uint24Value s.nReq) (uint24Value s.fcReq) (uint24Value s.fsReq) with
  | some e => exact h.raise e
  | none => exact (h.construct hs ht _ _ _).respond _

theorem SameToHost.pushEffect (h : SameToHost s t) (hs : EngineInv P s) (ht : EngineInv P t) (x : SInt16) :
    SameToHost (pushEffect x s) (pushEffect x t) := by
  unfold Machine.pushEffect
  rw [← State.cfg_congr h.status]
  split
  next hcfg =>
    have hpush := h.pushSample hs ht hcfg x
    rw [hpush.lastOut (pushSample_outv x s)]
    exact hpush.respond _
  next => exact h.raise _

theorem SameToHost.lastEffect (h : SameToHost s t) : SameToHost (lastEffect s) (lastEffect t) := by
  unfold Machine.lastEffect
  rw [← State.cfg_congr h.status, ← State.outv_congr h.status]
  split
  · split
    next houtv => rw [h.lastOut houtv]; exact h.respond _
    next => exact h.raise _
  · exact h.raise _

/-- What a selector reads of two configured states that are alike to the host; the staged values and N_MAX need no
configuration (42_status_readback.md R173). -/
theorem SameToHost.configValue_eq (h : SameToHost s t) (P : Params) {sel : Selector}
    (hcfg : Selector.needsConfig sel = true → s.cfg = true) : configValue P sel s = configValue P sel t := by
  cases sel with
  | n => exact h.n (hcfg rfl)
  | fc => exact congrArg uint24Value (h.fc (hcfg rfl))
  | fs => exact congrArg uint24Value (h.fs (hcfg rfl))
  | ptr => exact h.ptr (hcfg rfl)
  | nreq => exact congrArg uint24Value h.nReq
  | fcreq => exact congrArg uint24Value h.fcReq
  | fsreq => exact congrArg uint24Value h.fsReq
  | nmax => rfl

theorem SameToHost.rdcfgEffect (h : SameToHost s t) (P : Params) (sel : Selector) :
    SameToHost (rdcfgEffect P sel s) (rdcfgEffect P sel t) := by
  unfold Machine.rdcfgEffect
  rw [← State.cfg_congr h.status]
  split
  next => exact h.raise _
  next hsel =>
    rw [h.configValue_eq P (sel := sel) (by simpa using hsel)]
    exact h.respond _

/-- Reading slot `i` of two storage spaces that agree below N (42_status_readback.md R174, R175). -/
theorem SameToHost.readSlot (h : SameToHost s t) {m k : Memory} (i : Nat)
    (hread : s.cfg = true → ∀ j, j < s.n → m.read j = k.read j) : SameToHost (readSlot m i s) (readSlot k i t) := by
  unfold Machine.readSlot
  rw [← State.cfg_congr h.status]
  split
  next hcfg =>
    rw [← h.n hcfg]
    split
    next => exact h.raise _
    next hi => rw [hread hcfg i (by omega)]; exact h.respond _
  next => exact h.raise _

theorem SameToHost.runCommand (h : SameToHost s t) (hs : EngineInv P s) (ht : EngineInv P t) (i : Instr) :
    SameToHost (runCommand P i s) (runCommand P i t) := by
  cases i with
  | nop => exact h.respond _
  | setn u => exact (h.setnReq u).respond _
  | setfc u => exact (h.setfcReq u).respond _
  | setfs u => exact (h.setfsReq u).respond _
  | synth => exact h.synthEffect hs ht
  | push x => exact h.pushEffect hs ht x
  | last => exact h.lastEffect
  | rdstat =>
    show SameToHost (s.respond s.status) (t.respond t.status)
    rw [h.status]; exact h.respond _
  | rdcfg sel => exact h.rdcfgEffect P sel
  | rdcoef k => exact h.readSlot _ h.coef
  | rdhist k => exact h.readSlot _ h.hist
  | clrstat => exact h.clearErrors.respond _

/-! ### One word, one move, one step -/

theorem SameToHost.acceptWord (h : SameToHost s t) (hs : EngineInv P s) (ht : EngineInv P t) (w : Word) :
    SameToHost (acceptWord P w s) (acceptWord P w t) := by
  unfold Machine.acceptWord
  cases decode w with
  | ok i => exact h.runCommand hs ht i
  | illegalOpcode => exact h.raise _
  | reservedBits => exact h.raise _

theorem SameToHost.takeMove (h : SameToHost s t) (hs : EngineInv P s) (ht : EngineInv P t) (m : HostMove) :
    SameToHost (takeMove P m s) (takeMove P m t) := by
  cases m with
  | command w => exact h.countAccepted.acceptWord hs.countAccepted ht.countAccepted w
  | reset => exact h.applyReset
  | resetInFlight w => exact h.countAccepted.applyReset

theorem SameToHost.engineStep (h : SameToHost s t) (hs : EngineInv P s) (ht : EngineInv P t) :
    SameToHost (engineStep P s) (engineStep P t) := by
  cases hbox : s.inbox with
  | nil => rw [engineStep_idle P hbox, engineStep_idle P (h.inbox.symm.trans hbox)]; exact h
  | cons m rest =>
    rw [engineStep_move P hbox, engineStep_move P (h.inbox.symm.trans hbox)]
    exact (h.takeInbox rest).takeMove (hs.takeInbox rest) (ht.takeInbox rest) m

end

end Sys2Proof.Machine
end

section
/-! SUPPORT. What a command can do to STATUS (10_state.md R33 to R39), and what a step of one block among several is
(10_state.md R43). -/

namespace Sys2Proof.Machine

/-- Everything a command can do to STATUS: the error action, nothing, or what CLRSTAT, SYNTH and PUSH do to the flags. -/
theorem runCommand_status_cases (P : Params) (i : Instr) (s : State) :
    (∃ e, runCommand P i s = s.raise e) ∨
    (runCommand P i s).status = s.status ∨
    (i = .clrstat ∧ (runCommand P i s).status = s.clearErrors.status) ∨
    (i = .synth ∧ ∃ n fce fs, (runCommand P i s).status = (construct P n fce fs s).status) ∨
    (∃ x, i = .push x ∧ (runCommand P i s).status = (pushSample x s).status) := by
  rcases runCommand_cases P i s with h | ⟨r, h, -⟩ | ⟨u, -, h⟩ | ⟨u, -, h⟩ | ⟨u, -, h⟩ | ⟨hi, h⟩ | ⟨hi, -, h⟩ |
    ⟨x, hi, -, h⟩
  · exact .inl h
  · exact .inr (.inl (by rw [h]; rfl))
  · exact .inr (.inl (by rw [h]; rfl))
  · exact .inr (.inl (by rw [h]; rfl))
  · exact .inr (.inl (by rw [h]; rfl))
  · exact .inr (.inr (.inl ⟨hi, by rw [h]; rfl⟩))
  · exact .inr (.inr (.inr (.inl ⟨hi, _, _, _, by rw [h]; rfl⟩)))
  · exact .inr (.inr (.inr (.inr ⟨x, hi, by rw [h]; rfl⟩)))

/-- A step of block `k` changes the entry at `k` of the list and no other. -/
theorem stepInstance_eq_modify (ss : List (Params × State)) (k : Nat) :
    stepInstance ss k = ss.modify k (fun b => (b.1, engineStep b.1 b.2)) := by
  induction ss generalizing k with
  | nil => cases k <;> rfl
  | cons b ss ih =>
    cases k with
    | zero => rfl
    | succ k => rw [stepInstance, List.modify_succ_cons, ih]

end Sys2Proof.Machine
end

section
/-! PROOFS. The statements about the state (10_state.md R21 to R43). -/

namespace Sys2Proof.Machine

/-- Settles O51: every operation keeps the invariant, so every step does (EngineInv.engineStep); the host's step is the engine's. -/
theorem stepKeepsInvariant : Obligations.StepKeepsInvariant := by
  refine ⟨fun P s h => h.engineStep, fun s t h hstep => ?_⟩
  obtain rfl : engineStep referenceParams s = t := by simpa [step_eq_engineStep] using hstep
  exact h.engineStep

/-- Settles O52: every operation keeps states alike to the host; PUSH, LAST and the readbacks read what is unspecified only
where CFG or OUTV makes it observable. -/
theorem unspecifiedStateIsUnobservable : Obligations.UnspecifiedStateIsUnobservable :=
  ⟨fun _ _ _ hs hs' h => h.engineStep hs hs',
    fun s s' hs hs' h => ⟨_, _, step_eq_engineStep s, step_eq_engineStep s', h.engineStep hs hs'⟩⟩

/-- Settles O12, by the kind of move taken. -/
theorem positionCountsAcceptedCommands : Obligations.PositionCountsAcceptedCommands := by
  intro P s m rest hbox
  rw [engineStep_move P hbox]
  cases m with
  | command w =>
    obtain ⟨-, hinbox, haccepted⟩ := acceptWord_responds P w (State.countAccepted { s with inbox := rest })
    exact ⟨hinbox, nofun, fun _ _ => haccepted⟩
  | reset => exact ⟨rfl, fun _ => rfl, by simp⟩
  | resetInFlight w => exact ⟨rfl, nofun, fun _ _ => rfl⟩

/-- Settles O16: of the commands that write STATUS, SYNTH and PUSH leave the record alone. -/
theorem errorRecordIsSticky : Obligations.ErrorRecordIsSticky := by
  rintro P i s t hi rfl
  rcases runCommand_status_cases P i s with ⟨e, h⟩ | h | ⟨hc, -⟩ | ⟨-, n, fce, fs, h⟩ | ⟨x, -, h⟩
  · exact .inr ⟨e, h, by rw [h, State.raise_err], by rw [h, State.raise_errCode]⟩
  · exact .inl ⟨State.err_congr h, State.errCode_congr h⟩
  · exact absurd hc hi
  · exact .inl ⟨(State.err_congr h).trans (construct_err P n fce fs s),
      (State.errCode_congr h).trans (construct_errCode P n fce fs s)⟩
  · exact .inl ⟨(State.err_congr h).trans (pushSample_err x s), (State.errCode_congr h).trans (pushSample_errCode x s)⟩

/-- Settles O17, from what each command does to STATUS: an error and the commands but CLRSTAT, SYNTH and PUSH keep the three
flags. -/
theorem flagsChangeOnlyAsListed : Obligations.FlagsChangeOnlyAsListed := by
  rintro P i s t rfl
  rcases runCommand_status_cases P i s with ⟨e, h⟩ | h | ⟨rfl, h⟩ | ⟨rfl, n, fce, fs, h⟩ | ⟨x, rfl, h⟩
  · simp +contextual [h]
  · simp +contextual [State.cfg_congr h, State.outv_congr h, State.ovf_congr h]
  · simp +contextual [State.cfg_congr h, State.outv_congr h, State.ovf_congr h]
  · simp +contextual [State.cfg_congr h, State.outv_congr h, State.ovf_congr h]
  · simp +contextual [State.cfg_congr h, State.outv_congr h, State.ovf_congr h, pushSample_ovf]

/-- Settles O47: the fields of the reset value, at reset and at a reset edge. -/
theorem resetClearsStatusAndStaging : Obligations.ResetClearsStatusAndStaging :=
  ⟨rfl, rfl, rfl, rfl, fun s => ⟨State.applyReset_status s, State.applyReset_nReq s, State.applyReset_fcReq s,
    State.applyReset_fsReq s⟩⟩

/-- Settles O50: State.reset is what a reset makes of itself. -/
theorem resetMeetsInvariant : Obligations.ResetMeetsInvariant :=
  fun _ hP => EngineInv.applyReset hP State.reset

/-- Settles O58: stepping one block modifies its own entry of the list. -/
theorem instancesDoNotInteract : Obligations.InstancesDoNotInteract := by
  intro ss k j
  rw [stepInstance_eq_modify]
  refine ⟨fun hj => List.getElem?_modify_ne _ ss hj.symm, fun P s hk => ?_⟩
  rw [List.getElem?_modify_eq, hk]
  rfl

end Sys2Proof.Machine
end

section
/-! SUPPORT. A construction repeated (20_memory.md R57; 40_synthesis.md R112), and SYNTH by what its validation answers
(R111, R113). -/

namespace Sys2Proof.Machine

/-- Slots that already hold what they are filled with stay as they are. -/
theorem Memory.fill_fill_same (f : Nat → SInt16) (n : Nat) {m : Memory} (hm : m.wf = true) :
    Memory.fill f n (Memory.fill f n m) = Memory.fill f n m := by
  have hfill : (Memory.fill f n m).wf = true := Memory.wf_fill f n hm
  refine Memory.ext_read (Memory.wf_fill f n hfill) hfill fun j => ?_
  rw [Memory.read_fill f n hfill, Memory.read_fill f n hm]
  split <;> rfl

/-- The construction's frame: what it writes (40_synthesis.md R112). -/
theorem construct_frame (P : Params) (n fce fs : Nat) (s : State) :
    construct P n fce fs s =
      { s with
        coef := Memory.fill (P.coefGen n fce fs) n s.coef
        hist := Memory.fill (fun _ => 0#16) n s.hist
        n := n
        fc := BitVec.ofNat 24 fce
        fs := BitVec.ofNat 24 fs
        ptr := 0
        lastOut := 0#16
        status := (construct P n fce fs s).status } := rfl

theorem construct_respond (P : Params) (n fce fs : Nat) (s : State) (r : Word) :
    construct P n fce fs (s.respond r) = (construct P n fce fs s).respond r := rfl

/-- The second of two equal constructions changes nothing: the memories hold the values it writes, and CFG, OUTV and OVF
their bits. -/
theorem construct_construct_same (P : Params) (n fce fs : Nat) {s : State} (hcoef : s.coef.wf = true)
    (hhist : s.hist.wf = true) : construct P n fce fs (construct P n fce fs s) = construct P n fce fs s := by
  have hstatus : (construct P n fce fs (construct P n fce fs s)).status = (construct P n fce fs s).status := by
    apply status_ext <;> simp
  rw [construct_frame P n fce fs (construct P n fce fs s), hstatus, construct_coef, construct_hist,
    Memory.fill_fill_same _ n hcoef, Memory.fill_fill_same _ n hhist]
  rfl

theorem synthEffect_of_invalid {P : Params} {s : State} {e : ErrorCode}
    (h : validate P.nMax (uint24Value s.nReq) (uint24Value s.fcReq) (uint24Value s.fsReq) = some e) :
    synthEffect P s = s.raise e := by
  simp only [synthEffect, h]

theorem synthEffect_of_valid {P : Params} {s : State}
    (h : validate P.nMax (uint24Value s.nReq) (uint24Value s.fcReq) (uint24Value s.fsReq) = none) :
    synthEffect P s =
      (construct P (normalizeWindow (uint24Value s.nReq)) (clampCutoff (uint24Value s.fcReq) (uint24Value s.fsReq)).toNat
        (uint24Value s.fsReq) s).respond zeroResponse := by
  simp only [synthEffect, h]

/-- SYNTH answers 0 exactly when its validation passes (40_synthesis.md R112, R113). -/
theorem synthEffect_responds_zero_iff (P : Params) (s : State) :
    (synthEffect P s).responses = s.responses ++ [zeroResponse] ↔
      validate P.nMax (uint24Value s.nReq) (uint24Value s.fcReq) (uint24Value s.fsReq) = none := by
  cases hv : validate P.nMax (uint24Value s.nReq) (uint24Value s.fcReq) (uint24Value s.fsReq) with
  | none => simp [synthEffect_of_valid hv]
  | some e => simp [synthEffect_of_invalid hv, errorResponse, zeroResponse]

end Sys2Proof.Machine
end

section
/-! PROOFS. The statements about side effects and idempotency (20_memory.md R57). -/

namespace Sys2Proof.Machine

/-- Settles O26: a successful SYNTH keeps the staged values, so the second one repeats the same construction. -/
theorem successfulSynthIsIdempotent : Obligations.SuccessfulSynthIsIdempotent := by
  rintro P s t hs rfl hrsp
  have hvalid : validate P.nMax (uint24Value s.nReq) (uint24Value s.fcReq) (uint24Value s.fsReq) = none :=
    (synthEffect_responds_zero_iff P s).1 hrsp
  have hfirst := synthEffect_of_valid hvalid
  show synthEffect P (synthEffect P s) = (synthEffect P s).respond zeroResponse
  -- The first SYNTH leaves the staged values alone, so the validation that passed passes again.
  rw [hfirst, synthEffect_of_valid (by exact hvalid), construct_respond]
  exact congrArg (fun u => (State.respond u zeroResponse).respond zeroResponse)
    (construct_construct_same P _ _ _ hs.coefWf hs.histWf)

/-- Settles O46: of everything a command can do, the six readbacks have the error action and the response alone. -/
theorem readbacksChangeNoState : Obligations.ReadbacksChangeNoState := by
  rintro P i s t hi rfl
  rcases runCommand_cases P i s with herror | ⟨r, hrsp, -⟩ | ⟨u, rfl, -⟩ | ⟨u, rfl, -⟩ | ⟨u, rfl, -⟩ | ⟨rfl, -⟩ |
    ⟨rfl, -⟩ | ⟨x, rfl, -⟩
  · exact .inr herror
  · exact .inl ⟨r, hrsp⟩
  -- The commands left are none of the six.
  all_goals simp at hi

end Sys2Proof.Machine
end

section
/-! SUPPORT. The decoder and the encoder over the fields of a word (30_encoding.md R76 to R78, R82): what the decoder answers
by the opcode, what it reads from a word whose reserved bits are clear, and the mask and match columns of R81 as fields. -/

namespace Sys2Proof

/-! ### What the decoder answers (30_encoding.md R82) -/

theorem decode_of_unassigned {w : Word} (h : ∀ o : Op, o.opcode ≠ opcodeField w) : decode w = .illegalOpcode := by
  simp [decode, opOfOpcode_eq_none_iff.2 h]

theorem decode_of_opcode {w : Word} {o : Op} (h : o.opcode = opcodeField w) :
    decode w = if o.form.reservedClear w then .ok (o.build w) else .reservedBits := by
  simp [decode, opOfOpcode_eq_some_iff.2 h]

@[simp] theorem Op.op_build (o : Op) (w : Word) : (o.build w).op = o := by cases o <;> rfl

/-- A word decodes to an instruction when it has that instruction's opcode, no reserved bit set, and its operand. -/
theorem decode_eq_ok_iff {w : Word} {i : Instr} :
    decode w = .ok i ↔
      i.op.opcode = opcodeField w ∧ i.op.form.reservedClear w = true ∧ i.op.build w = i := by
  constructor
  · intro h
    by_cases hop : ∃ o : Op, o.opcode = opcodeField w
    · obtain ⟨o, ho⟩ := hop
      rw [decode_of_opcode ho] at h
      split at h
      next hclear =>
        obtain rfl : o.build w = i := by simpa using h
        exact ⟨by rw [o.op_build, ho], by rw [o.op_build, hclear], by rw [o.op_build]⟩
      next => cases h
    · rw [decode_of_unassigned (not_exists.1 hop)] at h
      cases h
  · rintro ⟨hop, hclear, hbuild⟩
    rw [decode_of_opcode hop, if_pos hclear, hbuild]

/-! ### Operands: what the encoder writes is what the decoder reads (30_encoding.md R77, R78) -/

/-- The word of an instruction has its opcode and no reserved bit set. -/
theorem encodedFields (i : Instr) : Laws.EncodedFields.Statement i := by
  cases i with
  | nop => exact Laws.EncodedFields.nop
  | setn u => exact Laws.EncodedFields.setn u
  | setfc u => exact Laws.EncodedFields.setfc u
  | setfs u => exact Laws.EncodedFields.setfs u
  | synth => exact Laws.EncodedFields.synth
  | push x => exact Laws.EncodedFields.push x
  | last => exact Laws.EncodedFields.last
  | rdstat => exact Laws.EncodedFields.rdstat
  | rdcfg sel => exact Laws.EncodedFields.rdcfg sel
  | rdcoef k => exact Laws.EncodedFields.rdcoef k
  | rdhist k => exact Laws.EncodedFields.rdhist k
  | clrstat => exact Laws.EncodedFields.clrstat

theorem low16Operand_of_operand {w : Word} {x : BitVec 16} (h : operandField w = 0#8 ++ x) : low16Operand w = x := by
  rw [low16Operand_eq, h]
  exact BitVec.extractLsb'_append_eq_right

theorem selOperand_of_operand {w : Word} {b : BitVec 3} (h : operandField w = 0#21 ++ b) : selOperand w = b := by
  rw [selOperand_eq, h]
  exact BitVec.extractLsb'_append_eq_right

/-- An operation reads back the operand of an instruction of its own. -/
theorem build_of_operand {w : Word} {i : Instr} (h : operandField w = i.operand) : i.op.build w = i := by
  cases i with
  | setn u => exact congrArg Instr.setn ((u24Operand_eq w).trans h)
  | setfc u => exact congrArg Instr.setfc ((u24Operand_eq w).trans h)
  | setfs u => exact congrArg Instr.setfs ((u24Operand_eq w).trans h)
  | push x => exact congrArg Instr.push (low16Operand_of_operand h)
  | rdcoef k => exact congrArg Instr.rdcoef (low16Operand_of_operand h)
  | rdhist k => exact congrArg Instr.rdhist (low16Operand_of_operand h)
  | rdcfg sel =>
    refine congrArg Instr.rdcfg ?_
    rw [selOperand_of_operand h, Selector.ofBits_toBits]
  | nop | synth | last | rdstat | clrstat => rfl

theorem decode_encode (i : Instr) : decode (encode i) = .ok i :=
  have ⟨hopcode, hoperand, hclear⟩ := encodedFields i
  decode_eq_ok_iff.2 ⟨hopcode.symm, hclear, build_of_operand hoperand⟩

theorem high_append_low {hi lo : Nat} (x : BitVec (hi + lo)) : x.extractLsb' lo hi ++ x.extractLsb' 0 lo = x := by
  rw [BitVec.extractLsb'_append_extractLsb'_eq_extractLsb' (Nat.zero_add lo).symm, BitVec.extractLsb'_eq_self]

/-- With the high bits clear, the low bits are the whole operand. -/
theorem append_low_of_high_eq_zero {hi lo : Nat} {x : BitVec (hi + lo)} (h : x.extractLsb' lo hi = 0#hi) :
    0#hi ++ x.extractLsb' 0 lo = x := by
  rw [← h, high_append_low]

/-- The operand of what an operation reads is the word's operand field: with the reserved bits clear nothing is lost. -/
theorem operand_build {w : Word} {o : Op} (h : o.form.reservedClear w = true) :
    (o.build w).operand = operandField w := by
  rw [reservedClear_eq] at h
  have noOperand (h : (operandField w == 0#24) = true) : 0#24 = operandField w := (eq_of_beq h).symm
  have low16 (h : ((operandField w).extractLsb' 16 8 == 0#8) = true) : 0#8 ++ low16Operand w = operandField w := by
    rw [low16Operand_eq]
    exact append_low_of_high_eq_zero (eq_of_beq h)
  have sel3 (h : ((operandField w).extractLsb' 3 21 == 0#21) = true) :
      0#21 ++ (Selector.ofBits (selOperand w)).toBits = operandField w := by
    rw [Selector.toBits_ofBits, selOperand_eq]
    exact append_low_of_high_eq_zero (eq_of_beq h)
  cases o with
  | nop | synth | last | rdstat | clrstat => exact noOperand h
  | setn | setfc | setfs => rfl
  | push | rdcoef | rdhist => exact low16 h
  | rdcfg => exact sel3 h

theorem encode_of_decode {w : Word} {i : Instr} (h : decode w = .ok i) : encode i = w := by
  obtain ⟨hopcode, hclear, hbuild⟩ := decode_eq_ok_iff.1 h
  have hoperand : i.operand = operandField w := by rw [← operand_build hclear, hbuild]
  rw [encode, hopcode, hoperand, word_eq_fields]

/-! ### The mask and match columns (30_encoding.md R81) -/

/-- The reserved bits of a form, set in a mask of the operand field (30_encoding.md R77, last column). -/
def Form.reservedMask : Form → BitVec 24
  | .none          => BitVec.allOnes 24
  | .u24           => 0#24
  | .s16 | .idx16  => BitVec.allOnes 8 ++ 0#16
  | .sel3          => BitVec.allOnes 21 ++ 0#3

theorem Op.maskBits_eq (o : Op) : o.maskBits = BitVec.allOnes 8 ++ o.form.reservedMask := by cases o <;> decide

theorem Op.matchBits_eq (o : Op) : o.matchBits = o.opcode ++ 0#24 := by cases o <;> decide

theorem word_append_inj {a a' : BitVec 8} {b b' : BitVec 24} : a ++ b = a' ++ b' ↔ a = a' ∧ b = b' := by
  refine ⟨fun h => ⟨?_, ?_⟩, fun ⟨ha, hb⟩ => by rw [ha, hb]⟩
  · simpa only [opcodeField_append] using congrArg opcodeField h
  · simpa only [operandField_append] using congrArg operandField h

theorem and_high_mask_eq_zero_iff {hi lo : Nat} (x : BitVec (hi + lo)) :
    x &&& (BitVec.allOnes hi ++ 0#lo) = 0#(hi + lo) ↔ x.extractLsb' lo hi = 0#hi := by
  conv_lhs => rw [← high_append_low x, BitVec.and_append, BitVec.and_allOnes, BitVec.and_zero, ← BitVec.zero_append_zero]
  exact BitVec.append_left_inj _

/-- The decoder's reading of the reserved bits is the mask's. -/
theorem Form.reservedClear_iff_mask (f : Form) (w : Word) :
    f.reservedClear w = true ↔ operandField w &&& f.reservedMask = 0#24 := by
  rw [reservedClear_eq]
  cases f with
  | none => rw [Form.reservedMask, BitVec.and_allOnes]; exact beq_iff_eq
  | u24 => simp [Form.reservedMask]
  | s16 | idx16 => exact beq_iff_eq.trans (and_high_mask_eq_zero_iff (hi := 8) (lo := 16) (operandField w)).symm
  | sel3 => exact beq_iff_eq.trans (and_high_mask_eq_zero_iff (hi := 21) (lo := 3) (operandField w)).symm

/-- A word spells an operation exactly when it has its opcode and no reserved bit set. -/
theorem Op.spells_iff (o : Op) (w : Word) :
    o.Spells w ↔ o.opcode = opcodeField w ∧ o.form.reservedClear w = true := by
  rw [Op.Spells, o.maskBits_eq, o.matchBits_eq, Form.reservedClear_iff_mask]
  conv_lhs => rw [← word_eq_fields w, BitVec.and_append, BitVec.and_allOnes]
  rw [word_append_inj, eq_comm (a := opcodeField w)]

theorem Op.opcode_injective {o o' : Op} (h : o.opcode = o'.opcode) : o = o' := by
  have := opOfOpcode_opcode o
  rw [h, opOfOpcode_opcode] at this
  exact (Option.some.inj this).symm

/-- The opcodes with no row are three ranges (30_encoding.md R82). -/
theorem opcode_unassigned_iff (b : BitVec 8) :
    (∀ o : Op, o.opcode ≠ b) ↔
      (0x05#8 ≤ b ∧ b ≤ 0x0F#8) ∨ (0x12#8 ≤ b ∧ b ≤ 0x1F#8) ∨ (0x25#8 ≤ b ∧ b ≤ 0xFF#8) := by
  rw [← opOfOpcode_eq_none_iff]
  revert b
  decide

end Sys2Proof
end

section
/-! SUPPORT. The response word of a success is never ERR_RSP, 0x80000000 (30_encoding.md R79, R80): zeros, STATUS, sign-extended
samples and bounded unsigned values. -/

namespace Sys2Proof.Machine

/-! ### The response forms (30_encoding.md R79) -/

theorem zeroResponse_ne_errorResponse : zeroResponse ≠ errorResponse := by decide

/-- Bits 31 and 30 of a sign-extended sample are both its sign; those of ERR_RSP differ. -/
theorem sampleResponse_ne_errorResponse (v : SInt16) : sampleResponse v ≠ errorResponse := by
  intro h
  have hbit : ∀ j, 16 ≤ j → j < 32 → getBit errorResponse j = v.msb := fun j hlow hhigh => by
    rw [← h, getBit, sampleResponse, BitVec.getLsbD_signExtend, if_neg (by omega), decide_eq_true hhigh, Bool.true_and]
  exact absurd ((hbit 31 (by omega) (by omega)).trans (hbit 30 (by omega) (by omega)).symm) (by decide)

theorem unsignedResponse_ne_errorResponse {v : Nat} (hv : v < 2 ^ 31) : unsignedResponse v ≠ errorResponse := by
  intro h
  have : v % 2 ^ 32 = 2 ^ 31 := by simpa [unsignedResponse, errorResponse] using congrArg BitVec.toNat h
  omega

section
variable {P : Params} {s : State}

/-- STATUS bit 31 reads 0 (10_state.md R40). -/
theorem EngineInv.status_ne_errorResponse (h : EngineInv P s) : s.status ≠ errorResponse := by
  intro hstatus
  have hreserved : s.reservedStatus = 0#32 := h.reserved
  rw [State.reservedStatus, hstatus] at hreserved
  exact absurd hreserved (by decide)

theorem uint24Value_lt (u : UInt24) : uint24Value u < 2 ^ 31 := u.isLt.trans (by decide)

/-- What RDCFG reads fits 31 bits: 24-bit registers, N_MAX, and N and PTR of a configured block (10_state.md R25, R28). -/
theorem EngineInv.configValue_lt (h : EngineInv P s) {sel : Selector}
    (hcfg : Selector.needsConfig sel = true → s.cfg = true) : configValue P sel s < 2 ^ 31 := by
  obtain ⟨-, -, hmax⟩ := h.nMax
  cases sel with
  | n =>
    have hn : s.n ≤ P.nMax := (h.configured (hcfg rfl)).legal.fits
    show s.n < 2 ^ 31
    omega
  | ptr =>
    have hn : s.n ≤ P.nMax := (h.configured (hcfg rfl)).legal.fits
    have hptr : s.ptr < s.n := (h.configured (hcfg rfl)).ptr
    show s.ptr < 2 ^ 31
    omega
  | nmax =>
    show P.nMax < 2 ^ 31
    omega
  | fc | fs | nreq | fcreq | fsreq => exact uint24Value_lt _

/-! ### One command -/

/-- The outcome of a command by its response: the error action, or a response other than ERR_RSP. -/
def RaisesOrAnswers (s t : State) : Prop :=
  (∃ e, t = s.raise e) ∨ ∃ r, t.responses = s.responses ++ [r] ∧ r ≠ errorResponse

theorem RaisesOrAnswers.raise (s : State) (e : ErrorCode) : RaisesOrAnswers s (s.raise e) := .inl ⟨e, rfl⟩

/-- `u` is the state the response is added to, after the command's other writes. -/
theorem RaisesOrAnswers.respond {u : State} {r : Word} (hu : u.responses = s.responses) (hr : r ≠ errorResponse) :
    RaisesOrAnswers s (u.respond r) := .inr ⟨r, by rw [State.respond_responses, hu], hr⟩

theorem readSlot_raisesOrAnswers (m : Memory) (i : Nat) (s : State) : RaisesOrAnswers s (readSlot m i s) := by
  unfold readSlot
  repeat' split
  · exact .raise s _
  · exact .respond rfl (sampleResponse_ne_errorResponse _)
  · exact .raise s _

theorem rdcfgEffect_raisesOrAnswers (h : EngineInv P s) (sel : Selector) :
    RaisesOrAnswers s (rdcfgEffect P sel s) := by
  unfold rdcfgEffect
  split
  · exact .raise s _
  next hneeds =>
    refine .respond rfl (unsignedResponse_ne_errorResponse (h.configValue_lt fun hsel => ?_))
    simpa [hsel] using hneeds

theorem lastEffect_raisesOrAnswers (s : State) : RaisesOrAnswers s (lastEffect s) := by
  unfold lastEffect
  repeat' split
  · exact .respond rfl (sampleResponse_ne_errorResponse _)
  · exact .raise s _
  · exact .raise s _

theorem pushEffect_raisesOrAnswers (x : SInt16) (s : State) : RaisesOrAnswers s (pushEffect x s) := by
  unfold pushEffect
  split
  · exact .respond (pushSample_responses x s) (sampleResponse_ne_errorResponse _)
  · exact .raise s _

theorem synthEffect_raisesOrAnswers (P : Params) (s : State) : RaisesOrAnswers s (synthEffect P s) := by
  cases hv : validate P.nMax (uint24Value s.nReq) (uint24Value s.fcReq) (uint24Value s.fsReq) with
  | some e => rw [synthEffect_of_invalid hv]; exact .raise s e
  | none => rw [synthEffect_of_valid hv]; exact .respond rfl zeroResponse_ne_errorResponse

theorem runCommand_raisesOrAnswers (h : EngineInv P s) (i : Instr) : RaisesOrAnswers s (runCommand P i s) := by
  cases i with
  | nop | setn u | setfc u | setfs u | clrstat => exact .respond rfl zeroResponse_ne_errorResponse
  | synth => exact synthEffect_raisesOrAnswers P s
  | push x => exact pushEffect_raisesOrAnswers x s
  | last => exact lastEffect_raisesOrAnswers s
  | rdstat => exact .respond rfl h.status_ne_errorResponse
  | rdcfg sel => exact rdcfgEffect_raisesOrAnswers h sel
  | rdcoef k => exact readSlot_raisesOrAnswers _ _ s
  | rdhist k => exact readSlot_raisesOrAnswers _ _ s

theorem acceptWord_raisesOrAnswers (h : EngineInv P s) (w : Word) : RaisesOrAnswers s (acceptWord P w s) := by
  rcases acceptWord_cases P w s with ⟨i, -, hw⟩ | ⟨-, hw⟩ | ⟨-, hw⟩ <;> rw [hw]
  · exact runCommand_raisesOrAnswers h i
  · exact .raise s _
  · exact .raise s _

/-- The response of Step(s, cmd) is the one word it appends. -/
theorem commandStep_response_eq {w r : Word} (h : (commandStep P s w).1.responses = s.responses ++ [r]) :
    (commandStep P s w).2 = r := by
  simpa [commandStep_responses] using h

end

end Sys2Proof.Machine
end

section
/-! SUPPORT. What the decoder reads from the words of an assembled line (30_encoding.md R85, R86). -/

namespace Sys2Proof.Machine

/-- A line that assembles to the words of some commands decodes to them. -/
theorem assembledCommands_of_encode {known : Option Nat} {l : Source} {is : List Instr}
    (h : assemble known l = some (is.map encode)) : assembledCommands known l = some (is.map .ok) := by
  have hdecode : decode ∘ encode = Decoded.ok := funext decode_encode
  simp [assembledCommands, h, hdecode]

theorem assembledCommands_of_encode_one {known : Option Nat} {l : Source} {i : Instr} (h : assemble known l = some [encode i]) :
    assembledCommands known l = some [.ok i] :=
  assembledCommands_of_encode (is := [i]) h

theorem assemble_of_not_wellFormed (known : Option Nat) {l : Source} (h : l.wellFormed = false) :
    assemble known l = none := by
  simp [assemble, h]

/-! ### The lines whose operands are numbers, and the ranges of those (30_encoding.md R85) -/

section
variable (known : Option Nat)

theorem u24_in_range (u : UInt24) : u.toNat ≤ 16777215 := Nat.le_of_lt_succ u.isLt

theorem u16_in_range (x : BitVec 16) : x.toNat ≤ 65535 := Nat.le_of_lt_succ x.isLt

theorem assemble_pushDec (x : SInt16) : assemble known (.pushDec x.toInt) = some [encode (.push x)] := by
  have hlow : -32768 ≤ x.toInt := BitVec.le_toInt x
  have hhigh : x.toInt ≤ 32767 := Int.le_of_lt_add_one BitVec.toInt_lt
  simp [assemble, Source.wellFormed, hlow, hhigh, wrap16]

theorem assemble_rdcfgNum (sel : Selector) :
    assemble known (.rdcfgNum sel.toBits.toNat) = some [encode (.rdcfg sel)] := by
  have hrange : sel.toBits.toNat ≤ 7 := Nat.le_of_lt_succ sel.toBits.isLt
  simp [assemble, Source.wellFormed, hrange]

theorem assemble_word (w : Word) : assemble known (.word w.toNat) = some [w] := by
  have hrange : w.toNat ≤ 0xFFFFFFFF := Nat.le_of_lt_succ w.isLt
  simp [assemble, Source.wellFormed, hrange]

theorem assemble_config (n fc fs : UInt24) :
    assemble known (.config n.toNat fc.toNat fs.toNat) = some ((configCommands n fc fs).map encode) := by
  simp [assemble, Source.wellFormed, u24_in_range]

end

end Sys2Proof.Machine
end

section
/-! PROOFS. The statements about commands as words: encoding, responses, the textual form and the port's handshake
(30_encoding.md R72 to R86). -/

namespace Sys2Proof.Machine

/-- Settles O1: the word has the instruction's opcode, no reserved bit set, and its operand. -/
theorem decodeInvertsEncode : Obligations.DecodeInvertsEncode := decode_encode

/-- Settles O2: a word is its opcode above its operand, and with the reserved bits clear the operation keeps all of it. -/
theorem encodeInvertsDecode : Obligations.EncodeInvertsDecode := fun _ _ => encode_of_decode

/-- Settles O3: both readings ask for the row's opcode and the clear reserved bits (Op.spells_iff). -/
theorem decodeMatchesOpcodeMap : Obligations.DecodeMatchesOpcodeMap := by
  refine ⟨fun w o => ⟨fun h => ?_, ?_⟩, fun w o o' h h' => ?_⟩
  · obtain ⟨hopcode, hclear⟩ := (o.spells_iff w).1 h
    exact ⟨o.build w, by rw [decode_of_opcode hopcode, if_pos hclear], o.op_build w⟩
  · rintro ⟨i, hdecode, rfl⟩
    obtain ⟨hopcode, hclear, -⟩ := decode_eq_ok_iff.1 hdecode
    exact (i.op.spells_iff w).2 ⟨hopcode, hclear⟩
  · exact Op.opcode_injective (((o.spells_iff w).1 h).1.trans ((o'.spells_iff w).1 h').1.symm)

/-- Settles O4, from what the decoder answers by the opcode and the reserved bits. -/
theorem decodeOrderOfEveryWord : Obligations.DecodeOrderOfEveryWord := by
  refine ⟨opcode_unassigned_iff, fun w s h => ?_, fun w s o hopcode hset => ?_, fun w s o hopcode hclear => ?_⟩
  · exact acceptCommand_of_decode_illegalOpcode (decode_of_unassigned h) s
  · exact acceptCommand_of_decode_reservedBits (by simp [decode_of_opcode hopcode, hset]) s
  · exact ⟨o.build w, o.op_build w,
      acceptCommand_of_decode_ok (by rw [decode_of_opcode hopcode, if_pos hclear]) s⟩

/-- Settles O5: eighteen closed instances of the decoder. -/
theorem sampleWordsDecode : Obligations.SampleWordsDecode := by
  unfold Obligations.SampleWordsDecode
  decide

/-- Settles O14: a command that does not take the error action answers another word, and the error action answers ERR_RSP. -/
theorem errorResponseMarksErrorsOnly : Obligations.ErrorResponseMarksErrorsOnly := by
  intro P w s hs
  constructor
  · intro herror
    rcases acceptWord_raisesOrAnswers hs w with hraise | ⟨r, hr, hne⟩
    · exact hraise
    · exact absurd ((commandStep_response_eq hr).symm.trans herror) hne
  · rintro ⟨e, he⟩
    exact commandStep_response_eq (by rw [he, State.raise_responses]; rfl)

/-- Settles O59: each form of a line assembles to the words of the commands it names, and those decode to the commands. -/
theorem assembledLinesDecode : Obligations.AssembledLinesDecode := by
  refine ⟨fun known l => assemble_of_not_wellFormed known, fun known => ?_, fun known u => ?_, fun known x => ?_,
    fun known sel => ?_, assemble_word, fun known n fc fs => ?_, fun n => ?_, rfl⟩
  · refine ⟨?_, ?_, ?_, ?_, ?_, fun sel => ?_⟩ <;> exact assembledCommands_of_encode_one rfl
  · refine ⟨?_, ?_, ?_⟩ <;>
      exact assembledCommands_of_encode_one (by simp [assemble, Source.wellFormed, u24_in_range])
  · refine ⟨assembledCommands_of_encode_one (assemble_pushDec known x), ?_, ?_, ?_⟩ <;>
      exact assembledCommands_of_encode_one (by simp [assemble, Source.wellFormed, u16_in_range])
  · exact assembledCommands_of_encode_one (assemble_rdcfgNum known sel)
  · exact assembledCommands_of_encode (assemble_config known n fc fs)
  · rw [← List.map_replicate]
    exact assembledCommands_of_encode (is := flushCommands n) rfl

/-- Settles O55: with the response not taken the edge changes nothing, and the phase shows the response on the pins. -/
theorem portHoldsTheResponse : Obligations.PortHoldsTheResponse := by
  intro T P p q r i hphase hrst hnotTaken hedge
  obtain ⟨-, rfl⟩ := (edge_eq_some_iff T P p q i).1 hedge
  have hclock : p.clock T P i = p := by simp [Port.clock, hrst, hphase, hnotTaken]
  rw [hclock]
  simp [Port.outputs, hphase]

/-- Settles O56, by the phase of the port. -/
theorem portReadyExactlyWhenIdle : Obligations.PortReadyExactlyWhenIdle := by
  intro p
  refine ⟨outputs_cmdReady_iff p, ?_, ?_⟩
  · rintro ⟨hready, hvalid⟩
    simp [Port.outputs, (outputs_cmdReady_iff p).1 hready] at hvalid
  · cases hphase : p.phase <;> simp [Port.outputs, hphase, State.errPin]

end Sys2Proof.Machine
end

section
/-! SUPPORT. Accepting a word by its opcode (30_encoding.md R82), what the readback commands answer by the block's
configuration (42_status_readback.md R173, R174), and the history after a PUSH (41_convolution.md R150). -/

namespace Sys2Proof.Machine

/-! ### Accepting a word by its opcode (30_encoding.md R82) -/

section
variable {w : Word} {o : Op}

theorem acceptCommand_of_opcode (h : o.opcode = opcodeField w) (s : State) :
    acceptCommand w s = if o.form.reservedClear w then exec (o.build w) s else .next (s.raise .reservedBits) := by
  have hdecode := decode_of_opcode h
  split at hdecode
  next hclear => rw [if_pos hclear, acceptCommand_of_decode_ok hdecode]
  next hclear => rw [if_neg hclear, acceptCommand_of_decode_reservedBits hdecode]

/-- With no operand every bit below the opcode is reserved, so the match column is the operation's only word
(30_encoding.md R77, R81). -/
theorem reservedClear_iff_eq_matchBits (hform : o.form = .none) (h : o.opcode = opcodeField w) :
    o.form.reservedClear w = true ↔ w = o.matchBits := by
  calc o.form.reservedClear w = true
      ↔ operandField w = 0#24 := by rw [hform, reservedClear_eq]; exact beq_iff_eq
    _ ↔ opcodeField w ++ operandField w = o.opcode ++ 0#24 := by rw [word_append_inj, h, eq_self, true_and]
    _ ↔ w = o.matchBits := by rw [word_eq_fields, o.matchBits_eq]

theorem acceptCommand_of_noOperand (hform : o.form = .none) (h : o.opcode = opcodeField w) (s : State) :
    acceptCommand w s = if w = o.matchBits then exec (o.build w) s else .next (s.raise .reservedBits) := by
  rw [acceptCommand_of_opcode h]
  exact if_congr (reservedClear_iff_eq_matchBits hform h) rfl rfl

theorem acceptWord_of_decode_reservedBits (P : Params) (h : decode w = .reservedBits) (s : State) :
    acceptWord P w s = s.raise .reservedBits := by
  simp [acceptWord, h]

end

/-! ### What a readback answers (42_status_readback.md R173, R174) -/

section
variable {s : State}

theorem rdcfgEffect_of_unconfigured (P : Params) {sel : Selector} (hsel : Selector.needsConfig sel = true) (h : s.cfg = false) :
    rdcfgEffect P sel s = s.raise .notConfigured := by
  simp [rdcfgEffect, hsel, h]

theorem rdcfgEffect_of_available (P : Params) {sel : Selector} (h : Selector.needsConfig sel = true → s.cfg = true) :
    rdcfgEffect P sel s = s.respond (unsignedResponse (configValue P sel s)) := by
  unfold rdcfgEffect
  refine if_neg fun hneeds => ?_
  obtain ⟨hsel, hcfg⟩ := (Bool.and_eq_true _ _).mp hneeds
  simp [h hsel] at hcfg

/-- A 24-bit register in the response form U (30_encoding.md R79). -/
theorem unsignedResponse_uint24Value (u : UInt24) : unsignedResponse (uint24Value u) = u.setWidth 32 :=
  BitVec.ofNat_toNat 32 u

theorem readSlot_of_unconfigured (m : Memory) (i : Nat) (h : s.cfg = false) : readSlot m i s = s.raise .notConfigured := by
  simp [readSlot, h]

theorem readSlot_of_ge (m : Memory) {i : Nat} (h : s.cfg = true) (hi : s.n ≤ i) : readSlot m i s = s.raise .indexRange := by
  simp [readSlot, h, hi]

theorem readSlot_of_lt (m : Memory) {i : Nat} (h : s.cfg = true) (hi : i < s.n) :
    readSlot m i s = s.respond (sampleResponse (m.read i)) := by
  simp [readSlot, h, hi]

end

/-! ### The history after a PUSH (41_convolution.md R142, R145, R150) -/

section
variable {s : State}

theorem pushEffect_of_configured (x : SInt16) (h : s.cfg = true) :
    pushEffect x s = (pushSample x s).respond (sampleResponse (pushSample x s).lastOut) := by
  simp [pushEffect, h]

/-- The pointer moved down one slot, so age `j` is found `j` slots above the slot the sample was written to. -/
theorem pushSample_slot_of_age (x : SInt16) (hp : s.ptr < s.n) (j : Nat) :
    ((pushSample x s).ptr + 1 + j) % s.n = (s.ptr + j) % s.n := by
  rw [pushSample_ptr_eq x hp, Nat.add_assoc, Nat.mod_add_mod, ← Nat.add_mod_right (s.ptr + j)]
  congr 1
  omega

/-- A PUSH puts its sample in front of the history: age 0 is the slot it writes, and every older sample ages by one. -/
theorem HoldsSamples.pushSample {xs : List SInt16} (h : HoldsSamples s xs) (hp : s.ptr < s.n) (hw : s.hist.wf = true)
    (x : SInt16) : HoldsSamples (pushSample x s) (x :: xs) := by
  intro j hj
  rw [pushSample_n] at hj ⊢
  rw [pushSample_slot_of_age x hp, pushSample_hist, Memory.read_write hw]
  cases j with
  | zero => rw [if_pos ((ring_index_eq_iff hp hj).2 rfl), List.getD_cons_zero]
  | succ j =>
    rw [if_neg (mt (ring_index_eq_iff hp hj).1 j.succ_ne_zero), List.getD_cons_succ, ← h j (by omega)]
    congr 2
    omega

/-- Reading the history of a configured block by age: the slot of age `j`, whose index fits the operand of RDHIST, holds the
sample (42_status_readback.md R175). -/
theorem exec_rdhist_of_age {xs : List SInt16} (h : HoldsSamples s xs) (hcfg : s.cfg = true) (hn : s.n ≤ 65536) {j : Nat}
    (hj : j < s.n) :
    exec (.rdhist (BitVec.ofNat 16 ((s.ptr + 1 + j) % s.n))) s = .next (s.respond (sampleResponse (xs.getD j 0#16))) := by
  have hslot : (s.ptr + 1 + j) % s.n < s.n := Nat.mod_lt _ (by omega)
  have hindex : indexValue (BitVec.ofNat 16 ((s.ptr + 1 + j) % s.n)) = (s.ptr + 1 + j) % s.n :=
    (BitVec.toNat_ofNat _ 16).trans (Nat.mod_eq_of_lt (by omega))
  refine congrArg Host.Outcome.next ?_
  rw [rdhistEffect, hindex, readSlot_of_lt s.hist hcfg hslot, h j hj]

end

end Sys2Proof.Machine
end

section
/-! PROOFS. The statements about status and readback (42_status_readback.md). -/

namespace Sys2Proof.Machine

/-- Settles O44: the PUSH puts its sample in front of the history (HoldsSamples.pushSample), and RDHIST reads the history
after it by age (exec_rdhist_of_age). -/
theorem readbackIndexIsPhysical : Obligations.ReadbackIndexIsPhysical := by
  intro P x xs s j hs hcfg hxs hj
  obtain ⟨hlegal, hptr, -⟩ := hs.configured hcfg
  obtain ⟨-, -, hmax⟩ := hs.nMax
  have hn : s.n ≤ 65536 := hlegal.fits.trans (Nat.le_succ_of_le hmax)
  have hhist : HoldsSamples ((pushSample x s).respond (sampleResponse (pushSample x s).lastOut)) (x :: xs) :=
    hxs.pushSample hptr hs.histWf x
  have hread := exec_rdhist_of_age hhist ((pushSample_cfg x s).trans hcfg) (j := j)
    (by rwa [State.respond_n, pushSample_n]) (by rwa [State.respond_n, pushSample_n])
  exact ⟨_, _, congrArg Host.Outcome.next (pushEffect_of_configured x hcfg), hread, rfl⟩

/-- Settles O40: NOP has no operand, so the match column is its only word. -/
theorem nopDoesNothing : Obligations.NopDoesNothing :=
  ⟨fun _ => rfl, fun _ s hopcode => acceptCommand_of_noOperand (o := .nop) rfl hopcode.symm s⟩

/-- Settles O41: RDSTAT has no operand, so the match column is its only word. -/
theorem rdstatReturnsStatus : Obligations.RdstatReturnsStatus :=
  ⟨fun _ => rfl, fun _ s hopcode => acceptCommand_of_noOperand (o := .rdstat) rfl hopcode.symm s⟩

/-- Settles O42, from what RDCFG answers by its selector and the configuration, and from the decoder's sel3 form. -/
theorem rdcfgReturnsTheSelectedValue : Obligations.RdcfgReturnsTheSelectedValue := by
  refine ⟨fun P s => ⟨fun hcfg => ?_, fun hcfg => ?_, ?_, ?_, ?_, ?_⟩, fun sel s => exec_eq_runCommand _ s, by decide,
    fun P w s hopcode hset => ?_⟩
  · have read (sel : Selector) := rdcfgEffect_of_available P (sel := sel) (fun _ => hcfg)
    refine ⟨read .n, ?_, ?_, read .ptr⟩
    · rw [← unsignedResponse_uint24Value]; exact read .fc
    · rw [← unsignedResponse_uint24Value]; exact read .fs
  · refine ⟨?_, ?_, ?_, ?_⟩ <;> exact rdcfgEffect_of_unconfigured P rfl hcfg
  · rw [← unsignedResponse_uint24Value]; exact rdcfgEffect_of_available P (sel := .nreq) nofun
  · rw [← unsignedResponse_uint24Value]; exact rdcfgEffect_of_available P (sel := .fcreq) nofun
  · rw [← unsignedResponse_uint24Value]; exact rdcfgEffect_of_available P (sel := .fsreq) nofun
  · exact rdcfgEffect_of_available P (sel := .nmax) nofun
  · have hdecode : decode w = .reservedBits := (decode_of_opcode (o := .rdcfg) hopcode.symm).trans (if_neg (mt eq_of_beq hset))
    exact acceptWord_of_decode_reservedBits P hdecode s

/-- Settles O43: both commands are readSlot of their storage space, and the reserved bits of their form are bits 23:16. -/
theorem readbackReturnsTheSlot : Obligations.ReadbackReturnsTheSlot := by
  refine ⟨fun i s => ⟨fun hcfg hi => ⟨?_, ?_⟩, fun hcfg hi => ⟨?_, ?_⟩, fun hcfg => ⟨?_, ?_⟩⟩, fun w s hopcode => ?_,
    fun w s hopcode => ?_⟩
  · exact congrArg Host.Outcome.next (readSlot_of_lt s.coef hcfg hi)
  · exact congrArg Host.Outcome.next (readSlot_of_lt s.hist hcfg hi)
  · exact congrArg Host.Outcome.next (readSlot_of_ge s.coef hcfg hi)
  · exact congrArg Host.Outcome.next (readSlot_of_ge s.hist hcfg hi)
  · exact congrArg Host.Outcome.next (readSlot_of_unconfigured s.coef i.toNat hcfg)
  · exact congrArg Host.Outcome.next (readSlot_of_unconfigured s.hist i.toNat hcfg)
  · exact (acceptCommand_of_opcode (o := .rdcoef) hopcode.symm s).trans (if_congr beq_iff_eq rfl rfl)
  · exact (acceptCommand_of_opcode (o := .rdhist) hopcode.symm s).trans (if_congr beq_iff_eq rfl rfl)

/-- Settles O45, from what clearing the record does to each field of STATUS. -/
theorem clrstatClearsTheRecord : Obligations.ClrstatClearsTheRecord :=
  ⟨fun s => ⟨s.clearErrors.respond zeroResponse, rfl, s.clearErrors_err, s.clearErrors_errCode, s.clearErrors_ovf,
      s.clearErrors_err, s.clearErrors_cfg, s.clearErrors_outv, s.clearErrors_reservedStatus, rfl⟩,
    fun _ s hopcode => acceptCommand_of_noOperand (o := .clrstat) rfl hopcode.symm s⟩

end Sys2Proof.Machine
end

section
/-! SUPPORT. PUSH and the staging registers (70_reset_and_hazards.md R237), what an unconfigured block answers (R233), and a
reset at the port (R230, R233). -/

namespace Sys2Proof.Machine

/-! ### PUSH neither reads nor writes the staging registers (70_reset_and_hazards.md R237) -/

section
variable (x : SInt16) (s : State) (a b c : UInt24)

theorem pushSample_stage :
    pushSample x { s with nReq := a, fcReq := b, fsReq := c } =
      { pushSample x s with nReq := a, fcReq := b, fsReq := c } := by
  simp only [pushSample]
  split <;> rfl

theorem pushEffect_stage :
    pushEffect x { s with nReq := a, fcReq := b, fsReq := c } =
      { pushEffect x s with nReq := a, fcReq := b, fsReq := c } := by
  have hcfg : State.cfg { s with nReq := a, fcReq := b, fsReq := c } = s.cfg := rfl
  simp only [pushEffect, hcfg, pushSample_stage]
  split <;> rfl

end

/-! ### An unconfigured block (70_reset_and_hazards.md R233) -/

section
variable {s : State}

theorem pushEffect_of_unconfigured (x : SInt16) (h : s.cfg = false) : pushEffect x s = s.raise .notConfigured := by
  simp [pushEffect, h]

theorem lastEffect_of_unconfigured (h : s.cfg = false) : lastEffect s = s.raise .notConfigured := by
  simp [lastEffect, h]

end

/-- The selectors that need a configured block are those numbered 0 to 3 (42_status_readback.md R173). -/
theorem needsConfig_iff_toBits_le (sel : Selector) : Selector.needsConfig sel = true ↔ sel.toBits ≤ 3#3 := by
  cases sel <;> decide

/-- NOT_CONFIGURED is none of the checks of 40_synthesis.md R111. -/
theorem validate_ne_notConfigured (nMax nreq fc fs : Nat) : validate nMax nreq fc fs ≠ some .notConfigured := by
  unfold validate
  repeat' split
  all_goals nofun

theorem ErrorCode.eq_notConfigured_of_bits {e : ErrorCode} (h : e.bits = ErrorCode.notConfigured.bits) :
    e = .notConfigured := by
  cases e with
  | notConfigured => rfl
  | _ => exact absurd h (by decide)

/-- ERRCODE tells NOT_CONFIGURED from every other error. -/
theorem State.eq_notConfigured_of_raise {s : State} {e : ErrorCode} (h : s.raise e = s.raise .notConfigured) :
    e = .notConfigured :=
  ErrorCode.eq_notConfigured_of_bits (by simpa using congrArg State.errCode h)

theorem synthEffect_ne_notConfigured (P : Params) (s : State) : synthEffect P s ≠ s.raise .notConfigured := by
  intro h
  cases hv : validate P.nMax (uint24Value s.nReq) (uint24Value s.fcReq) (uint24Value s.fsReq) with
  | some e =>
    obtain rfl : e = .notConfigured := State.eq_notConfigured_of_raise ((synthEffect_of_invalid hv).symm.trans h)
    exact validate_ne_notConfigured _ _ _ _ hv
  | none =>
    have hzero : (s.raise .notConfigured).responses = s.responses ++ [zeroResponse] :=
      h ▸ (synthEffect_responds_zero_iff P s).2 hv
    exact zeroResponse_ne_errorResponse (by simpa using hzero.symm)

/-! ### A reset at the port (70_reset_and_hazards.md R230, R233) -/

section
variable {T : Timing} {P : Params} {p q : Port} {i : PinsIn}

theorem edge_in_reset (hr : i.rstN = false) (he : p.edge T P i = some q) :
    q.engine = p.engine.applyReset ∧ q.phase = .inReset := by
  obtain ⟨-, rfl⟩ := (edge_eq_some_iff T P p q i).1 he
  simp [Port.clock, hr]

/-- The first edge out of reset, whatever the host offers at it: cmd_ready was 0 before it. -/
theorem edge_out_of_reset (hp : p.phase = .inReset) (hr : i.rstN = true) (he : p.edge T P i = some q) :
    q.engine = p.engine ∧ q.phase = .idle := by
  obtain ⟨-, rfl⟩ := (edge_eq_some_iff T P p q i).1 he
  simp [Port.clock, hr, hp]

theorem outputs_of_idle (hp : p.phase = .idle) :
    p.outputs true = { cmdReady := true, rspValid := false, rspData := none, err := p.engine.err } := by
  simp [Port.outputs, hp, State.errPin]

end

end Sys2Proof.Machine
end

section
/-! PROOFS. The statements about reset and about hazards between commands (70_reset_and_hazards.md). -/

namespace Sys2Proof.Machine

/-- Settles O49: the commands that read the filter check CFG first, the others answer zero, STATUS or a bounded value, and
the errors of SYNTH are those of its validation. -/
theorem commandsLegalWhileUnconfigured : Obligations.CommandsLegalWhileUnconfigured := by
  intro P s hs hcfg
  refine ⟨?_, ?_, synthEffect_ne_notConfigured P s⟩
  · rintro i (⟨x, rfl⟩ | rfl | ⟨k, rfl⟩ | ⟨k, rfl⟩ | ⟨sel, rfl, hsel⟩)
    · exact pushEffect_of_unconfigured x hcfg
    · exact lastEffect_of_unconfigured hcfg
    · exact readSlot_of_unconfigured s.coef _ hcfg
    · exact readSlot_of_unconfigured s.hist _ hcfg
    · exact rdcfgEffect_of_unconfigured P ((needsConfig_iff_toBits_le sel).2 hsel) hcfg
  · rintro i (rfl | ⟨u, rfl⟩ | ⟨u, rfl⟩ | ⟨u, rfl⟩ | rfl | rfl | ⟨sel, rfl, hsel⟩)
    · exact ⟨_, rfl, zeroResponse_ne_errorResponse⟩
    · exact ⟨_, rfl, zeroResponse_ne_errorResponse⟩
    · exact ⟨_, rfl, zeroResponse_ne_errorResponse⟩
    · exact ⟨_, rfl, zeroResponse_ne_errorResponse⟩
    · exact ⟨_, rfl, hs.status_ne_errorResponse⟩
    · exact ⟨_, rfl, zeroResponse_ne_errorResponse⟩
    · have habove : ¬ sel.toBits ≤ 3#3 := by bv_omega
      have havailable : Selector.needsConfig sel = true → s.cfg = true := fun hneeds =>
        absurd ((needsConfig_iff_toBits_le sel).1 hneeds) habove
      exact ⟨_, congrArg State.responses (rdcfgEffect_of_available P havailable),
        unsignedResponse_ne_errorResponse (hs.configValue_lt havailable)⟩

/-- Settles O39: PUSH commutes with any change of the staging registers (pushEffect_stage). -/
theorem stagingDoesNotDisturbFiltering : Obligations.StagingDoesNotDisturbFiltering :=
  fun x s a b c => ⟨pushEffect x s, rfl, congrArg Host.Outcome.next (pushEffect_stage x s a b c)⟩

/-- Settles O48: both moves take the reset, which keeps the host's inbox and responses. -/
theorem resetAbandonsTheCommand : Obligations.ResetAbandonsTheCommand := by
  intro s m rest hbox hm
  have hstep := (step_eq_engineStep s).trans (congrArg Host.Outcome.next (engineStep_move referenceParams hbox))
  rcases hm with rfl | ⟨w, rfl⟩ <;> exact ⟨_, hstep, rfl, rfl, rfl, rfl, rfl, rfl⟩

/-- Settles O57: the reset edge leaves the reset engine in the phase inReset, and the next edge makes it idle. -/
theorem portResetGatesTheOutputs : Obligations.PortResetGatesTheOutputs := by
  intro T P p q r i j hi hj hedge hnext
  obtain ⟨hengine, hphase⟩ := edge_in_reset hi hedge
  obtain ⟨hengine', hidle⟩ := edge_out_of_reset hphase hj hnext
  refine ⟨rfl, hengine, hphase, ?_⟩
  rw [outputs_of_idle hidle, hengine', hengine, State.applyReset_err]

end Sys2Proof.Machine
end

section
/-! SUPPORT. States that differ in STATUS alone, CFG, OUTV and OVF kept: no command but RDSTAT tells them apart
(60_exceptions.md R209). -/

namespace Sys2Proof.Machine

/-- `t` is `s` but for the error record: CFG, OUTV, OVF and everything outside STATUS agree (60_exceptions.md R202, R209). -/
structure State.SameButRecord (s t : State) : Prop where
  frame : t = { s with status := t.status }
  cfg   : t.cfg = s.cfg
  outv  : t.outv = s.outv
  ovf   : t.ovf = s.ovf

/-- PUSH writes its flags into STATUS and takes nothing from it. -/
theorem pushSample_status (x : SInt16) (s : State) (w : Word) :
    pushSample x { s with status := w } =
      { pushSample x s with status := (pushSample x { s with status := w }).status } := by
  simp only [pushSample]
  split <;> rfl

theorem State.sameButRecord_setError (s : State) (e : ErrorCode) :
    s.SameButRecord ((s.setErr true).setErrCode e.bits) :=
  ⟨rfl, by simp, by simp, by simp⟩

section
variable {s t : State} (h : s.SameButRecord t)
include h

theorem State.SameButRecord.eq_status : ∃ w, t = { s with status := w } := ⟨_, h.frame⟩

/-! ### Each operation -/

theorem State.SameButRecord.respond (r : Word) : (s.respond r).SameButRecord (t.respond r) :=
  ⟨by rw [h.frame]; rfl, h.cfg, h.outv, h.ovf⟩

theorem State.SameButRecord.raise (e : ErrorCode) : (s.raise e).SameButRecord (t.raise e) :=
  ⟨by rw [h.frame]; rfl, by simp [h.cfg], by simp [h.outv], by simp [h.ovf]⟩

theorem State.SameButRecord.stage (n fc fs : UInt24) :
    State.SameButRecord { s with nReq := n, fcReq := fc, fsReq := fs } { t with nReq := n, fcReq := fc, fsReq := fs } :=
  ⟨by rw [h.frame], h.cfg, h.outv, h.ovf⟩

theorem State.SameButRecord.clearErrors : s.clearErrors.SameButRecord t.clearErrors :=
  ⟨by rw [h.frame]; rfl, by simp [h.cfg], by simp [h.outv], by simp⟩

theorem State.SameButRecord.construct (P : Params) (n fce fs : Nat) :
    (construct P n fce fs s).SameButRecord (construct P n fce fs t) :=
  ⟨by rw [h.frame]; rfl, by simp, by simp, by simp⟩

theorem State.SameButRecord.pushSample (x : SInt16) : (pushSample x s).SameButRecord (pushSample x t) where
  frame := by rw [h.frame]; exact pushSample_status x s t.status
  cfg   := by simp [h.cfg]
  outv  := by simp
  ovf   := by rw [pushSample_ovf, pushSample_ovf, h.ovf, h.frame]

/-! ### Each command -/

theorem State.SameButRecord.readSlot (m : Memory) (i : Nat) : (readSlot m i s).SameButRecord (readSlot m i t) := by
  have hn : t.n = s.n := by rw [h.frame]
  simp only [Machine.readSlot, h.cfg, hn]
  repeat' split
  · exact h.raise _
  · exact h.respond _
  · exact h.raise _

theorem State.SameButRecord.rdcfgEffect (P : Params) (sel : Selector) :
    (rdcfgEffect P sel s).SameButRecord (rdcfgEffect P sel t) := by
  have hvalue : configValue P sel t = configValue P sel s := by rw [h.frame]; rfl
  simp only [Machine.rdcfgEffect, h.cfg, hvalue]
  split
  · exact h.raise _
  · exact h.respond _

theorem State.SameButRecord.lastEffect : (lastEffect s).SameButRecord (lastEffect t) := by
  have hlast : t.lastOut = s.lastOut := by rw [h.frame]
  simp only [Machine.lastEffect, h.cfg, h.outv, hlast]
  repeat' split
  · exact h.respond _
  · exact h.raise _
  · exact h.raise _

theorem State.SameButRecord.pushEffect (x : SInt16) : (pushEffect x s).SameButRecord (pushEffect x t) := by
  have hlast : (Machine.pushSample x t).lastOut = (Machine.pushSample x s).lastOut := by rw [(h.pushSample x).frame]
  simp only [Machine.pushEffect, h.cfg, hlast]
  split
  · exact (h.pushSample x).respond _
  · exact h.raise _

theorem State.SameButRecord.synthEffect (P : Params) : (synthEffect P s).SameButRecord (synthEffect P t) := by
  obtain ⟨w, rfl⟩ := h.eq_status
  simp only [Machine.synthEffect]
  split
  · exact h.raise _
  · exact (h.construct P _ _ _).respond _

/-- No command but RDSTAT reads the error record (60_exceptions.md R209). -/
theorem State.SameButRecord.runCommand (P : Params) {i : Instr} (hi : i ≠ .rdstat) :
    (runCommand P i s).SameButRecord (runCommand P i t) := by
  obtain ⟨w, rfl⟩ := h.eq_status
  cases i with
  | nop => exact h.respond _
  | setn u => exact (h.stage u s.fcReq s.fsReq).respond _
  | setfc u => exact (h.stage s.nReq u s.fsReq).respond _
  | setfs u => exact (h.stage s.nReq s.fcReq u).respond _
  | synth => exact h.synthEffect P
  | push x => exact h.pushEffect x
  | last => exact h.lastEffect
  | rdstat => exact absurd rfl hi
  | rdcfg sel => exact h.rdcfgEffect P sel
  | rdcoef k => exact h.readSlot s.coef _
  | rdhist k => exact h.readSlot s.hist _
  | clrstat => exact h.clearErrors.respond _

end

end Sys2Proof.Machine
end

section
/-! PROOFS. The statements about errors (60_exceptions.md R202, R209, R219). -/

namespace Sys2Proof.Machine

/-- Settles O8: the step is the engine's, which holds its state when nothing is offered. -/
theorem idleStepHoldsState : Obligations.IdleStepHoldsState :=
  fun s hbox => (step_eq_engineStep s).trans (congrArg Host.Outcome.next (engineStep_idle referenceParams hbox))

/-- Settles O13: a word answered with ERR_RSP took the error action (errorResponseMarksErrorsOnly), whose frame is
State.raise_frame. -/
theorem errorActionWritesOnlyTheRecord : Obligations.ErrorActionWritesOnlyTheRecord := by
  refine ⟨fun s e => ⟨s.raise_err e, s.raise_errCode e, s.raise_cfg e, s.raise_outv e, s.raise_ovf e,
      s.raise_reservedStatus e, s.raise_frame e⟩,
    fun P w s t hs hstep => ?_, rfl, rfl, rfl, rfl, rfl, rfl, rfl, rfl, rfl, rfl, rfl⟩
  obtain ⟨e, he⟩ := (errorResponseMarksErrorsOnly P w s hs).1 (congrArg Prod.snd hstep)
  obtain rfl : s.raise e = t := he.symm.trans (congrArg Prod.fst hstep)
  exact ⟨s.raise_err e, ⟨e, s.raise_errCode e⟩, s.raise_cfg e, s.raise_outv e, s.raise_ovf e,
    s.raise_reservedStatus e, s.raise_frame e⟩

/-- Settles O15: a recorded error changes STATUS outside CFG, OUTV and OVF alone, and no command but RDSTAT reads that. -/
theorem recordedErrorBlocksNothing : Obligations.RecordedErrorBlocksNothing := by
  rintro P i s t u e hi rfl rfl
  obtain ⟨hframe, hcfg, houtv, hovf⟩ := (s.sameButRecord_setError e).runCommand P hi
  exact ⟨by rw [hframe], hcfg, houtv, hovf, hframe⟩

end Sys2Proof.Machine
end

section
/-! SUPPORT. LAST by CFG and OUTV (41_convolution.md R151), the words of opcode 0x10, and the commands that keep the filter
and its output (40_synthesis.md R115; 41_convolution.md R152). -/

namespace Sys2Proof.Machine

theorem lastEffect_of_noOutput {s : State} (hcfg : s.cfg = true) (houtv : s.outv = false) :
    lastEffect s = s.raise .noOutput := by
  simp [lastEffect, hcfg, houtv]

theorem lastEffect_of_output {s : State} (hcfg : s.cfg = true) (houtv : s.outv = true) :
    lastEffect s = s.respond (sampleResponse s.lastOut) := by
  simp [lastEffect, hcfg, houtv]

/-- A word of opcode 0x10 takes the error action or runs PUSH (30_encoding.md R82), so it answers ERR_RSP only with the
former. -/
theorem acceptWord_push_raisesOrAnswers (P : Params) {w : Word} (h : Op.push.opcode = opcodeField w) (s : State) :
    RaisesOrAnswers s (acceptWord P w s) := by
  have hdecode := decode_of_opcode h
  split at hdecode
  · have hpush : acceptWord P w s = pushEffect (low16Operand w) s := by rw [acceptWord, hdecode]; rfl
    rw [hpush]
    exact pushEffect_raisesOrAnswers _ s
  · rw [acceptWord_of_decode_reservedBits P hdecode]
    exact .raise s _

theorem State.sameFilter_raise (s : State) (e : ErrorCode) : s.SameFilter (s.raise e) :=
  ⟨s.raise_n e, s.raise_fc e, s.raise_fs e, s.raise_coef e, s.raise_hist e, s.raise_ptr e⟩

theorem State.sameFilter_clearErrors (s : State) : s.SameFilter s.clearErrors :=
  ⟨s.clearErrors_n, s.clearErrors_fc, s.clearErrors_fs, s.clearErrors_coef, s.clearErrors_hist, s.clearErrors_ptr⟩

theorem State.SameFilter.respond {s t : State} (h : s.SameFilter t) (r : Word) : s.SameFilter (t.respond r) :=
  ⟨h.n, h.fc, h.fs, h.coef, h.hist, h.ptr⟩

/-- The commands other than SYNTH and PUSH keep the filter and its output (40_synthesis.md R115; 41_convolution.md R152). -/
theorem runCommand_keepsFilter (P : Params) {i : Instr} (hsynth : i ≠ .synth) (hpush : ∀ x, i ≠ .push x) (s : State) :
    s.SameFilter (runCommand P i s) ∧ (runCommand P i s).lastOut = s.lastOut ∧ (runCommand P i s).outv = s.outv := by
  rcases runCommand_cases P i s with ⟨e, h⟩ | ⟨r, h, -⟩ | ⟨u, -, h⟩ | ⟨u, -, h⟩ | ⟨u, -, h⟩ | ⟨-, h⟩ | ⟨hi, -⟩ |
    ⟨x, hi, -⟩
  · rw [h]; exact ⟨s.sameFilter_raise e, s.raise_lastOut e, s.raise_outv e⟩
  · rw [h]; exact ⟨⟨rfl, rfl, rfl, rfl, rfl, rfl⟩, rfl, rfl⟩
  · rw [h]; exact ⟨⟨rfl, rfl, rfl, rfl, rfl, rfl⟩, rfl, rfl⟩
  · rw [h]; exact ⟨⟨rfl, rfl, rfl, rfl, rfl, rfl⟩, rfl, rfl⟩
  · rw [h]; exact ⟨⟨rfl, rfl, rfl, rfl, rfl, rfl⟩, rfl, rfl⟩
  · rw [h]; exact ⟨s.sameFilter_clearErrors.respond _, s.clearErrors_lastOut, s.clearErrors_outv⟩
  · exact absurd hi hsynth
  · exact absurd hi (hpush x)

end Sys2Proof.Machine
end

section
/-! PROOFS. The statements about who writes what: staging, LAST, and PUSH without a configuration (40_synthesis.md R101 to
R103, R115; 41_convolution.md R141, R151, R152). -/

namespace Sys2Proof.Machine

/-- Settles O18: the words are those the encoder writes (decode_encode), and the effects are the definitions. -/
theorem stagingWritesOneRegister : Obligations.StagingWritesOneRegister :=
  fun u _ => ⟨decode_encode (.setn u), decode_encode (.setfc u), decode_encode (.setfs u), rfl, rfl, rfl⟩

/-- Settles O28: PUSH checks CFG first, and the reserved bits of its form are bits 23:16. -/
theorem pushNeedsConfiguration : Obligations.PushNeedsConfiguration :=
  ⟨fun x _ hcfg => congrArg Host.Outcome.next (pushEffect_of_unconfigured x hcfg),
    fun _ s hopcode => (acceptCommand_of_opcode (o := .push) hopcode.symm s).trans (if_congr beq_iff_eq rfl rfl)⟩

/-- Settles O36: LAST by CFG and OUTV; a PUSH answered with ERR_RSP took the error action, which keeps LAST_OUT. -/
theorem lastReturnsTheLastOutput : Obligations.LastReturnsTheLastOutput := by
  refine ⟨fun s => ⟨fun hcfg houtv => ?_, fun hcfg houtv => ?_, fun hcfg => ?_⟩,
    fun w s hopcode => acceptCommand_of_noOperand (o := .last) rfl hopcode.symm s, fun P w s t hopcode hstep => ?_⟩
  · exact congrArg Host.Outcome.next (lastEffect_of_output hcfg houtv)
  · exact congrArg Host.Outcome.next (lastEffect_of_noOutput hcfg houtv)
  · exact congrArg Host.Outcome.next (lastEffect_of_unconfigured hcfg)
  · obtain rfl : acceptWord P w s = t := congrArg Prod.fst hstep
    rcases acceptWord_push_raisesOrAnswers P hopcode.symm s with ⟨e, he⟩ | ⟨r, hr, hne⟩
    · rw [he, State.raise_lastOut]
    · have hresponse : (commandStep P s w).2 = r := commandStep_response_eq hr
      rw [hstep] at hresponse
      exact absurd hresponse.symm hne

/-- Settles O37, from the commands that keep the filter. -/
theorem onlyPushAndSynthWriteTheOutput : Obligations.OnlyPushAndSynthWriteTheOutput := by
  rintro P i s t rfl hpush hsynth
  obtain ⟨hfilter, hlast, houtv⟩ := runCommand_keepsFilter P hsynth hpush s
  exact ⟨hlast, houtv, hfilter.hist, hfilter.ptr⟩

/-- Settles O38: PUSH writes neither the configuration nor COEF, and the other commands keep the whole filter. -/
theorem onlySynthChangesTheConfiguration : Obligations.OnlySynthChangesTheConfiguration := by
  rintro P i s t rfl hsynth
  by_cases hpush : ∃ x, i = .push x
  · obtain ⟨x, rfl⟩ := hpush
    show (pushEffect x s).n = s.n ∧ (pushEffect x s).fc = s.fc ∧ (pushEffect x s).fs = s.fs ∧ (pushEffect x s).coef = s.coef
    cases hcfg : s.cfg with
    | true =>
      rw [pushEffect_of_configured x hcfg]
      exact ⟨pushSample_n x s, pushSample_fc x s, pushSample_fs x s, pushSample_coef x s⟩
    | false =>
      rw [pushEffect_of_unconfigured x hcfg]
      exact ⟨State.raise_n s _, State.raise_fc s _, State.raise_fs s _, State.raise_coef s _⟩
  · obtain ⟨hfilter, -, -⟩ := runCommand_keepsFilter P hsynth (not_exists.1 hpush) s
    exact ⟨hfilter.n, hfilter.fc, hfilter.fs, hfilter.coef⟩

end Sys2Proof.Machine
end

section
/-! SUPPORT. The validation of SYNTH, check by check (40_synthesis.md R111), the effective values of a legal request (R104,
R105), and what SYNTH takes from the staging registers (R117). -/

namespace Sys2Proof.Machine

/-! ### The validation (40_synthesis.md R111) -/

section
variable {nMax nreq fc fs : Nat}

theorem validate_of_n_zero (h : nreq = 0) : validate nMax nreq fc fs = some .cfgNZero := if_pos h

theorem validate_of_fs_zero (hn : nreq ≠ 0) (h : fs = 0) : validate nMax nreq fc fs = some .cfgFsZero := by
  simp [validate, hn, h]

theorem validate_of_fc_zero (hn : nreq ≠ 0) (hfs : fs ≠ 0) (h : fc = 0) :
    validate nMax nreq fc fs = some .cfgFcZero := by
  simp [validate, hn, hfs, h]

theorem validate_of_n_one (hn : nreq ≠ 0) (hfs : fs ≠ 0) (hfc : fc ≠ 0) (h : normalizeWindow nreq = 1) :
    validate nMax nreq fc fs = some .cfgNOne := by
  simp [validate, hn, hfs, hfc, h]

theorem validate_of_n_large (hn : nreq ≠ 0) (hfs : fs ≠ 0) (hfc : fc ≠ 0) (hone : normalizeWindow nreq ≠ 1)
    (h : nMax < normalizeWindow nreq) : validate nMax nreq fc fs = some .cfgNMax := by
  simp [validate, hn, hfs, hfc, hone, h]

/-- The last check fails exactly for a sample frequency below 4 (clampCutoff_pos_iff). -/
theorem validate_of_fs_low (hn : nreq ≠ 0) (hfs : fs ≠ 0) (hfc : fc ≠ 0) (hone : normalizeWindow nreq ≠ 1)
    (hmax : normalizeWindow nreq ≤ nMax) (h : fs ≤ 3) : validate nMax nreq fc fs = some .cfgFsLow := by
  have hclamp : clampCutoff fc fs ≤ 0 := not_lt.1 fun hpos => by
    have := ((clampCutoff_pos_iff fc fs).1 hpos).1
    omega
  simp [validate, hn, hfs, hfc, hone, hmax, hclamp]

theorem validate_of_legal (hn : 2 ≤ nreq) (hmax : normalizeWindow nreq ≤ nMax) (hfs : 4 ≤ fs) (hfc : 1 ≤ fc) :
    validate nMax nreq fc fs = none := by
  have hone : normalizeWindow nreq ≠ 1 := by unfold normalizeWindow; split <;> omega
  exact (validate_eq_none_iff _ _ _ _).2
    ⟨by omega, by omega, by omega, hone, hmax, (clampCutoff_pos_iff fc fs).2 ⟨hfs, by omega⟩⟩

end

/-! ### A legal request (40_synthesis.md R104, R105) -/

/-- A legal SYNTH in natural numbers: the odd-forced window size and the clamped cutoff. -/
theorem synthEffect_of_legal {P : Params} {s : State} (hn : 2 ≤ s.nReq.toNat)
    (hmax : normalizeWindow s.nReq.toNat ≤ P.nMax) (hfs : 4 ≤ s.fsReq.toNat) (hfc : 1 ≤ s.fcReq.toNat) :
    synthEffect P s =
      (construct P (normalizeWindow s.nReq.toNat)
        (if s.fsReq.toNat / 2 - 1 < s.fcReq.toNat then s.fsReq.toNat / 2 - 1 else s.fcReq.toNat) s.fsReq.toNat s).respond
        zeroResponse := by
  rw [← clampCutoff_toNat s.fcReq.toNat s.fsReq.toNat hfs]
  exact synthEffect_of_valid (validate_of_legal hn hmax hfs hfc)

/-- A successful SYNTH constructs a legal configuration whose cutoff and sample frequency fit their registers. -/
theorem synthEffect_success {P : Params} {s : State} (h : (synthEffect P s).responses = s.responses ++ [zeroResponse]) :
    ∃ n fce fs, LegalConfig P.nMax n fce fs ∧ fs < 2 ^ 24 ∧ synthEffect P s = (construct P n fce fs s).respond zeroResponse := by
  have hvalid := (synthEffect_responds_zero_iff P s).1 h
  exact ⟨_, _, _, legal_of_validate hvalid, s.fsReq.isLt, synthEffect_of_valid hvalid⟩

/-- PUSH reads nothing that an error action writes: it answers the same, and leaves the same history and output. -/
theorem pushEffect_after_raise (x : SInt16) (s : State) (e : ErrorCode) :
    ∃ r, (pushEffect x s).responses = s.responses ++ [r] ∧
      (pushEffect x (s.raise e)).responses = (s.raise e).responses ++ [r] ∧
      (pushEffect x (s.raise e)).hist = (pushEffect x s).hist ∧
      (pushEffect x (s.raise e)).ptr = (pushEffect x s).ptr ∧
      (pushEffect x (s.raise e)).lastOut = (pushEffect x s).lastOut := by
  cases hcfg : s.cfg with
  | true =>
    refine ⟨sampleResponse (pushSample x s).lastOut, ?_⟩
    rw [pushEffect_of_configured x hcfg, pushEffect_of_configured x ((s.raise_cfg e).trans hcfg)]
    simp [pushSample_ptr, pushSample_lastOut]
  | false =>
    refine ⟨errorResponse, ?_⟩
    rw [pushEffect_of_unconfigured x hcfg, pushEffect_of_unconfigured x ((s.raise_cfg e).trans hcfg)]
    simp

/-! ### What SYNTH takes from the staging registers (40_synthesis.md R117) -/

section
variable {nMax n n' fc fc' fs : Nat}

theorem validate_congr_window (hn : n ≠ 0) (hn' : n' ≠ 0) (h : normalizeWindow n' = normalizeWindow n) :
    validate nMax n' fc fs = validate nMax n fc fs := by
  simp only [validate, hn, hn', h]

theorem validate_congr_cutoff (hfc : fc ≠ 0) (hfc' : fc' ≠ 0) (h : clampCutoff fc' fs = clampCutoff fc fs) :
    validate nMax n fc' fs = validate nMax n fc fs := by
  simp only [validate, hfc, hfc', h]

end

/-- Of a request other than 0, SYNTH sees the odd-forced window size alone. -/
theorem synthEffect_restage_window (P : Params) (s : State) {a b : UInt24} (ha : uint24Value a ≠ 0) (hb : uint24Value b ≠ 0)
    (hwindow : normalizeWindow (uint24Value b) = normalizeWindow (uint24Value a)) :
    synthEffect P { s with nReq := b } = { synthEffect P { s with nReq := a } with nReq := b } := by
  simp only [synthEffect, validate_congr_window ha hb hwindow, hwindow]
  split <;> rfl

/-- Of a cutoff other than 0, SYNTH sees the clamped cutoff alone. -/
theorem synthEffect_restage_cutoff (P : Params) (s : State) {a b : UInt24} (ha : uint24Value a ≠ 0) (hb : uint24Value b ≠ 0)
    (hcutoff : clampCutoff (uint24Value b) (uint24Value s.fsReq) = clampCutoff (uint24Value a) (uint24Value s.fsReq)) :
    synthEffect P { s with fcReq := b } = { synthEffect P { s with fcReq := a } with fcReq := b } := by
  simp only [synthEffect, validate_congr_cutoff ha hb hcutoff, hcutoff]
  split <;> rfl

theorem normalizeWindow_succ_of_even {m : Nat} (hm : m % 2 = 0) : normalizeWindow (m + 1) = normalizeWindow m := by
  unfold normalizeWindow
  rw [if_neg (by omega), if_pos hm]

/-- The sample frequency itself is above the clamp limit. -/
theorem clampCutoff_self {fs : Nat} (hfs : 4 ≤ fs) : clampCutoff fs fs = clampCutoff (fs / 2 - 1) fs := by
  unfold clampCutoff clampLimit
  rw [if_pos (by omega), if_neg (by omega)]
  omega

end Sys2Proof.Machine
end

section
/-! PROOFS. The statements about SYNTH as a command (40_synthesis.md R104, R105, R111 to R113, R117). -/

namespace Sys2Proof.Machine

/-- Settles O19, one failing check after another. -/
theorem synthValidatesInOrder : Obligations.SynthValidatesInOrder := by
  intro P s
  refine ⟨fun h => ?_, fun hn h => ?_, fun hn hfs h => ?_, fun hn hfs hfc h => ?_, fun hn hfs hfc hone h => ?_,
    fun hn hfs hfc hone hmax h => ?_⟩
  · exact synthEffect_of_invalid (validate_of_n_zero h)
  · exact synthEffect_of_invalid (validate_of_fs_zero hn h)
  · exact synthEffect_of_invalid (validate_of_fc_zero hn hfs h)
  · exact synthEffect_of_invalid (validate_of_n_one hn hfs hfc h)
  · exact synthEffect_of_invalid (validate_of_n_large hn hfs hfc hone h)
  · exact synthEffect_of_invalid (validate_of_fs_low hn hfs hfc hone hmax h)

/-- Settles O20: a legal request passes the validation, and the construction's fields are its own lemmas. -/
theorem synthConstructsTheFilter : Obligations.SynthConstructsTheFilter := by
  refine ⟨?_, fun w s hopcode => acceptCommand_of_noOperand (o := .synth) rfl hopcode.symm s⟩
  rintro P s t hcoef hhist nreq fc fs n fce hn hmax hfs hfc rfl
  have hfce : fce < 2 ^ 24 := lt_of_le_of_lt (by simp only [fce]; split <;> omega) s.fcReq.isLt
  have hsynth : runCommand P .synth s = (construct P n fce fs s).respond zeroResponse := synthEffect_of_legal hn hmax hfs hfc
  refine ⟨?_, ?_⟩
  · rintro rfl; exact exec_eq_runCommand .synth s
  rw [hsynth]
  refine ⟨rfl, ?_, ?_, rfl, rfl, Memory.read_fill _ n hcoef, Memory.read_fill _ n hhist, construct_cfg P n fce fs s,
    construct_outv P n fce fs s, construct_ovf P n fce fs s, construct_err P n fce fs s, construct_errCode P n fce fs s,
    construct_reservedStatus P n fce fs s, rfl⟩
  · exact (BitVec.toNat_ofNat fce 24).trans (Nat.mod_eq_of_lt hfce)
  · exact (BitVec.ofNat_toNat 24 s.fsReq).trans (BitVec.setWidth_eq s.fsReq)

/-- Settles O21: a SYNTH that answers ERR_RSP took the error action, which keeps CFG and everything PUSH reads. -/
theorem failedSynthKeepsTheFilter : Obligations.FailedSynthKeepsTheFilter := by
  rintro P s t ht hrsp
  obtain ⟨e, rfl⟩ : ∃ e, t = s.raise e := by
    rcases synthEffect_raisesOrAnswers P s with ⟨e, he⟩ | ⟨r, hr, hne⟩
    · exact ⟨e, ht.trans he⟩
    · rw [ht] at hrsp
      have hsame : s.responses ++ [r] = s.responses ++ [errorResponse] := hr.symm.trans hrsp
      exact absurd (by simpa using hsame) hne
  refine ⟨rfl, s.raise_cfg e, s.raise_outv e, s.raise_ovf e, s.raise_reservedStatus e, s.raise_err e, fun x => ?_⟩
  obtain ⟨r, hs, ht, hsame⟩ := pushEffect_after_raise x s e
  exact ⟨pushEffect x s, pushEffect x (s.raise e), r, rfl, rfl, hs, ht, hsame⟩

/-- Settles O25: SYNTH sees the odd-forced window size and the clamped cutoff alone (synthEffect_restage_window,
synthEffect_restage_cutoff). -/
theorem boundaryRequestsBehaveAlike : Obligations.BoundaryRequestsBehaveAlike := by
  constructor
  · intro P s m heven hm
    have hsucc : (m + 1#24).toNat = m.toNat + 1 := by
      have := m.isLt
      exact (BitVec.toNat_add m 1#24).trans (Nat.mod_eq_of_lt (by simp only [BitVec.toNat_ofNat]; omega))
    have hsucc0 : (m + 1#24).toNat ≠ 0 := by omega
    refine synthEffect_restage_window P s hm hsucc0 ?_
    show normalizeWindow (m + 1#24).toNat = normalizeWindow m.toNat
    rw [hsucc]
    exact normalizeWindow_succ_of_even heven
  · intro P s lim hfs hlim
    have hfs0 : s.fsReq.toNat ≠ 0 := by omega
    have hlim0 : lim.toNat ≠ 0 := by omega
    refine synthEffect_restage_cutoff P s hfs0 hlim0 ?_
    show clampCutoff lim.toNat s.fsReq.toNat = clampCutoff s.fsReq.toNat s.fsReq.toNat
    rw [hlim]
    exact (clampCutoff_self hfs).symm

end Sys2Proof.Machine
end

section
/-! SUPPORT. The coefficients of a generator that is legal or computed (40_synthesis.md R108 to R110; log 6): exact, bounded,
symmetric. -/

namespace Sys2Proof.Machine

section
variable {P : Params} {n fce fs k : Nat}

/-- The computed generator is exact wherever its enclosure decides (40_synthesis.md R108; log 6). -/
theorem coefWord_exact (hl : LegalConfig P.nMax n fce fs) (hk : k < n)
    (hdecided : coefDecided ((n - 1) / 2) (centreDistance n k) fce fs = true) :
    IsExactCoef n fce fs k (coefWord n fce fs k).toInt := by
  rw [Laws.coefWord_toInt n fce fs k hl.odd hk hl.fsLow hl.fceHigh]
  exact Laws.coefGen_exact n fce fs k hl.odd hl.atLeast3 hk (by have := hl.fsLow; omega) hdecided

section
variable (hP : P.Legal ∨ P = referenceParams) (hl : LegalConfig P.nMax n fce fs)
include hP hl

/-- R109: no coefficient exceeds the bound in magnitude. -/
theorem coefGen_abs_le_bound (hk : k < n) : |(P.coefGen n fce fs k).toInt| ≤ (coefBound fce fs : Int) := by
  have hfs : 0 < fs := by have := hl.fsLow; omega
  rcases hP with hP | rfl
  · exact Laws.isExactCoef_abs_le hfs (hP.coefExact n fce fs k hl hk)
  · show |(coefWord n fce fs k).toInt| ≤ _
    rw [Laws.coefWord_toInt n fce fs k hl.odd hk hl.fsLow hl.fceHigh]
    exact Laws.coefGen_abs_le n fce fs k hl.odd hk hfs

/-- R109: the centre coefficient is the bound. -/
theorem coefGen_centre_eq_bound : (P.coefGen n fce fs ((n - 1) / 2)).toInt = (coefBound fce fs : Int) := by
  have hfs : 0 < fs := by have := hl.fsLow; omega
  have hk : (n - 1) / 2 < n := by have := hl.atLeast3; omega
  have hcentre := Laws.isExactCoef_centre (fce := fce) hl.odd hl.atLeast3 hfs
  rcases hP with hP | rfl
  · exact Laws.isExactCoef_unique (hP.coefExact n fce fs _ hl hk) hcentre
  · have hdecided : coefDecided ((n - 1) / 2) (centreDistance n ((n - 1) / 2)) fce fs = true := by
      simp [coefDecided, centreDistance]
    exact Laws.isExactCoef_unique (coefWord_exact hl hk hdecided) hcentre

/-- R110: the coefficients are symmetric about the centre. -/
theorem coefGen_mirror (hk : k < n) : P.coefGen n fce fs (n - 1 - k) = P.coefGen n fce fs k := by
  have hmirror : n - 1 - k < n := by omega
  rcases hP with hP | rfl
  · have hexact := Laws.isExactCoef_mirror (by have := hl.atLeast3; omega) hk (hP.coefExact n fce fs k hl hk)
    exact BitVec.eq_of_toInt_eq (Laws.isExactCoef_unique (hP.coefExact n fce fs _ hl hmirror) hexact)
  · show wrap16 (coefGen n fce fs (n - 1 - k)) = wrap16 (coefGen n fce fs k)
    rw [coefGen, coefGen, Laws.centreDistance_mirror n k hl.odd hk]

end

end

/-- The bound of every stored coefficient of a configured block (40_synthesis.md R109). -/
theorem Configured.coef_abs_le {P : Params} {s : State} (h : Configured P s) (hP : P.Legal ∨ P = referenceParams) {k : Nat}
    (hk : k < s.n) : |(s.coef.read k).toInt| ≤ (coefBound s.fc.toNat s.fs.toNat : Int) ∧ |(s.coef.read k).toInt| ≤ 32766 := by
  have hbound : |(s.coef.read k).toInt| ≤ (coefBound s.fc.toNat s.fs.toNat : Int) := by
    rw [h.coef k hk]; exact coefGen_abs_le_bound hP h.legal hk
  have hmax := Laws.coefBound_le _ _ h.legal.fsLow h.legal.fceHigh
  exact ⟨hbound, hbound.trans (by exact_mod_cast hmax)⟩

end Sys2Proof.Machine
end

section
/-! PROOFS. The statements about the coefficients (40_synthesis.md R106 to R110). -/

namespace Sys2Proof.Machine

/-- Settles O22: a successful SYNTH fills COEF from the generator at a legal configuration, and reads back its registers. -/
theorem synthesizedCoefficientsAreExact : Obligations.SynthesizedCoefficientsAreExact := by
  rintro P s t hcoef rfl hrsp k hk
  obtain ⟨n, fce, fs, hl, hfs, hsynth⟩ := synthEffect_success hrsp
  have hrun : runCommand P .synth s = (construct P n fce fs s).respond zeroResponse := hsynth
  rw [hrun] at hk ⊢
  have hn : ((construct P n fce fs s).respond zeroResponse).n = n := rfl
  have hfsReg : ((construct P n fce fs s).respond zeroResponse).fs.toNat = fs :=
    (BitVec.toNat_ofNat fs 24).trans (Nat.mod_eq_of_lt hfs)
  have hfcReg : ((construct P n fce fs s).respond zeroResponse).fc.toNat = fce :=
    (BitVec.toNat_ofNat fce 24).trans (Nat.mod_eq_of_lt (by have := hl.fceHigh; omega))
  have hread : ((construct P n fce fs s).respond zeroResponse).coef.read k = P.coefGen n fce fs k :=
    (Memory.read_fill _ n hcoef k).trans (if_pos hk)
  rw [hn, hfsReg, hfcReg, hread]
  refine ⟨fun hP => hP.coefExact n fce fs k hl hk, ?_⟩
  rintro rfl hdecided
  exact coefWord_exact hl hk hdecided

/-- Settles O23, from the bound of the generator's coefficients and its centre coefficient. -/
theorem coefficientsAreBounded : Obligations.CoefficientsAreBounded := by
  intro P s hP hs hcfg
  have hconf := hs.configured hcfg
  have hcentre : (s.n - 1) / 2 < s.n := by have := hconf.legal.atLeast3; omega
  refine ⟨fun k hk => hconf.coef_abs_le hP hk, ?_⟩
  rw [hconf.coef _ hcentre]
  exact coefGen_centre_eq_bound hP hconf.legal

/-- Settles O24, from the symmetry of the generator's coefficients. -/
theorem coefficientsAreSymmetric : Obligations.CoefficientsAreSymmetric := by
  intro P s hP hs hcfg k hk
  have hconf := hs.configured hcfg
  rw [hconf.coef k hk, hconf.coef (s.n - 1 - k) (by omega), coefGen_mirror hP hconf.legal hk]

end Sys2Proof.Machine
end

section
/-! SUPPORT. The output and OVF against the exact sum (41_convolution.md R146, R147), ACC by any order of addition (R144,
R153), and the sum of a PUSH as the FIR sum of the samples (R150). -/

namespace Sys2Proof.Machine

/-- OVF's range is the one in which the output is floor(S / 2^15) itself (41_convolution.md R147). -/
theorem firOutput_toInt_eq_iff (sum : Int) : (firOutput sum).toInt = sum / 2 ^ 15 ↔ outOfRange sum = false := by
  simp only [firOutput, wrap16, BitVec.toInt_ofInt, outOfRange, decide_eq_false_iff_not, Int.bmod]
  omega

/-- Adding with wrap32 term by term is wrapping the exact sum (41_convolution.md R144). -/
theorem foldl_wrap32 (l : List Int) (a : Int) :
    l.foldl (fun acc prod => wrap32 (acc.toInt + prod)) (wrap32 a) = wrap32 (a + l.sum) := by
  induction l generalizing a with
  | nil => simp
  | cons b l ih => rw [List.foldl_cons, wrap32_add, ih, List.sum_cons, Int.add_assoc]

theorem slotSum_eq_tapProducts (coef hist : Memory) (n p : Nat) :
    slotSum coef hist n p = ((List.range n).map (fun i => tapProduct (hist.read ((p + i) % n)) (coef.read i))).sum := by
  simp only [slotSum, tapProduct, Int.mul_comm]

/-- The slots PUSH reads hold its own sample and then the older ones (41_convolution.md R142, R150). -/
theorem HoldsSamples.pushSum_eq {s : State} {xs : List SInt16} (h : HoldsSamples s xs) (x : SInt16) :
    pushSum x s = firSum s (x :: xs) := by
  refine congrArg List.sum (List.map_congr_left fun i hi => ?_)
  rw [List.mem_range] at hi
  cases i with
  | zero => rfl
  | succ j =>
    rw [if_neg j.succ_ne_zero, List.getD_cons_succ, ← h j (by omega)]
    congr 4
    omega

end Sys2Proof.Machine
end

section
/-! PROOFS. The statements about one PUSH (41_convolution.md R141 to R154). -/

namespace Sys2Proof.Machine

/-- Settles O27, field by field; the output and OVF are those of the exact sum (pushSample_output). -/
theorem pushFiltersOneSample : Obligations.PushFiltersOneSample := by
  intro x s hcfg hptr hhist
  obtain ⟨hlast, hovf⟩ := pushSample_output x hptr hhist
  refine ⟨_, congrArg Host.Outcome.next (pushEffect_of_configured x hcfg), fun k => ?_, pushSample_ptr_eq x hptr, hlast, ?_,
    pushSample_outv x s, pushSample_cfg x s, pushSample_err x s, pushSample_errCode x s, pushSample_reservedStatus x s, ?_⟩
  · rw [State.respond_hist, pushSample_hist, Memory.read_write hhist]
  · rw [State.respond_ovf, hovf, Bool.or_eq_true, outOfRange, decide_eq_true_iff, or_comm]
  · apply State.eq_of_fields <;> simp [sampleResponse]

/-- Settles O29: OVF stays clear exactly when the sum is in the range in which the output is exact. -/
theorem overflowFlagMarksWrongOutputs : Obligations.OverflowFlagMarksWrongOutputs := by
  intro x s t hcfg hptr hhist hclear hexec
  obtain rfl : pushEffect x s = t := Host.Outcome.next.inj hexec
  obtain ⟨hlast, hovf⟩ := pushSample_output x hptr hhist
  rw [pushEffect_of_configured x hcfg, State.respond_ovf, State.respond_lastOut, hlast, hovf, hclear, Bool.or_false, Ne,
    firOutput_toInt_eq_iff, Bool.not_eq_false]

/-- Settles O30: both accumulations wrap the exact sum of the products, which no order changes. -/
theorem accumulationOrderIsFree : Obligations.AccumulationOrderIsFree := by
  intro coef hist n p l hp hperm
  obtain ⟨-, -, hacc⟩ := macPass_spec coef hist n p hp
  calc (macPass coef hist n p).acc
      = wrap32 (slotSum coef hist n p) := hacc
    _ = wrap32 (0 + l.sum) := by rw [slotSum_eq_tapProducts, hperm.sum_eq, Int.zero_add]
    _ = l.foldl (fun acc prod => wrap32 (acc.toInt + prod)) 0#32 := (foldl_wrap32 l 0).symm

/-- Settles O31: the sample goes in front of the history, and the exact sum is the FIR sum of both. -/
theorem pushExtendsTheHistory : Obligations.PushExtendsTheHistory := by
  intro P x xs s hs hcfg hxs
  have hptr := (hs.configured hcfg).ptr
  obtain ⟨hlast, -⟩ := pushSample_output x hptr hs.histWf
  refine ⟨_, congrArg Host.Outcome.next (pushEffect_of_configured x hcfg), hxs.pushSample hptr hs.histWf x, ?_⟩
  rw [State.respond_lastOut, hlast, hxs.pushSum_eq]

end Sys2Proof.Machine
end

section
/-! SUPPORT. A run of the engine over PUSH commands (41_convolution.md R150, R155 to R158): what it leaves, by the samples
pushed, and the FIR sum of a history. -/

namespace Sys2Proof.Machine

/-! ### Runs and the host's stream -/

theorem engineRun_succ (P : Params) (k : Nat) (s : State) : engineRun P (k + 1) s = engineStep P (engineRun P k s) := by
  induction k generalizing s with
  | zero => rfl
  | succ k ih => rw [engineRun, ih (engineStep P s)]; rfl

/-- A step on the word of an instruction runs it (00_scope.md R13). -/
theorem engineStep_encode (P : Params) {s : State} {i : Instr} {rest : List HostMove}
    (hbox : s.inbox = .command (encode i) :: rest) :
    engineStep P s = runCommand P i { s with inbox := rest, accepted := s.accepted + 1 } := by
  rw [engineStep_move P hbox, takeMove, acceptWord, decode_encode]
  rfl

/-- The host's moves for a PUSH of each sample, the oldest first. -/
def pushMoves (xs : List SInt16) : List HostMove := xs.map (fun x => .command (encode (.push x)))

theorem pushMoves_snoc (xs : List SInt16) (x : SInt16) (rest : List HostMove) :
    pushMoves (xs ++ [x]) ++ rest = pushMoves xs ++ .command (encode (.push x)) :: rest := by
  simp [pushMoves]

theorem pushMoves_replicate (m : Nat) (x : SInt16) :
    pushMoves (List.replicate m x) = List.replicate m (.command (encode (.push x))) :=
  List.map_replicate

/-! ### The FIR sum -/

theorem firSum_congr {s t : State} (hn : t.n = s.n) (hcoef : t.coef = s.coef) (xs : List SInt16) :
    firSum t xs = firSum s xs := by
  simp only [firSum, hn, hcoef]

theorem getD_replicate_append {m i : Nat} {v : SInt16} (past : List SInt16) (h : i < m) :
    (List.replicate m v ++ past).getD i 0#16 = v := by
  rw [List.getD_append _ _ _ _ (by rwa [List.length_replicate]), List.getD_replicate _ h]

/-- A history of one repeated sample scales the sum of the coefficients (41_convolution.md R157). -/
theorem firSum_replicate (s : State) (v : SInt16) {m : Nat} (hm : s.n ≤ m) (past : List SInt16) :
    firSum s (List.replicate m v ++ past) = v.toInt * ((List.range s.n).map (fun k => (s.coef.read k).toInt)).sum := by
  rw [← List.sum_map_mul_left]
  refine congrArg List.sum (List.map_congr_left fun i hi => ?_)
  rw [List.mem_range] at hi
  rw [getD_replicate_append past (by omega)]
  exact Int.mul_comm _ _

/-- An impulse `k` samples ago, with zeros since and before, has the one product of tap `k` (41_convolution.md R158). -/
theorem firSum_impulse (s : State) (a : SInt16) {k : Nat} (hk : k < s.n) :
    firSum s (List.replicate k 0#16 ++ [a]) = a.toInt * (s.coef.read k).toInt := by
  have hsample (i : Nat) : (List.replicate k 0#16 ++ [a]).getD i 0#16 = if i = k then a else 0#16 := by
    rcases Nat.lt_trichotomy i k with h | rfl | h
    · rw [getD_replicate_append _ h, if_neg h.ne]
    · rw [List.getD_append_right _ _ _ _ (by simp)]; simp
    · rw [List.getD_eq_default _ _ (by simp; omega), if_neg h.ne']
  calc firSum s (List.replicate k 0#16 ++ [a])
      = ∑ i ∈ Finset.range s.n, int16Value (s.coef.read i) * int16Value (if i = k then a else 0#16) := by
        simp only [firSum, hsample]; rfl
    _ = int16Value (s.coef.read k) * int16Value a := by
        rw [Finset.sum_eq_single k (fun i _ hi => by rw [if_neg hi]; exact Int.mul_zero _)
          (fun h => absurd (Finset.mem_range.2 hk) h), if_pos rfl]
    _ = a.toInt * (s.coef.read k).toInt := Int.mul_comm _ _

/-- The product of a sample and a coefficient within the bound of R109 is in the range of R147. -/
theorem firOutput_product {a c : SInt16} (hc : |c.toInt| ≤ 32766) :
    (firOutput (a.toInt * c.toInt)).toInt = a.toInt * c.toInt / 2 ^ 15 := by
  have ha : |a.toInt| ≤ 32768 := abs_le.2 ⟨a.le_toInt, a.toInt_lt.le⟩
  have hproduct : |a.toInt * c.toInt| ≤ 32768 * 32766 := by
    rw [abs_mul]; exact mul_le_mul ha hc (abs_nonneg _) (by norm_num)
  obtain ⟨hlow, hhigh⟩ := abs_le.1 hproduct
  rw [firOutput_toInt_eq_iff, outOfRange, decide_eq_false_iff_not]
  omega

/-- The response to the sample of position `k` in `xs`, pushed on a history of `past` (41_convolution.md R149, R150). -/
def pushResponse (s : State) (past xs : List SInt16) (k : Nat) : Word :=
  sampleResponse (firOutput (firSum s ((xs.take (k + 1)).reverse ++ past)))

/-- A response does not depend on what is pushed later. -/
theorem pushResponse_snoc (s : State) (past : List SInt16) {xs : List SInt16} (x : SInt16) {k : Nat} (hk : k < xs.length) :
    pushResponse s past (xs ++ [x]) k = pushResponse s past xs k := by
  rw [pushResponse, pushResponse, List.take_append_of_le_length hk]

theorem pushResponse_last (s : State) (past : List SInt16) {xs : List SInt16} {k : Nat} (hk : xs.length = k + 1) :
    pushResponse s past xs k = sampleResponse (firOutput (firSum s (xs.reverse ++ past))) := by
  rw [pushResponse, ← hk, List.take_length]

/-! ### What a run over PUSH commands leaves -/

/-- `t` is what the PUSH of each of `xs`, the oldest first, leaves of `s`, whose history was `past`, with `rest` still in the
host's stream. -/
structure Pushed (P : Params) (s : State) (past xs : List SInt16) (rest : List HostMove) (t : State) : Prop where
  inv       : EngineInv P t
  cfg       : t.cfg = true
  inbox     : t.inbox = rest
  n         : t.n = s.n
  coef      : t.coef = s.coef
  ptr       : (t.ptr + xs.length) % s.n = s.ptr
  holds     : HoldsSamples t (xs.reverse ++ past)
  lastOut   : xs ≠ [] → t.lastOut = firOutput (firSum s (xs.reverse ++ past))
  responses : t.responses = s.responses ++ (List.range xs.length).map (pushResponse s past xs)

section
variable {P : Params} {s t : State} {past : List SInt16}

/-- Before the first PUSH. -/
theorem Pushed.nil (hs : EngineInv P s) (hcfg : s.cfg = true) (hpast : HoldsSamples s past) (rest : List HostMove) :
    Pushed P s past [] rest { s with inbox := rest } where
  inv       := hs.takeInbox rest
  cfg       := hcfg
  inbox     := rfl
  n         := rfl
  coef      := rfl
  ptr       := Nat.mod_eq_of_lt (hs.configured hcfg).ptr
  holds     := hpast
  lastOut   := fun h => absurd rfl h
  responses := (List.append_nil _).symm

/-- The engine takes a word from the host's stream and counts it (10_state.md R21). -/
theorem Pushed.takeWord {xs : List SInt16} {m : HostMove} {rest : List HostMove} (h : Pushed P s past xs (m :: rest) t) :
    Pushed P s past xs rest { t with inbox := rest, accepted := t.accepted + 1 } where
  inv       := (h.inv.takeInbox rest).countAccepted
  cfg       := h.cfg
  inbox     := rfl
  n         := h.n
  coef      := h.coef
  ptr       := h.ptr
  holds     := h.holds
  lastOut   := h.lastOut
  responses := h.responses

/-- One more sample (41_convolution.md R141, R150). -/
theorem Pushed.pushEffect {xs : List SInt16} {rest : List HostMove} (h : Pushed P s past xs rest t) (x : SInt16) :
    Pushed P s past (xs ++ [x]) rest (pushEffect x t) := by
  have hptr : t.ptr < t.n := (h.inv.configured h.cfg).ptr
  have hinv : EngineInv P (Machine.pushEffect x t) := h.inv.runCommand (.push x)
  have hreverse : (xs ++ [x]).reverse ++ past = x :: (xs.reverse ++ past) := by simp
  have hlast : (pushSample x t).lastOut = firOutput (firSum s ((xs ++ [x]).reverse ++ past)) := by
    rw [(pushSample_output x hptr h.inv.histWf).1, h.holds.pushSum_eq, firSum_congr h.n h.coef, hreverse]
  rw [pushEffect_of_configured x h.cfg] at hinv ⊢
  constructor
  case inv => exact hinv
  case cfg => exact (pushSample_cfg x t).trans h.cfg
  case inbox => exact (pushSample_inbox x t).trans h.inbox
  case n => exact (pushSample_n x t).trans h.n
  case coef => exact (pushSample_coef x t).trans h.coef
  case ptr =>
    have hn : 0 < s.n := by have := h.n; omega
    calc ((pushSample x t).ptr + (xs ++ [x]).length) % s.n
        = ((t.ptr + s.n - 1) % s.n + (xs.length + 1)) % s.n := by
          rw [pushSample_ptr_eq x hptr, h.n, List.length_append, List.length_singleton]
      _ = (t.ptr + xs.length + s.n) % s.n := by rw [Nat.mod_add_mod]; congr 1; omega
      _ = s.ptr := by rw [Nat.add_mod_right, h.ptr]
  case holds => rw [hreverse]; exact h.holds.pushSample hptr h.inv.histWf x
  case lastOut => exact fun _ => hlast
  case responses =>
    have hbefore : (List.range xs.length).map (pushResponse s past (xs ++ [x])) =
        (List.range xs.length).map (pushResponse s past xs) :=
      List.map_congr_left fun k hk => pushResponse_snoc s past x (List.mem_range.1 hk)
    have hlength : (xs ++ [x]).length = xs.length + 1 := List.length_append
    rw [State.respond_responses, pushSample_responses, h.responses, hlast, hlength, List.range_succ, List.map_append,
      List.map_singleton, hbefore, pushResponse_last s past hlength, List.append_assoc]

/-- The last response shows the last output (41_convolution.md R149). -/
theorem Pushed.getLast_response {xs : List SInt16} {rest : List HostMove} (h : Pushed P s past xs rest t) (hxs : xs ≠ []) :
    t.responses.getLast? = some (sampleResponse t.lastOut) := by
  obtain ⟨k, hk⟩ : ∃ k, xs.length = k + 1 := Nat.exists_eq_succ_of_ne_zero (mt List.length_eq_zero_iff.1 hxs)
  rw [h.responses, hk, List.range_succ, List.map_append, List.map_singleton, ← List.append_assoc, List.getLast?_concat,
    pushResponse_last s past hk, h.lastOut hxs]

/-- The run over the PUSH of each of `xs`, by induction on the last of them. -/
theorem engineRun_pushes (hs : EngineInv P s) (hcfg : s.cfg = true) (hpast : HoldsSamples s past) (xs : List SInt16)
    (rest : List HostMove) :
    Pushed P s past xs rest (engineRun P xs.length { s with inbox := pushMoves xs ++ rest }) := by
  induction xs using List.reverseRecOn generalizing rest with
  | nil => exact Pushed.nil hs hcfg hpast rest
  | append_singleton xs x ih =>
    have hbefore := ih (.command (encode (.push x)) :: rest)
    rw [List.length_append, List.length_singleton, engineRun_succ, pushMoves_snoc, engineStep_encode P hbefore.inbox]
    exact hbefore.takeWord.pushEffect x

end

/-! ### One repeated sample (41_convolution.md R155, R157) -/

/-- Every history holds some samples: those its slots are read as, by age. -/
theorem exists_holdsSamples (s : State) : ∃ past, HoldsSamples s past :=
  ⟨(List.range s.n).map (fun j => s.hist.read ((s.ptr + 1 + j) % s.n)), fun j hj => by simp [List.getD, hj]⟩

/-- Every slot of the window is the slot of some age (42_status_readback.md R175). -/
theorem exists_age_of_slot {n p k : Nat} (hp : p < n) (hk : k < n) : ∃ j, j < n ∧ (p + 1 + j) % n = k := by
  refine ⟨(k + n - (p + 1)) % n, Nat.mod_lt _ (by omega), ?_⟩
  rw [Nat.add_mod_mod, show p + 1 + (k + n - (p + 1)) = k + n by omega, Nat.add_mod_right, Nat.mod_eq_of_lt hk]

theorem engineRun_replicate {P : Params} {s : State} (hs : EngineInv P s) (hcfg : s.cfg = true) (m : Nat) (v : SInt16) :
    ∃ past, Pushed P s past (List.replicate m v) []
      (engineRun P m { s with inbox := List.replicate m (.command (encode (.push v))) }) := by
  obtain ⟨past, hpast⟩ := exists_holdsSamples s
  have hrun := engineRun_pushes hs hcfg hpast (List.replicate m v) []
  rw [pushMoves_replicate, List.append_nil, List.length_replicate] at hrun
  exact ⟨past, hrun⟩

section
variable {P : Params} {s t : State} {past : List SInt16} {m : Nat} {v : SInt16} {rest : List HostMove}

theorem Pushed.lastOut_replicate (h : Pushed P s past (List.replicate m v) rest t) (hm : s.n ≤ m) (hn : 0 < s.n) :
    t.lastOut = firOutput (v.toInt * ((List.range s.n).map (fun k => (s.coef.read k).toInt)).sum) := by
  rw [h.lastOut (by simp; omega), List.reverse_replicate, firSum_replicate s v hm]

/-- A window full of one sample: every slot holds it. -/
theorem Pushed.hist_replicate (h : Pushed P s past (List.replicate m v) rest t) (hm : s.n ≤ m) {k : Nat} (hk : k < t.n) :
    t.hist.read k = v := by
  obtain ⟨j, hj, rfl⟩ := exists_age_of_slot (h.inv.configured h.cfg).ptr hk
  have hjm : j < m := by have := h.n; omega
  rw [h.holds j hj, List.reverse_replicate, getD_replicate_append past hjm]

end

/-! ### From a construction on (40_synthesis.md R112; 70_reset_and_hazards.md R235) -/

/-- A legal request gives a legal configuration, in natural numbers (40_synthesis.md R104, R105). -/
theorem legalConfig_of_request {nMax nreq fc fs : Nat} (hn : 2 ≤ nreq) (hmax : normalizeWindow nreq ≤ nMax) (hfs : 4 ≤ fs)
    (hfc : 1 ≤ fc) : LegalConfig nMax (normalizeWindow nreq) (if fs / 2 - 1 < fc then fs / 2 - 1 else fc) fs := by
  rw [← clampCutoff_toNat fc fs hfs]
  exact legal_of_validate (validate_of_legal hn hmax hfs hfc)

/-- A fresh filter has zeros before the first sample. -/
theorem holdsSamples_construct (P : Params) {n : Nat} (fce fs : Nat) {s : State} (hhist : s.hist.wf = true) :
    HoldsSamples (construct P n fce fs s) [] := by
  intro j hj
  rw [construct_n] at hj ⊢
  have hslot : ((construct P n fce fs s).ptr + 1 + j) % n < n := Nat.mod_lt _ (by omega)
  rw [construct_hist, Memory.read_fill _ n hhist, if_pos hslot]
  rfl

/-- The run over PUSH commands of a fresh filter. -/
theorem engineRun_pushes_construct {P : Params} {n fce fs : Nat} {s : State} (hs : EngineInv P s)
    (hl : LegalConfig P.nMax n fce fs) (hfs : fs < 2 ^ 24) (xs : List SInt16) :
    Pushed P ((construct P n fce fs s).respond zeroResponse) [] xs []
      (engineRun P xs.length { (construct P n fce fs s).respond zeroResponse with inbox := pushMoves xs }) := by
  have hempty : HoldsSamples ((construct P n fce fs s).respond zeroResponse) [] := holdsSamples_construct P fce fs hs.histWf
  have hrun := engineRun_pushes ((hs.construct hl hfs).respond zeroResponse) (construct_cfg P n fce fs s) hempty xs []
  rwa [List.append_nil] at hrun

/-- The sample pushed `i` before the one of position `k` is the one of position `k - i`, and zero before the first. -/
theorem getD_reverse_take {xs : List SInt16} {k : Nat} (hk : k < xs.length) (i : Nat) :
    (xs.take (k + 1)).reverse.getD i 0#16 = if i ≤ k then xs.getD (k - i) 0#16 else 0#16 := by
  have hlength : (xs.take (k + 1)).length = k + 1 := by rw [List.length_take]; omega
  split
  next hi =>
    rw [List.getD_eq_getElem?_getD, List.getElem?_reverse (by omega), hlength, List.getElem?_take_of_lt (by omega),
      List.getD_eq_getElem?_getD, Nat.add_sub_cancel]
  next hi => exact List.getD_eq_default _ _ (by rw [List.length_reverse]; omega)

/-- The response of position `k` after a construction, in the generator's coefficients (41_convolution.md R150). -/
theorem pushResponse_construct (P : Params) (n fce fs : Nat) {s : State} (hcoef : s.coef.wf = true) {xs : List SInt16} {k : Nat}
    (hk : k < xs.length) :
    pushResponse (construct P n fce fs s) [] xs k =
      (wrap16 (((List.range n).map (fun i => (P.coefGen n fce fs i).toInt *
        (if i ≤ k then (xs.getD (k - i) 0#16).toInt else 0))).sum / 2 ^ 15)).signExtend 32 := by
  have hsum : firSum (construct P n fce fs s) ((xs.take (k + 1)).reverse ++ []) =
      ((List.range n).map (fun i => (P.coefGen n fce fs i).toInt *
        (if i ≤ k then (xs.getD (k - i) 0#16).toInt else 0))).sum := by
    refine congrArg List.sum (List.map_congr_left fun i hi => ?_)
    have hread : (construct P n fce fs s).coef.read i = P.coefGen n fce fs i :=
      (Memory.read_fill _ n hcoef i).trans (if_pos (List.mem_range.1 hi))
    rw [hread, List.append_nil, getD_reverse_take hk, int16Value, int16Value, apply_ite BitVec.toInt, BitVec.toInt_zero]
  rw [pushResponse, hsum]
  rfl

/-- PTR counts down modulo the window size: it is (-m) mod n after `m` steps from 0 (70_reset_and_hazards.md R235). -/
theorem eq_neg_mod {p m n : Nat} (hp : p < n) (h : (p + m) % n = 0) : p = (n - m % n) % n := by
  have hm : m % n < n := Nat.mod_lt _ (by omega)
  rw [← Nat.add_mod_mod] at h
  rcases Nat.lt_or_ge (p + m % n) n with hlt | hge
  · rw [Nat.mod_eq_of_lt hlt] at h
    rw [show m % n = 0 by omega, Nat.sub_zero, Nat.mod_self]
    omega
  · rw [Nat.mod_eq_sub_mod hge, Nat.mod_eq_of_lt (by omega)] at h
    rw [Nat.mod_eq_of_lt (by omega)]
    omega

end Sys2Proof.Machine
end

section
/-! PROOFS. The statements about sequences of PUSH commands (41_convolution.md R150, R155, R157, R158). -/

namespace Sys2Proof.Machine

/-- Settles O32: the first step constructs the filter, with an empty history, and the others push the samples. -/
theorem synthThenPushesConvolve : Obligations.SynthThenPushesConvolve := by
  rintro P s t xs hs nreq fc fs n fce hn hmax hfs hfc rfl
  have hlegal : LegalConfig P.nMax n fce fs := legalConfig_of_request hn hmax hfs hfc
  have hfirst : engineStep P { s with inbox := .command (encode .synth) :: pushMoves xs } =
      { (construct P n fce fs s.countAccepted).respond zeroResponse with inbox := pushMoves xs } :=
    (engineStep_encode P (i := .synth) (rest := pushMoves xs) rfl).trans
      (synthEffect_of_legal (s := { s with inbox := pushMoves xs, accepted := s.accepted + 1 }) hn hmax hfs hfc)
  have hrun := engineRun_pushes_construct hs.countAccepted hlegal s.fsReq.isLt xs
  rw [← hfirst] at hrun
  refine ⟨?_, ?_⟩
  · refine hrun.responses.trans ((List.append_assoc s.responses _ _).trans ?_)
    refine congrArg (fun l => s.responses ++ zeroResponse :: l) (List.map_congr_left fun k hk => ?_)
    exact pushResponse_construct P n fce fs hs.coefWf (List.mem_range.1 hk)
  · have hptr := (hrun.inv.configured hrun.cfg).ptr
    rw [hrun.n] at hptr
    exact eq_neg_mod hptr hrun.ptr

/-- Settles O33: the window is full of zeros, and their sum is 0. -/
theorem zerosFlushTheHistory : Obligations.ZerosFlushTheHistory := by
  rintro P s t m hs hcfg hm rfl
  have hn : 0 < s.n := by have := (hs.configured hcfg).legal.atLeast3; omega
  obtain ⟨past, hrun⟩ := engineRun_replicate hs hcfg m 0#16
  have hlast := hrun.lastOut_replicate hm hn
  rw [BitVec.toInt_zero, Int.zero_mul] at hlast
  refine ⟨fun k hk => hrun.hist_replicate hm hk, hlast, ?_⟩
  rw [hrun.getLast_response (by simp; omega), hlast]
  rfl

/-- Settles O34: the window is full of the one sample, which is a factor of the sum. -/
theorem constantInputReachesDcGain : Obligations.ConstantInputReachesDcGain := by
  rintro P s t v m hs hcfg hm rfl
  have hn : 0 < s.n := by have := (hs.configured hcfg).legal.atLeast3; omega
  obtain ⟨past, hrun⟩ := engineRun_replicate hs hcfg m v
  exact hrun.lastOut_replicate hm hn

/-- Settles O35: the impulse meets the coefficient of its age and zeros meet the others, and the product is in range by the
bound of the coefficients. -/
theorem impulseReturnsCoefficients : Obligations.ImpulseReturnsCoefficients := by
  rintro P s t a k hP hs hcfg hempty hk rfl
  have hmoves : HostMove.command (encode (.push a)) :: List.replicate k (.command (encode (.push 0#16))) =
      pushMoves (a :: List.replicate k 0#16) ++ [] := by
    rw [List.append_nil, ← pushMoves_replicate]; rfl
  have hrun := engineRun_pushes hs hcfg hempty (a :: List.replicate k 0#16) []
  rw [← hmoves, List.length_cons, List.length_replicate] at hrun
  have hlast := hrun.lastOut (List.cons_ne_nil _ _)
  rw [List.append_nil, List.reverse_cons, List.reverse_replicate, firSum_impulse s a hk] at hlast
  rw [hlast, firOutput_product ((hs.configured hcfg).coef_abs_le hP hk).2]
  exact ⟨rfl, fun ha => by rw [ha]; omega⟩

end Sys2Proof.Machine
end
